-- ==== Sys2Proof/Word.lean ====
section
/-! DEFINITION. The data words of the RLE codec core: the byte and the run. -/

namespace Sys2Proof

/-- A byte, "an 8-bit unsigned value 0..255" (00_scope.md R15). -/
abbrev Byte := BitVec 8

/-- A run `(c, b)`: `count` consecutive repetitions of `byte` (00_scope.md R17, 10_state.md R33).
Both fields are 8 bits wide (R13). -/
structure Run where
  count : BitVec 8
  byte : Byte
  deriving DecidableEq, Repr

end Sys2Proof
end

