-- ==== Sys2Proof/Config.lean ====
section
/-! DEFINITION. What is fixed for the machine (00_scope.md R10 to R14) and the free values the spec leaves open. -/

namespace Sys2Proof

/-- What a configuration chooses: `CHUNK` (00_scope.md R3, R10), and the widths of the registers that are sized by it (R13:
"for another CHUNK, each length register is wide enough for its range"). -/
structure Params where
  /-- `CHUNK`: the capacity of `IBUF` and the read size of both stream drivers (R10). -/
  chunk : Nat
  /-- The width of `ILEN` and `RCOUNT` (R13), and of the hidden positions and indices (10_state.md R50 to R53). -/
  lenBits : Nat
  /-- The width of `NARG` (R13; log 29). -/
  nargBits : Nat
  /-- The width of `OLEN` (R13), and of `EX_OPOS` (10_state.md R51). -/
  olenBits : Nat
  /-- The width of `ERR_OFF` (R13). -/
  offBits : Nat
  deriving DecidableEq, Repr

/-- `MAXRUN`: the largest count a run may hold (00_scope.md R11). -/
def Config.maxRun : Nat := 255

/-- The parameters of this hardware: `CHUNK` is 512 (00_scope.md R10), with the widths R13 gives for it. -/
@[reducible] def Params.default : Params := { chunk := 512, lenBits := 10, nargBits := 16, olenBits := 16, offBits := 9 }

/-- `CHUNK >= 2` and even (00_scope.md R10); each register holds every value of its range (R13: `ILEN` and `RCOUNT` 0 to
`CHUNK`, `NARG` 0 to 65535 and every length `LOAD` gives it, `OLEN` 0 to `OBUF_CAP`, `ERR_OFF` 0 to `CHUNK - 1`); and at
`CHUNK = 512` the widths are the ones R13 gives. -/
def Params.wf (p : Params) : Bool :=
  decide (2 ≤ p.chunk) && decide (p.chunk % 2 = 0) && decide (p.chunk < 2 ^ p.lenBits)
    && decide (16 ≤ p.nargBits) && decide (p.chunk < 2 ^ p.nargBits) && decide (p.chunk / 2 * Config.maxRun < 2 ^ p.olenBits)
    && decide (p.chunk ≤ 2 ^ p.offBits) && decide (p.chunk = 512 → p = Params.default)

/-- A configuration the model accepts. Every definition of the machine takes one, so a `CHUNK` that is odd or below 2 is
refused: it makes no `Config` (93_implementation_defined.md O2, O3). -/
structure Config where
  params : Params
  legal : params.wf = true
  deriving DecidableEq, Repr

/-- The configuration of this hardware (00_scope.md R10, R13). -/
@[reducible] def Config.hardware : Config := { params := Params.default, legal := by decide }

/-- `CHUNK` (00_scope.md R10). -/
abbrev Config.chunk (cfg : Config) : Nat := cfg.params.chunk

/-- The width of `ILEN` and `RCOUNT` (00_scope.md R13). -/
abbrev Config.lenBits (cfg : Config) : Nat := cfg.params.lenBits

/-- The width of `NARG` (00_scope.md R13). -/
abbrev Config.nargBits (cfg : Config) : Nat := cfg.params.nargBits

/-- The width of `OLEN` (00_scope.md R13). -/
abbrev Config.olenBits (cfg : Config) : Nat := cfg.params.olenBits

/-- The width of `ERR_OFF` (00_scope.md R13). -/
abbrev Config.offBits (cfg : Config) : Nat := cfg.params.offBits

/-- `RUNCAP`: the capacity of `RUNBUF` in runs (00_scope.md R12). -/
def Config.runCap (cfg : Config) : Nat := cfg.chunk

/-- `OBUF_CAP`: the capacity of `OBUF` in bytes (00_scope.md R12). -/
def Config.obufCap (cfg : Config) : Nat := cfg.chunk / 2 * Config.maxRun

/-- FREE VALUE (10_state.md R32, R48; log 5). The byte of `IBUF` at an index, before the host writes it,
after the reset with the given number. -/
opaque Config.ibufAtReset : Nat → Nat → BitVec 8

/-- FREE VALUE (10_state.md R48; log 6). The entry of `RUNBUF` at an index before a command writes it
(count in the upper byte), after the reset with the given number. -/
opaque Config.runbufAtReset : Nat → Nat → BitVec 16

/-- FREE VALUE (10_state.md R48; log 6). The byte of `OBUF` at an index before a command writes it,
after the reset with the given number. -/
opaque Config.obufAtReset : Nat → Nat → BitVec 8

/-- FREE VALUE (10_state.md R36, R47; log 7). The `k`-th draw, of the given width. The step counts the draws,
so that each read of an unspecified value is a fresh one. -/
opaque Config.draw : (w : Nat) → Nat → BitVec w

/-- The items `HOST_MAP` places: the registers of 10_state.md R21 and the buffers of R32 to R34. -/
inductive HostItem where
  | ilen | narg | rcount | olen | status | ibuf | runbuf | obuf
  deriving DecidableEq, Repr

/-- `HOST_MAP`, left OPEN as a named parameter (00_scope.md R14; log 12): the place of each item in a host's address
space. No definition of the model reads it, since the spec defines only the abstract host operations (R40). -/
opaque Config.hostMap : HostItem → Nat

end Sys2Proof
end

