-- ==== Sys2Proof/Syntax.lean ====
section
/-! DEFINITION. The commands of the block: one constructor per row of the opcode table (30_encoding.md R87). -/

namespace Sys2Proof

/-- The four commands. No command word has a register, immediate or mode field (30_encoding.md R83). -/
inductive Instr where
  /-- `ENCODE`, word 0x01 (40_encoder.md R100). -/
  | encode
  /-- `DECODE`, word 0x02 (41_decoder.md R130). -/
  | decode
  /-- `SERIALIZE`, word 0x03 (42_serializer.md R150). -/
  | serialize
  /-- `PARSE`, word 0x04 (43_parser.md R170). -/
  | parse
  deriving DecidableEq, Repr

end Sys2Proof
end

