-- ==== Sys2Proof/Machine/Event.lean ====
section
/-! DEFINITION. What the host can do (10_state.md R40, 30_encoding.md R89 and R90, 44_stream_drivers.md R202 to R204),
what it gets back, and the states of the stream drivers. -/

namespace Sys2Proof.Machine

/-- The abstract host operations (10_state.md R40). -/
inductive HostOp (cfg : Config := Config.hardware) where
  | reset
  | writeIn (i : Nat) (v : Byte)
  | setLen (len : Nat)
  | setN (n : BitVec cfg.nargBits)
  | issue (w : Byte)
  | readStatus
  | readIn (i : Nat)
  | readRun (k : Nat)
  | readOut (i : Nat)
  | readLen
  | readN
  | readRCount
  | readOLen
  deriving DecidableEq, Repr

/-- What a host read returns (10_state.md R40). -/
inductive Response (cfg : Config := Config.hardware) where
  /-- The four fields of `STATUS` (R23). -/
  | status (busy : Bool) (err : BitVec 3) (errOff : BitVec cfg.offBits) (errZero : Bool)
  /-- A byte of `IBUF`. -/
  | inByte (v : Byte)
  /-- An entry of `RUNBUF` as `(count, byte)`. -/
  | run (r : Run)
  /-- A byte of `OBUF`. -/
  | outByte (v : Byte)
  | len (v : BitVec cfg.lenBits)
  | n (v : BitVec cfg.nargBits)
  | rcount (v : BitVec cfg.lenBits)
  | olen (v : BitVec cfg.olenBits)
  deriving DecidableEq, Repr

/-- Which of the two stream drivers runs (44_stream_drivers.md R202, R203). -/
inductive Direction where
  /-- `performEncoding`. -/
  | encoding
  /-- `performDecoding`. -/
  | decoding
  deriving DecidableEq, Repr

/-- The one result a driver returns (44_stream_drivers.md R201). -/
inductive DriverResult where
  | ok
  | malformedFrame
  | inputStreamError
  | outputStreamError
  deriving DecidableEq, Repr

/-- The driver's state machine: Reading, Encoding, Writing, and a terminal state for each result
(44_stream_drivers.md R204). -/
inductive Driver where
  /-- No driver has been invoked. -/
  | inactive
  | reading (d : Direction)
  /-- Encoding (for decoding: the `PARSE`, `DECODE` step), with the chunk that was read. -/
  | working (d : Direction) (chunk : List Byte)
  | writing (d : Direction)
  | finished (r : DriverResult)
  deriving DecidableEq, Repr

/-- One entry of the program: a line of the host's program (30_encoding.md R89, R90), or a point at which the block moves
while it executes a command (10_state.md R28; log 3). -/
inductive Event (cfg : Config := Config.hardware) where
  /-- One host operation, alone. -/
  | host (op : HostOp cfg)
  /-- A command line, a mnemonic or `.word`: `HostIssue` and the wait for `BUSY = 0` (R89). -/
  | command (w : Byte)
  /-- `WAIT` (R89). -/
  | wait
  /-- The pseudo-instruction `LOAD` (R90). -/
  | load (bytes : List Byte)
  /-- The pseudo-instruction `COMPRESS` (R90). -/
  | compress
  /-- The pseudo-instruction `DECOMPRESS` (R90). -/
  | decompress
  /-- An invocation of a stream driver (44_stream_drivers.md R202, R203). -/
  | perform (d : Direction)
  /-- The block takes one beat of the spec's own realisation of the unit that is running. -/
  | beat
  /-- The block completes its command, by whatever realisation (10_state.md R28, R44). -/
  | complete
  deriving DecidableEq, Repr

end Sys2Proof.Machine
end

