-- ==== Sys2Proof/Machine/State.lean ====
section
/-! DEFINITION. The state of the block and of its host (10_state.md R19 to R53, 44_stream_drivers.md R200), the reasons
a step can stop, and the state after power-on. -/

namespace Sys2Proof.Machine

/-- The hidden state of the run scanner and count limiter (10_state.md R50); idle is all 0. -/
structure Scanner (cfg : Config := Config.hardware) where
  /-- `SC_POS`: the current position. -/
  pos : BitVec cfg.lenBits := 0#cfg.lenBits
  /-- `SC_BYTE`: the open run's byte. -/
  byte : Byte := 0#8
  /-- `SC_CNT`: the open run's count; 0 means no run is open. -/
  cnt : BitVec 8 := 0#8
  /-- `SC_N`: the effective length. -/
  n : BitVec cfg.lenBits := 0#cfg.lenBits
  /-- `SC_K`: the number of runs written. -/
  k : BitVec cfg.lenBits := 0#cfg.lenBits
  deriving DecidableEq, Repr

/-- The hidden state of the run expander (10_state.md R51); idle is all 0. -/
structure Expander (cfg : Config := Config.hardware) where
  /-- `EX_IDX`: the current run index. -/
  idx : BitVec cfg.lenBits := 0#cfg.lenBits
  /-- `EX_REM`: copies of the current run's byte still to emit. -/
  rem : BitVec 8 := 0#8
  /-- `EX_OPOS`: the next `OBUF` index. -/
  opos : BitVec cfg.olenBits := 0#cfg.olenBits
  deriving DecidableEq, Repr

/-- The hidden state of the frame serializer (10_state.md R52); idle is all 0. -/
structure Serializer (cfg : Config := Config.hardware) where
  /-- `SR_IDX`: the current run index. -/
  idx : BitVec cfg.lenBits := 0#cfg.lenBits
  /-- `SR_HALF`: false = count byte next, true = byte value next. -/
  half : Bool := false
  deriving DecidableEq, Repr

/-- The hidden state of the frame deserializer (10_state.md R53); idle is all 0. -/
structure Deserializer (cfg : Config := Config.hardware) where
  /-- `DS_POS`: the current `IBUF` offset. -/
  pos : BitVec cfg.lenBits := 0#cfg.lenBits
  /-- `DS_N`: the effective length. -/
  n : BitVec cfg.lenBits := 0#cfg.lenBits
  /-- `DS_HALF`: false = expecting a count byte, true = expecting the paired byte. -/
  half : Bool := false
  /-- `DS_CNT`: the held count byte. -/
  cnt : BitVec 8 := 0#8
  /-- `DS_K`: the number of runs written. -/
  k : BitVec cfg.lenBits := 0#cfg.lenBits
  deriving DecidableEq, Repr

/-- What the block is executing between issue and completion: the `cmd` of 10_state.md R44. -/
inductive Activity where
  /-- No command is in flight. -/
  | idle
  /-- An issued word that decodes to no command (30_encoding.md R86). -/
  | illegal
  | running (i : Instr)
  deriving DecidableEq, Repr

/-- The three buffers (20_memory.md R67). -/
inductive BufferName where
  | ibuf | runbuf | obuf
  deriving DecidableEq, Repr

/-- The model faults. Each of the first four is a host protocol violation (60_exceptions.md R230, R238), raised where the
hardware's behaviour is unspecified, and carries the host operation that caused it (R231). All are safe: the model stops
where hardware may go on. -/
inductive Fault (cfg : Config := Config.hardware) where
  /-- Raised by `HostWriteIn`, `HostSetLen` and `HostSetN` while `BUSY = 1` (10_state.md R41 to R43, R47). Safe. -/
  | hostWriteWhileBusy (op : HostOp cfg)
  /-- Raised by `HostIssue` while `BUSY = 1` (10_state.md R44, R47). Safe. -/
  | hostIssueWhileBusy (op : HostOp cfg)
  /-- Raised by `HostWriteIn` with an index of `CHUNK` or more (10_state.md R41). Safe. -/
  | hostIndexOutOfRange (op : HostOp cfg)
  /-- Raised by `HostSetLen` with a length above `CHUNK` (10_state.md R42). Safe. -/
  | hostLenTooLarge (op : HostOp cfg)
  /-- Raised by the block's own access to a buffer at an index the buffer does not have (20_memory.md R67, R68: no
  reachable command makes one; log 11). Safe. -/
  | blockIndexOutOfRange (buffer : BufferName) (index : Nat)
  deriving DecidableEq, Repr

/-- Refusals. Every command has its meaning, so nothing raises this one. -/
inductive Refusal where
  /-- A command without a meaning; raised by an arm of `exec` that has none (there is none). Safe. -/
  | notModelled (mnemonic : String)
  deriving DecidableEq, Repr

/-- The machine: the block (10_state.md R21 to R34, R50 to R53) and the host that drives it. -/
structure State (cfg : Config := Config.hardware) where
  /-- `ILEN`: number of valid bytes in `IBUF` (R24). -/
  ilen : BitVec cfg.lenBits
  /-- `NARG`: the count argument (R25). -/
  narg : BitVec cfg.nargBits
  /-- `RCOUNT`: number of runs in `RUNBUF` (R26). -/
  rcount : BitVec cfg.lenBits
  /-- `OLEN`: number of bytes in `OBUF` (R27). -/
  olen : BitVec cfg.olenBits
  /-- `STATUS.BUSY` (R28). -/
  busy : Bool
  /-- `STATUS.ERR` (R29). -/
  err : BitVec 3
  /-- `STATUS.ERR_OFF` (R30). -/
  errOff : BitVec cfg.offBits
  /-- `STATUS.ERR_ZERO` (R31). -/
  errZero : Bool
  /-- `IBUF`: the bytes written since the last reset (R32; log 18). -/
  ibuf : List Host.Cell
  /-- `RUNBUF`: the runs written since the last reset (R33; log 18). -/
  runbuf : List (Nat × Run)
  /-- `OBUF`: the bytes written since the last reset (R34; log 18). -/
  obuf : List Host.Cell
  /-- The command in flight (R44). -/
  activity : Activity
  /-- Hidden state of the run scanner and count limiter (R50). -/
  scanner : Scanner cfg
  /-- Hidden state of the run expander (R51). -/
  expander : Expander cfg
  /-- Hidden state of the frame serializer (R52). -/
  serializer : Serializer cfg
  /-- Hidden state of the frame deserializer (R53). -/
  deserializer : Deserializer cfg
  /-- The host's program, with the points at which the block moves (R22, R37; log 3). -/
  program : List (Event cfg)
  /-- The stream driver's state (44_stream_drivers.md R204). -/
  driver : Driver
  /-- The source stream `S` (44_stream_drivers.md R200). -/
  source : List Byte
  /-- The read position in `S` (44_stream_drivers.md R200). -/
  sourcePos : Nat
  /-- The sink stream `T` (44_stream_drivers.md R200). -/
  sink : List Byte
  /-- Whether each coming read of the source fails; none listed means it does not (44_stream_drivers.md R200; log 13). -/
  readFails : List Bool
  /-- Whether each coming write of the sink fails, and after how many bytes; none listed means it does not
  (44_stream_drivers.md R200; log 13). -/
  writeFails : List (Option Nat)
  /-- The MODEL's own field: what the last host read of the program returned; the reads inside a command line and those
  of a running driver are not shown (log 15, log 4, log 14). -/
  resp : Option (Response cfg)
  /-- The MODEL's own field: how many draws were taken (10_state.md R36; log 7, log 15). -/
  draws : Nat
  /-- The MODEL's own field: how many times `HostReset` was performed (log 5, log 15). -/
  epoch : Nat
  deriving DecidableEq, Repr

/-- The state after power-on: the reset values of 10_state.md R48, and a host that has no program and empty streams
(log 2, log 27). -/
def State.powerOn {cfg : Config} : State cfg where
  ilen := 0#cfg.lenBits
  narg := 0#cfg.nargBits
  rcount := 0#cfg.lenBits
  olen := 0#cfg.olenBits
  busy := false
  err := 0#3
  errOff := 0#cfg.offBits
  errZero := false
  ibuf := []
  runbuf := []
  obuf := []
  activity := .idle
  scanner := {}
  expander := {}
  serializer := {}
  deserializer := {}
  program := []
  driver := .inactive
  source := []
  sourcePos := 0
  sink := []
  readFails := []
  writeFails := []
  resp := none
  draws := 0
  epoch := 0

/-- This hardware after power-on. -/
def State.reset : State := State.powerOn

/-- What a step of this machine answers. -/
abbrev Result (cfg : Config := Config.hardware) := Host.Outcome (State cfg) (Fault cfg) Refusal

end Sys2Proof.Machine
end

