-- ==== Sys2Proof/Machine/Flags.lean ====
section
/-! DEFINITION. The `STATUS` register: error codes and the packed word (10_state.md R23, R29). -/

namespace Sys2Proof.Machine

variable {cfg : Config}

/-- `ERR` = `NONE` (10_state.md R29). -/
def errNone : BitVec 3 := 0#3

/-- `ERR` = `MALFORMED_FRAME` (10_state.md R29). -/
def errMalformedFrame : BitVec 3 := 1#3

/-- `ERR` = `ILLEGAL_COMMAND` (10_state.md R29). -/
def errIllegalCommand : BitVec 3 := 2#3

/-- `STATUS` as one word, of 14 bits on this hardware: `ERR_ZERO` in bit 13, `ERR_OFF` in bits 12:4, `ERR` in bits 3:1,
`BUSY` in bit 0 (10_state.md R23; log 17; with an `ERR_OFF` of another width, log 29). -/
def State.statusWord (s : State cfg) : BitVec (1 + cfg.offBits + 3 + 1) :=
  BitVec.ofBool s.errZero ++ s.errOff ++ s.err ++ BitVec.ofBool s.busy

end Sys2Proof.Machine
end

