-- ==== Sys2Proof/Machine/Memory.lean ====
section
/-! DEFINITION. A buffer as a list of (index, entry) pairs, and the operations on it. An index that is not listed holds no
value the model specifies (log 18): `Operands.lean` gives its readers a free value. -/

namespace Sys2Proof.Machine

/-- A buffer of entries of type `α`; `Memory Byte` is a list of `Host.Cell`. -/
abbrev Memory (α : Type) := List (Nat × α)

/-- The canonical form: indices strictly rising. No entry can equal what an unlisted index reads as, since that is
no value. -/
abbrev Memory.wf {α : Type} (m : Memory α) : Prop := m.Pairwise (fun a b => a.1 < b.1)

/-- The entry at index `i`, if one is listed. -/
def Memory.get? {α : Type} : Memory α → Nat → Option α
  | [], _ => none
  | (j, v) :: rest, i => if j = i then some v else Memory.get? rest i

/-- `S[i] <- v` (00_scope.md R15). -/
def Memory.set {α : Type} : Memory α → Nat → α → Memory α
  | [], i, v => [(i, v)]
  | (j, u) :: rest, i, v =>
    if i < j then (i, v) :: (j, u) :: rest
    else if i = j then (i, v) :: rest
    else (j, u) :: Memory.set rest i v

/-- The entries `vs` at consecutive indices from `i`. -/
def Memory.cellsFrom {α : Type} : Nat → List α → Memory α
  | _, [] => []
  | i, v :: vs => (i, v) :: Memory.cellsFrom (i + 1) vs

/-- `MemWrite(S, 0, len(vs), vs)` (00_scope.md R15): every command writes its result from index 0. -/
def Memory.overwrite {α : Type} (m : Memory α) (vs : List α) : Memory α :=
  Memory.cellsFrom 0 vs ++ m.filter (fun c => decide (vs.length ≤ c.1))

end Sys2Proof.Machine
end

