-- ==== Sys2Proof/Machine/Operands.lean ====
section
/-! DEFINITION. The operands of the commands (30_encoding.md R83): the effective length, and the reads of `IBUF`, `RUNBUF`
and `OBUF`. -/

namespace Sys2Proof.Machine

variable {cfg : Config}

/-- The effective length `n = min(NARG, ILEN)` (10_state.md R25, 40_encoder.md R101, 43_parser.md R179). -/
def State.effLen (s : State cfg) : Nat := min s.narg.toNat s.ilen.toNat

/-- `IBUF[i]` as a command reads it: the byte the host wrote since reset, else the unspecified value the byte has held
since the reset (10_state.md R32; log 5). -/
def State.inByte (s : State cfg) (i : Nat) : Byte :=
  match Memory.get? s.ibuf i with
  | some v => v
  | none => Config.ibufAtReset s.epoch i

/-- `RUNBUF[k]` (10_state.md R33); a free value where nothing has been written since reset (log 6). -/
def State.runAt (s : State cfg) (k : Nat) : Run :=
  match Memory.get? s.runbuf k with
  | some r => r
  | none => { count := (Config.runbufAtReset s.epoch k).extractLsb' 8 8, byte := (Config.runbufAtReset s.epoch k).extractLsb' 0 8 }

/-- `OBUF[i]` (10_state.md R34); a free value where nothing has been written since reset (log 6). -/
def State.outByte (s : State cfg) (i : Nat) : Byte :=
  match Memory.get? s.obuf i with
  | some v => v
  | none => Config.obufAtReset s.epoch i

/-- `IBUF[0..n)`. -/
def State.inBytes (s : State cfg) (n : Nat) : List Byte := (List.range n).map s.inByte

/-- `RUNBUF[0..n)`. -/
def State.runs (s : State cfg) (n : Nat) : List Run := (List.range n).map s.runAt

/-- `OBUF[0..n)`. -/
def State.outBytes (s : State cfg) (n : Nat) : List Byte := (List.range n).map s.outByte

/-- `RUNBUF[0..RCOUNT)`, the runs `DECODE` and `SERIALIZE` read (30_encoding.md R83). -/
def State.validRuns (s : State cfg) : List Run := s.runs s.rcount.toNat

/-- `OBUF[0..OLEN)`, the bytes the host drains (44_stream_drivers.md R214). -/
def State.validOut (s : State cfg) : List Byte := s.outBytes s.olen.toNat

/-- `MemRead(IBUF, 0, n)` by a command: the indices must exist (20_memory.md R67, R68; log 11). -/
def State.readIn (s : State cfg) (n : Nat) : Except (Fault cfg) (List Byte) :=
  if n ≤ cfg.chunk then .ok (s.inBytes n) else .error (.blockIndexOutOfRange .ibuf (n - 1))

/-- `MemRead(RUNBUF, 0, RCOUNT)` by a command: the indices must exist (20_memory.md R67, R68; log 11). -/
def State.readRuns (s : State cfg) : Except (Fault cfg) (List Run) :=
  if s.rcount.toNat ≤ cfg.runCap then .ok s.validRuns
  else .error (.blockIndexOutOfRange .runbuf (s.rcount.toNat - 1))

/-- One beat's read of `IBUF[i]`. -/
def State.fetchIn (s : State cfg) (i : Nat) : Except (Fault cfg) Byte :=
  if i < cfg.chunk then .ok (s.inByte i) else .error (.blockIndexOutOfRange .ibuf i)

/-- One beat's read of `RUNBUF[k]`. -/
def State.fetchRun (s : State cfg) (k : Nat) : Except (Fault cfg) Run :=
  if k < cfg.runCap then .ok (s.runAt k) else .error (.blockIndexOutOfRange .runbuf k)

end Sys2Proof.Machine
end

