-- ==== Sys2Proof/Machine/Ops.lean ====
section
/-! DEFINITION. The shared operations: sequencing, the host's program and driver, accepting a command, completing it, raising an error, reset, and the
writes of results into the buffers. -/

namespace Sys2Proof.Machine

variable {cfg : Config}

/-- One operation after another: a fault or a refusal ends the sequence. -/
def andThen (r : Result cfg) (k : State cfg → Result cfg) : Result cfg :=
  match r with
  | .next s => k s
  | .fault f => .fault f
  | .refused e => .refused e

/-- A result of a buffer access used by the rest of an operation; a fault ends it. -/
def withValue {α : Type} (v : Except (Fault cfg) α) (k : α → Result cfg) : Result cfg :=
  match v with
  | .ok a => k a
  | .error f => .fault f

/-- The rest of the host's program (10_state.md R37). -/
def State.withProgram (s : State cfg) (p : List (Event cfg)) : State cfg := { s with program := p }

/-- The next state of the stream driver (44_stream_drivers.md R204). -/
def State.withDriver (s : State cfg) (d : Driver) : State cfg := { s with driver := d }

/-- The block accepts an issued word (10_state.md R44): `BUSY <- 1`, `cmd <- Decode(w)`, and the unit that will run is set
up as its realisation says "at issue" (40_encoder.md R112, 41_decoder.md R133, 42_serializer.md R152, 43_parser.md R176). -/
def State.accept (s : State cfg) (a : Activity) : State cfg :=
  { s with
    busy := true
    activity := a
    scanner := if a = .running .encode then { n := BitVec.ofNat cfg.lenBits s.effLen } else {}
    expander := {}
    serializer := {}
    deserializer := if a = .running .parse then { n := BitVec.ofNat cfg.lenBits s.effLen } else {} }

/-- Completion of a command: `BUSY <- 0` (10_state.md R28, R44), the hidden unit state idle (R50 to R53; log 9). -/
def State.retire (s : State cfg) : State cfg :=
  { s with busy := false, activity := .idle, scanner := {}, expander := {}, serializer := {}, deserializer := {} }

/-- TAKING AN ERROR: `raise E(info)` (60_exceptions.md R232, R236). It writes the code and the info and completes; a
command's own failure effect is applied by the command. There is no return from an error (R233): only `State.resetBlock`
clears it. -/
def State.raise (s : State cfg) (e : BitVec 3) (off : BitVec cfg.offBits) (zero : Bool) : State cfg :=
  { s with err := e, errOff := off, errZero := zero }.retire

/-- `HostReset` (10_state.md R46, R48, 70_reset_and_hazards.md R260): every register 0, the hidden unit state idle, a command
in progress abandoned, and the buffers unspecified anew (log 21). The host's own state stays (log 16). -/
def State.resetBlock (s : State cfg) : State cfg :=
  { s with
    ilen := 0#cfg.lenBits
    narg := 0#cfg.nargBits
    rcount := 0#cfg.lenBits
    olen := 0#cfg.olenBits
    busy := false
    err := errNone
    errOff := 0#cfg.offBits
    errZero := false
    ibuf := []
    runbuf := []
    obuf := []
    activity := .idle
    scanner := {}
    expander := {}
    serializer := {}
    deserializer := {}
    epoch := s.epoch + 1 }

/-- `RUNBUF[k] <- runs[k]` for each run, and `RCOUNT <- len(runs)` (40_encoder.md R100, R108, 43_parser.md R170). -/
def State.writeRuns (s : State cfg) (runs : List Run) : Except (Fault cfg) (State cfg) :=
  if runs.length ≤ cfg.runCap then
    .ok { s with runbuf := Memory.overwrite s.runbuf runs, rcount := BitVec.ofNat cfg.lenBits runs.length }
  else .error (.blockIndexOutOfRange .runbuf (runs.length - 1))

/-- `OBUF[i] <- out[i]` for each byte, and `OLEN <- len(out)` (41_decoder.md R130, R136, 42_serializer.md R150, R155). -/
def State.writeOut (s : State cfg) (out : List Byte) : Except (Fault cfg) (State cfg) :=
  if out.length ≤ cfg.obufCap then
    .ok { s with obuf := Memory.overwrite s.obuf out, olen := BitVec.ofNat cfg.olenBits out.length }
  else .error (.blockIndexOutOfRange .obuf (out.length - 1))

/-- One beat's `RUNBUF[k] <- r`. -/
def State.storeRun (s : State cfg) (k : Nat) (r : Run) : Except (Fault cfg) (State cfg) :=
  if k < cfg.runCap then .ok { s with runbuf := Memory.set s.runbuf k r }
  else .error (.blockIndexOutOfRange .runbuf k)

/-- One beat's `OBUF[i] <- v`. -/
def State.storeOut (s : State cfg) (i : Nat) (v : Byte) : Except (Fault cfg) (State cfg) :=
  if i < cfg.obufCap then .ok { s with obuf := Memory.set s.obuf i v }
  else .error (.blockIndexOutOfRange .obuf i)

end Sys2Proof.Machine
end

