-- ==== Sys2Proof/Machine/Deserializer.lean ====
section
/-! DEFINITION. `PARSE`, the 2-byte frame deserializer (43_parser.md). -/

namespace Sys2Proof.Machine

variable {cfg : Config}

/-- What a failed parse reports: the offset of the failing frame's count byte, and whether that frame is complete with
count 0 (43_parser.md R171). -/
structure FrameError where
  off : Nat
  zero : Bool
  deriving DecidableEq, Repr

/-- `frames_parse` from the offset `off` on: within a frame the missing paired byte is looked for before the zero count, and
frames are taken in offset order (43_parser.md R171, R173, R174, R177). -/
def framesParseFrom (off : Nat) : List Byte → Except FrameError (List Run)
  | [] => .ok []
  | [_] => .error { off := off, zero := false }
  | c :: b :: rest =>
    if c = 0#8 then .error { off := off, zero := true }
    else
      match framesParseFrom (off + 2) rest with
      | .ok runs => .ok ({ count := c, byte := b } :: runs)
      | .error e => .error e

/-- `frames_parse(xs)` (43_parser.md R171). -/
def framesParse (xs : List Byte) : Except FrameError (List Run) := framesParseFrom 0 xs

/-- The effect of a failed `PARSE` (43_parser.md R175): MalformedFrame with the offset and the cause, `RCOUNT <- 0`, and
`RUNBUF` entries left unspecified (log 8). -/
def State.failParse (s : State cfg) (off : Nat) (zero : Bool) : State cfg :=
  { s with rcount := 0#cfg.lenBits, runbuf := [] }.raise errMalformedFrame (BitVec.ofNat cfg.offBits off) zero

/-- `PARSE`, applied at completion (43_parser.md R170). -/
def execParse (s : State cfg) : Result cfg :=
  withValue (s.readIn s.effLen) fun xs =>
    match framesParse xs with
    | .ok runs => withValue (s.writeRuns runs) fun t => .next t.retire
    | .error e => .next (s.failParse e.off e.zero)

/-- One beat of the frame deserializer (43_parser.md R176). -/
def beatParse (s : State cfg) : Result cfg :=
  let u := s.deserializer
  if u.pos < u.n then
    withValue (s.fetchIn u.pos.toNat) fun v =>
      if u.half then
        -- case (2): the paired byte
        if u.cnt = 0#8 then .next (s.failParse (u.pos.toNat - 1) true)
        else
          withValue (s.storeRun u.k.toNat { count := u.cnt, byte := v }) fun t =>
            .next { t with deserializer := { u with k := u.k + 1#cfg.lenBits, pos := u.pos + 1#cfg.lenBits, half := false } }
      else
        -- case (1): the count byte
        .next { s with deserializer := { u with cnt := v, pos := u.pos + 1#cfg.lenBits, half := true } }
  else if u.half then
    -- case (3), no paired byte
    .next (s.failParse (u.pos.toNat - 1) false)
  else
    -- case (3), all frames are read
    .next { s with rcount := u.k }.retire

end Sys2Proof.Machine
end

