-- ==== Sys2Proof/Machine/Encoder.lean ====
section
/-! DEFINITION. `ENCODE`, the run scanner and count limiter (40_encoder.md). -/

namespace Sys2Proof.Machine

variable {cfg : Config}

/-- The rest of the encoding of a chunk when a run `(c, b)` is open: extend it "while the next byte equals the run's byte
AND the run length is below 255", else close it and start a new run at the current position (40_encoder.md R102 to R104). -/
def rleFrom (c : BitVec 8) (b : Byte) : List Byte → List Run
  | [] => [{ count := c, byte := b }]
  | x :: xs =>
    if x = b ∧ c < 255#8 then rleFrom (c + 1#8) b xs
    else { count := c, byte := b } :: rleFrom 1#8 x xs

/-- `rle_encode(xs)` (40_encoder.md R102, R105). -/
def rleEncode : List Byte → List Run
  | [] => []
  | x :: xs => rleFrom 1#8 x xs

/-- `ENCODE`, applied at completion (40_encoder.md R100). -/
def execEncode (s : State cfg) : Result cfg :=
  withValue (s.readIn s.effLen) fun xs =>
    withValue (s.writeRuns (rleEncode xs)) fun t => .next t.retire

/-- One beat of the run scanner and count limiter (40_encoder.md R112). -/
def beatEncode (s : State cfg) : Result cfg :=
  let u := s.scanner
  if u.pos < u.n then
    withValue (s.fetchIn u.pos.toNat) fun v =>
      if u.cnt = 0#8 then
        -- case (1): open a run
        .next { s with scanner := { u with byte := v, cnt := 1#8, pos := u.pos + 1#cfg.lenBits } }
      else if v = u.byte ∧ u.cnt < 255#8 then
        -- case (2): extend it
        .next { s with scanner := { u with cnt := u.cnt + 1#8, pos := u.pos + 1#cfg.lenBits } }
      else
        -- case (3): close it, the byte is not consumed
        withValue (s.storeRun u.k.toNat { count := u.cnt, byte := u.byte }) fun t =>
          .next { t with scanner := { u with k := u.k + 1#cfg.lenBits, cnt := 0#8 } }
  else if u.cnt = 0#8 then
    -- case (4), no run is open
    .next { s with rcount := u.k }.retire
  else
    -- case (4), the last run is open
    withValue (s.storeRun u.k.toNat { count := u.cnt, byte := u.byte }) fun t =>
      .next { t with rcount := u.k + 1#cfg.lenBits }.retire

end Sys2Proof.Machine
end

