-- ==== Sys2Proof/Machine/Expander.lean ====
section
/-! DEFINITION. `DECODE`, the run expander (41_decoder.md). -/

namespace Sys2Proof.Machine

variable {cfg : Config}

/-- `rle_decode(runs)`: each run's byte exactly `count` times, in run order (41_decoder.md R131). -/
def rleDecode (runs : List Run) : List Byte :=
  runs.flatMap fun r => List.replicate r.count.toNat r.byte

/-- `DECODE`, applied at completion (41_decoder.md R130). -/
def execDecode (s : State cfg) : Result cfg :=
  withValue s.readRuns fun runs =>
    withValue (s.writeOut (rleDecode runs)) fun t => .next t.retire

/-- One beat of the run expander (41_decoder.md R133). A count of 0 would stay in case (1) for ever (R134); no run in
`RUNBUF[0..RCOUNT)` has one (10_state.md R33). -/
def beatDecode (s : State cfg) : Result cfg :=
  let u := s.expander
  if u.rem = 0#8 then
    if u.idx < s.rcount then
      -- case (1): load a run
      withValue (s.fetchRun u.idx.toNat) fun r =>
        .next { s with expander := { u with rem := r.count } }
    else
      -- case (3): all runs are expanded
      .next { s with olen := u.opos }.retire
  else
    -- case (2): emit one copy
    withValue (s.fetchRun u.idx.toNat) fun r =>
      withValue (s.storeOut u.opos.toNat r.byte) fun t =>
        .next { t with expander :=
          { idx := if u.rem = 1#8 then u.idx + 1#cfg.lenBits else u.idx, rem := u.rem - 1#8, opos := u.opos + 1#cfg.olenBits } }

end Sys2Proof.Machine
end

