-- ==== Sys2Proof/Machine/Serializer.lean ====
section
/-! DEFINITION. `SERIALIZE`, the 2-byte frame serializer (42_serializer.md). -/

namespace Sys2Proof.Machine

variable {cfg : Config}

/-- `frames_serialize(runs)`: two bytes for each run, the count first (42_serializer.md R151, 20_memory.md R60). -/
def framesSerialize (runs : List Run) : List Byte :=
  runs.flatMap fun r => [r.count, r.byte]

/-- `SERIALIZE`, applied at completion (42_serializer.md R150). -/
def execSerialize (s : State cfg) : Result cfg :=
  withValue s.readRuns fun runs =>
    withValue (s.writeOut (framesSerialize runs)) fun t => .next t.retire

/-- One beat of the frame serializer (42_serializer.md R152). -/
def beatSerialize (s : State cfg) : Result cfg :=
  let u := s.serializer
  if u.idx < s.rcount then
    withValue (s.fetchRun u.idx.toNat) fun r =>
      if u.half then
        -- case (2): the byte value
        withValue (s.storeOut (2 * u.idx.toNat + 1) r.byte) fun t =>
          .next { t with serializer := { idx := u.idx + 1#cfg.lenBits, half := false } }
      else
        -- case (1): the count byte
        withValue (s.storeOut (2 * u.idx.toNat) r.count) fun t =>
          .next { t with serializer := { u with half := true } }
  else
    -- case (3): all runs are written
    .next { s with olen := BitVec.ofNat cfg.olenBits (2 * s.rcount.toNat) }.retire

end Sys2Proof.Machine
end

