-- ==== Sys2Proof/Decode.lean ====
section
/-! DEFINITION. Decoding and encoding of command words (30_encoding.md R80, R81, R85 to R87). -/

namespace Sys2Proof

/-- Why a word is no command (30_encoding.md R86). -/
inductive DecodeError where
  /-- `RSV` is not 00000: illegal whatever `OP` is (R81). -/
  | reservedBits
  /-- `OP` is 000, 101, 110 or 111 (R85). -/
  | reservedOpcode
  /-- There is no byte to decode. -/
  | noWord
  deriving DecidableEq, Repr

/-- The command selector, bits 2:0 (30_encoding.md R81). -/
def opField (w : Byte) : BitVec 3 := w.extractLsb' 0 3

/-- The reserved bits, bits 7:3 (30_encoding.md R81). -/
def rsvField (w : Byte) : BitVec 5 := w.extractLsb' 3 5

/-- The decoder of 30_encoding.md R85, total on all 256 words. -/
def decodeWord (w : Byte) : Except DecodeError Instr :=
  if rsvField w ≠ 0b00000#5 then .error .reservedBits
  else if opField w = 0b001#3 then .ok .encode
  else if opField w = 0b010#3 then .ok .decode
  else if opField w = 0b011#3 then .ok .serialize
  else if opField w = 0b100#3 then .ok .parse
  else .error .reservedOpcode

/-- Decoding the first command of a list of bytes, with the rest: every command word is one byte
(30_encoding.md R88). -/
def decode : List Byte → Except DecodeError (Instr × List Byte)
  | [] => .error .noWord
  | w :: rest =>
    match decodeWord w with
    | .ok i => .ok (i, rest)
    | .error e => .error e

/-- The `OP` value of each command (30_encoding.md R87). -/
def opcode : Instr → BitVec 3
  | .encode => 0b001#3
  | .decode => 0b010#3
  | .serialize => 0b011#3
  | .parse => 0b100#3

/-- The command word of each command: `RSV` = 00000 above `OP` (30_encoding.md R81, R87). -/
def encode (i : Instr) : Byte := 0b00000#5 ++ opcode i

/-- The command our decoder reads from a word numbered as the opcode table numbers it. -/
def decodeTableWord (nbits w : Nat) : Option Instr :=
  match decode [BitVec.ofNat 8 (w % 2 ^ nbits)] with
  | .ok (i, _) => some i
  | .error _ => none

end Sys2Proof
end

