-- ==== Sys2Proof/Machine/Commands.lean ====
section
/-! DEFINITION. The four commands of a machine of any configuration. -/

namespace Sys2Proof.Machine

variable {cfg : Config}

/-- The effect of a command at completion, on the state as it was at issue (10_state.md R44), for every configuration
(00_scope.md R10). `exec` is this effect on this hardware. -/
def execAt (i : Instr) (s : State cfg) : Result cfg :=
  match i with
  | .encode => execEncode s
  | .decode => execDecode s
  | .serialize => execSerialize s
  | .parse => execParse s

end Sys2Proof.Machine
end

