-- ==== Sys2Proof/Machine/HostOps.lean ====
section
/-! DEFINITION. The host operations (10_state.md R40 to R47), the completion of a command, and one beat of the block. -/

namespace Sys2Proof.Machine

variable {cfg : Config}

/-- What an issued word makes the block do (10_state.md R44, 30_encoding.md R85). -/
def activityOf (w : Byte) : Activity :=
  match decodeWord w with
  | .ok i => .running i
  | .error _ => .illegal

/-- `HostIssue(w)` (10_state.md R44, 60_exceptions.md R235): a model fault while `BUSY = 1`, ignored before the word is
decoded while `ERR` is set, else accepted. -/
def hostIssue (w : Byte) (s : State cfg) : Result cfg :=
  if s.busy then .fault (.hostIssueWhileBusy (.issue w))
  else if s.err ≠ errNone then .next s
  else .next (s.accept (activityOf w))

/-- Completion of the command in flight (10_state.md R44): an illegal word sets `ERR` (30_encoding.md R86, log 22), a command
has its effect. `BUSY = 1` with nothing in flight is reached by no run; it just ends (log 25). -/
def completeCommand (s : State cfg) : Result cfg :=
  match s.activity with
  | .running i => execAt i s
  | .illegal => .next (s.raise errIllegalCommand 0#cfg.offBits false)
  | .idle => .next s.retire

/-- `HostIssue(w)` and the wait for `BUSY = 0`, which every command line of a program includes (30_encoding.md R89); issue
and completion are fused into one step, as 10_state.md R44 allows (log 4). -/
def hostCommand (w : Byte) (s : State cfg) : Result cfg :=
  andThen (hostIssue w s) fun t => if t.busy then completeCommand t else .next t

/-- One beat of the unit that runs the command in flight. With `BUSY = 0` the block does nothing (60_exceptions.md R245).
MODEL'S CHOICE (log 10, DESIGN CHOICE): an accepted illegal word completes at its first beat. 10_state.md R28 and R44 leave the
number of its block steps open, and the spec gives no realisation in beats for it. The case of nothing in flight is log 25. -/
def blockBeat (s : State cfg) : Result cfg :=
  if s.busy then
    match s.activity with
    | .running .encode => beatEncode s
    | .running .decode => beatDecode s
    | .running .serialize => beatSerialize s
    | .running .parse => beatParse s
    | .illegal => completeCommand s
    | .idle => completeCommand s
  else .next s

/-- The block completes the command in flight, if there is one. -/
def blockComplete (s : State cfg) : Result cfg :=
  if s.busy then completeCommand s else .next s

/-- A host read answers a specified value. -/
def State.answer (s : State cfg) (r : Response cfg) : State cfg := { s with resp := some r }

/-- A host read answers a fresh draw (10_state.md R36, R47; log 7). -/
def State.answerDraw (s : State cfg) (r : Nat → Response cfg) : State cfg :=
  { s with resp := some (r s.draws), draws := s.draws + 1 }

/-- `HostReadStatus()` (10_state.md R45, R47, 20_memory.md R65): while `BUSY = 1` only `BUSY` itself is specified, and the three
other fields are the draws of their widths with one number. MODEL'S CHOICE (log 7, DESIGN CHOICE): where `ERR_OFF` has the
width 3 of `ERR` (a `CHUNK` of at most 8) or the width 1 of `ERR_ZERO` (a `CHUNK` of 2), the two fields of that width are the
same draw. On this hardware the widths are 3, 9 and 1, and the three draws are separate. -/
def hostReadStatus (s : State cfg) : State cfg :=
  if s.busy then
    s.answerDraw fun k => .status true (Config.draw 3 k) (Config.draw cfg.offBits k) ((Config.draw 1 k).getLsbD 0)
  else s.answer (.status false s.err s.errOff s.errZero)

/-- `HostReadIn(i)` (10_state.md R45): a draw for a byte not written since reset (R36; log 20). -/
def hostReadIn (i : Nat) (s : State cfg) : State cfg :=
  match s.busy, Memory.get? s.ibuf i with
  | false, some v => s.answer (.inByte v)
  | _, _ => s.answerDraw fun k => .inByte (Config.draw 8 k)

/-- `HostReadRun(k)` (10_state.md R45): a draw outside `RUNBUF[0..RCOUNT)` (R36). -/
def hostReadRun (i : Nat) (s : State cfg) : State cfg :=
  if s.busy = false ∧ i < s.rcount.toNat then s.answer (.run (s.runAt i))
  else s.answerDraw fun k =>
    .run { count := (Config.draw 16 k).extractLsb' 8 8, byte := (Config.draw 16 k).extractLsb' 0 8 }

/-- `HostReadOut(i)` (10_state.md R45): a draw outside `OBUF[0..OLEN)` (R36). -/
def hostReadOut (i : Nat) (s : State cfg) : State cfg :=
  if s.busy = false ∧ i < s.olen.toNat then s.answer (.outByte (s.outByte i))
  else s.answerDraw fun k => .outByte (Config.draw 8 k)

/-- `HostReadLen()` (10_state.md R45). -/
def hostReadLen (s : State cfg) : State cfg :=
  if s.busy then s.answerDraw fun k => .len (Config.draw cfg.lenBits k) else s.answer (.len s.ilen)

/-- `HostReadN()` (10_state.md R45). -/
def hostReadN (s : State cfg) : State cfg :=
  if s.busy then s.answerDraw fun k => .n (Config.draw cfg.nargBits k) else s.answer (.n s.narg)

/-- `HostReadRCount()` (10_state.md R45). -/
def hostReadRCount (s : State cfg) : State cfg :=
  if s.busy then s.answerDraw fun k => .rcount (Config.draw cfg.lenBits k) else s.answer (.rcount s.rcount)

/-- `HostReadOLen()` (10_state.md R45). -/
def hostReadOLen (s : State cfg) : State cfg :=
  if s.busy then s.answerDraw fun k => .olen (Config.draw cfg.olenBits k) else s.answer (.olen s.olen)

/-- `HostWriteIn(i, v)` (10_state.md R41). -/
def hostWriteIn (i : Nat) (v : Byte) (s : State cfg) : Result cfg :=
  if s.busy then .fault (.hostWriteWhileBusy (.writeIn i v))
  else if cfg.chunk ≤ i then .fault (.hostIndexOutOfRange (.writeIn i v))
  else .next { s with ibuf := Memory.set s.ibuf i v }

/-- `HostSetLen(len)` (10_state.md R42). -/
def hostSetLen (len : Nat) (s : State cfg) : Result cfg :=
  if s.busy then .fault (.hostWriteWhileBusy (.setLen len))
  else if cfg.chunk < len then .fault (.hostLenTooLarge (.setLen len))
  else .next { s with ilen := BitVec.ofNat cfg.lenBits len }

/-- `HostSetN(n)` (10_state.md R43). -/
def hostSetN (n : BitVec cfg.nargBits) (s : State cfg) : Result cfg :=
  if s.busy then .fault (.hostWriteWhileBusy (.setN n)) else .next { s with narg := n }

/-- The host operations (10_state.md R40). -/
def hostOp (op : HostOp cfg) (s : State cfg) : Result cfg :=
  match op with
  | .reset => .next s.resetBlock
  | .writeIn i v => hostWriteIn i v s
  | .setLen len => hostSetLen len s
  | .setN n => hostSetN n s
  | .issue w => hostIssue w s
  | .readStatus => .next (hostReadStatus s)
  | .readIn i => .next (hostReadIn i s)
  | .readRun k => .next (hostReadRun k s)
  | .readOut i => .next (hostReadOut i s)
  | .readLen => .next (hostReadLen s)
  | .readN => .next (hostReadN s)
  | .readRCount => .next (hostReadRCount s)
  | .readOLen => .next (hostReadOLen s)

/-- `WRITE i, b0; WRITE i+1, b1; ...` (30_encoding.md R90). -/
def writeBytes : Nat → List Byte → State cfg → Result cfg
  | _, [], s => .next s
  | i, b :: bs, s => andThen (hostWriteIn i b s) fun t => writeBytes (i + 1) bs t

/-- The pseudo-instruction `LOAD` (30_encoding.md R90): the writes, `SETLEN m`, `SETN m`. -/
def loadChunk (bytes : List Byte) (s : State cfg) : Result cfg :=
  andThen (writeBytes 0 bytes s) fun t =>
    andThen (hostSetLen bytes.length t) fun u => hostSetN (BitVec.ofNat cfg.nargBits bytes.length) u

end Sys2Proof.Machine
end

