-- ==== Sys2Proof/Machine/Drivers.lean ====
section
/-! DEFINITION. The host procedures `performEncoding` and `performDecoding` (44_stream_drivers.md), the host's
program, and one step of the machine of any configuration. -/

namespace Sys2Proof.Machine

variable {cfg : Config}

/-- A driver that has been invoked and has not returned (44_stream_drivers.md R204). -/
def Driver.running : Driver → Bool
  | .inactive => false
  | .reading _ => true
  | .working _ _ => true
  | .writing _ => true
  | .finished _ => false

/-- The bytes the next successful read of the source returns: `min(CHUNK, remaining)` of them
(44_stream_drivers.md R200; log 13). -/
def State.nextChunk (s : State cfg) : List Byte := (s.source.drop s.sourcePos).take cfg.chunk

/-- Reading (44_stream_drivers.md R202, R203, R204): a failed read ends the invocation with InputStreamError (R205), a read of
zero bytes ends it with `Ok`, and any other is the chunk to work on. -/
def driverRead (d : Direction) (s : State cfg) : Result cfg :=
  match s.readFails with
  | true :: rest => .next { s with readFails := rest, driver := .finished .inputStreamError }
  | fails =>
    if s.nextChunk = [] then .next { s with readFails := fails.tail, driver := .finished .ok }
    else
      .next { s with
        readFails := fails.tail
        sourcePos := s.sourcePos + s.nextChunk.length
        driver := .working d s.nextChunk }

/-- Encoding (44_stream_drivers.md R202 to R204): `LOAD`, then `ENCODE` and `SERIALIZE`; for decoding, `PARSE`, which ends the
invocation with MalformedFrame when `ERR = 1` (R206), and `DECODE`. MODEL'S CHOICE (log 14, DESIGN CHOICE): the read of `ERR` is
of the state, and is not shown in `resp`. -/
def driverWork (d : Direction) (chunk : List Byte) (s : State cfg) : Result cfg :=
  andThen (loadChunk chunk s) fun t =>
    match d with
    | .encoding =>
      andThen (hostCommand (encode .encode) t) fun u =>
        andThen (hostCommand (encode .serialize) u) fun v =>
          .next (v.withDriver (.writing .encoding))
    | .decoding =>
      andThen (hostCommand (encode .parse) t) fun u =>
        if u.err = errMalformedFrame then .next (u.withDriver (.finished .malformedFrame))
        else
          andThen (hostCommand (encode .decode) u) fun v =>
            .next (v.withDriver (.writing .decoding))

/-- Writing (44_stream_drivers.md R200, R202, R203): `OBUF[0..OLEN)` goes to the sink; a failed write leaves some prefix of it
there and ends the invocation with OutputStreamError (R205, R207). MODEL'S CHOICE (log 14, DESIGN CHOICE): the reads of `OLEN` and
`OBUF[0..OLEN)` that the host drains with (R214) are of the state, and are not shown in `resp`, which keeps its older answer. -/
def driverWrite (d : Direction) (s : State cfg) : Result cfg :=
  match s.writeFails with
  | some k :: rest =>
    .next { s with writeFails := rest, sink := s.sink ++ s.validOut.take k, driver := .finished .outputStreamError }
  | fails => .next { s with writeFails := fails.tail, sink := s.sink ++ s.validOut, driver := .reading d }

/-- One step of the driver's state machine (44_stream_drivers.md R204; log 14). -/
def driverStep (s : State cfg) : Result cfg :=
  match s.driver with
  | .reading d => driverRead d s
  | .working d chunk => driverWork d chunk s
  | .writing d => driverWrite d s
  | .inactive => .next s
  | .finished _ => .next s

/-- The head of the program, already taken off it. -/
def runEvent (e : Event cfg) (s : State cfg) : Result cfg :=
  match e with
  | .host op => hostOp op s
  | .command w => hostCommand w s
  -- `WAIT` polls until `BUSY = 0` (30_encoding.md R89): while it is 1 the block completes and the line stays.
  | .wait => if s.busy then completeCommand (s.withProgram (.wait :: s.program)) else .next (hostReadStatus s)
  | .load bytes => loadChunk bytes s
  | .compress => .next (s.withProgram (.command (encode .encode) :: .command (encode .serialize) :: s.program))
  | .decompress => .next (s.withProgram (.command (encode .parse) :: .command (encode .decode) :: s.program))
  -- An invocation starts with `RESET` (44_stream_drivers.md R212).
  | .perform d => .next (s.resetBlock.withDriver (.reading d))
  | .beat => blockBeat s
  | .complete => blockComplete s

/-- What happens when the host has nothing more to do: a command in flight completes (10_state.md R28), and with `BUSY = 0`
the block does nothing (60_exceptions.md R245, 44_stream_drivers.md R213). -/
def hostIdle (s : State cfg) : Result cfg := blockComplete s

/-- One step, for every configuration: a driver that has been invoked moves on; else the head of the host's program happens;
else nothing is left to do (log 2, log 3). -/
def stepAt (s : State cfg) : Result cfg :=
  if s.driver.running then driverStep s
  else
    match s.program with
    | [] => hostIdle s
    | e :: rest => runEvent e (s.withProgram rest)

/-- The machine of a configuration (00_scope.md R10); `Sys2Proof.core` is the one of this hardware. -/
def coreAt (cfg : Config) : Host.Core where
  State := State cfg
  Fault := Fault cfg
  Refusal := Refusal
  step := stepAt
  reset := State.powerOn

end Sys2Proof.Machine
end

