-- ==== Sys2Proof/Machine/Step.lean ====
section
/-! DEFINITION. One step of the machine, and the placing of a command where the next step takes it. -/

namespace Sys2Proof.Machine

/-- One step of this hardware: the step of `Drivers.lean` in the configuration of this hardware, where a command that
completes has the effect `exec` gives it (`exec_eq_execAt` in `Laws/Exec.lean`). -/
def step (s : State) : Host.Outcome State Fault Refusal := stepAt s

/-- `s` with the command line of a word at the head of the host's program, and no driver running, so that the next step
issues and runs it (log 2). -/
def State.withFetchWord (s : State) (nbits w : Nat) : State :=
  (s.withProgram (.command (BitVec.ofNat 8 (w % 2 ^ nbits)) :: s.program)).withDriver .inactive

end Sys2Proof.Machine
end

