-- ==== Sys2Proof/WellFormed.lean ====
section
/-! DEFINITION. The checks on the model's terms: runs, commands, host operations and program entries. The check on a
configuration, `Params.wf`, stands in `Config.lean`, since a `Config` carries it. -/

namespace Sys2Proof

/-- A run holds a count of 1 to 255 (00_scope.md R11, R17): the width bounds it above. -/
def Run.wf (r : Run) : Bool := decide (r.count ≠ 0#8)

/-- Every command is well formed: it has no field that could be ill formed (30_encoding.md R83). -/
def Instr.wf : Instr → Bool
  | .encode => true
  | .decode => true
  | .serialize => true
  | .parse => true

/-- The index and length bounds whose violation is a model fault (10_state.md R41, R42). -/
def Machine.HostOp.wf {cfg : Config} : Machine.HostOp cfg → Bool
  | .writeIn i _ => decide (i < cfg.chunk)
  | .setLen len => decide (len ≤ cfg.chunk)
  | .reset => true
  | .setN _ => true
  | .issue _ => true
  | .readStatus => true
  | .readIn _ => true
  | .readRun _ => true
  | .readOut _ => true
  | .readLen => true
  | .readN => true
  | .readRCount => true
  | .readOLen => true

/-- A program entry keeps the bounds of its operations; `LOAD` requires `m <= CHUNK` (30_encoding.md R90). -/
def Machine.Event.wf {cfg : Config} : Machine.Event cfg → Bool
  | .host op => op.wf
  | .load bytes => decide (bytes.length ≤ cfg.chunk)
  | .command _ => true
  | .wait => true
  | .compress => true
  | .decompress => true
  | .perform _ => true
  | .beat => true
  | .complete => true

end Sys2Proof
end

