-- ==== Sys2Proof/Safety.lean ====
section
/-! DEFINITION. The terms claims are made in: what an operation leaves unchanged, runs of beats, the invariant of the
machine, and the faults the host causes. -/

namespace Sys2Proof.Machine

variable {cfg : Config}

/-! ### Frames -/

/-- What only the host writes: `IBUF`, `ILEN`, `NARG` (10_state.md R24, R25, R32), and the number of resets. -/
def SameInput (s t : State cfg) : Prop :=
  t.ibuf = s.ibuf ∧ t.ilen = s.ilen ∧ t.narg = s.narg ∧ t.epoch = s.epoch

/-- `RUNBUF` and `RCOUNT` (10_state.md R26, R33). -/
def SameRuns (s t : State cfg) : Prop := t.runbuf = s.runbuf ∧ t.rcount = s.rcount

/-- `OBUF` and `OLEN` (10_state.md R27, R34). -/
def SameOut (s t : State cfg) : Prop := t.obuf = s.obuf ∧ t.olen = s.olen

/-- `ERR`, `ERR_OFF`, `ERR_ZERO` (10_state.md R29 to R31). -/
def SameError (s t : State cfg) : Prop := t.err = s.err ∧ t.errOff = s.errOff ∧ t.errZero = s.errZero

/-- The host's program, driver and streams (10_state.md R37, 44_stream_drivers.md R200). -/
def SameHost (s t : State cfg) : Prop :=
  t.program = s.program ∧ t.driver = s.driver ∧ t.source = s.source ∧ t.sourcePos = s.sourcePos ∧ t.sink = s.sink ∧
    t.readFails = s.readFails ∧ t.writeFails = s.writeFails

/-- What the last host read returned, and the number of draws. -/
def SameAnswer (s t : State cfg) : Prop := t.resp = s.resp ∧ t.draws = s.draws

/-- No command in flight: `BUSY = 0` and the hidden unit state idle (10_state.md R28, R48, R50 to R53). -/
def UnitsIdle (s : State cfg) : Prop :=
  s.busy = false ∧ s.activity = .idle ∧ s.scanner = {} ∧ s.expander = {} ∧ s.serializer = {} ∧ s.deserializer = {}

/-- The command in flight and the hidden unit state. -/
def SameUnits (s t : State cfg) : Prop :=
  t.busy = s.busy ∧ t.activity = s.activity ∧ t.scanner = s.scanner ∧ t.expander = s.expander ∧
    t.serializer = s.serializer ∧ t.deserializer = s.deserializer

/-- Everything in the block (10_state.md R21 to R34, R50 to R53). -/
def SameBlock (s t : State cfg) : Prop :=
  SameInput s t ∧ SameRuns s t ∧ SameOut s t ∧ SameError s t ∧ SameUnits s t

/-- The block accepts a command (10_state.md R44, 70_reset_and_hazards.md R261). -/
def Ready (s : State cfg) : Prop := s.busy = false ∧ s.err = errNone

/-! ### Runs of beats -/

/-- `k` beats of the block, stopping at a fault. -/
def beats : Nat → State cfg → Result cfg
  | 0, s => .next s
  | k + 1, s => andThen (blockBeat s) (beats k)

/-- The sum of the counts of a list of runs (10_state.md R35). -/
def runSum (runs : List Run) : Nat := (runs.map fun r => r.count.toNat).sum

/-! ### The invariant -/

/-- The registers hold values of their ranges (00_scope.md R13, 10_state.md R24, R26, R27). -/
structure RegistersLegal (s : State cfg) : Prop where
  ilen_le : s.ilen.toNat ≤ cfg.chunk
  rcount_le : s.rcount.toNat ≤ cfg.runCap
  olen_le : s.olen.toNat ≤ cfg.obufCap

/-- `STATUS` holds what 10_state.md R28 to R31 allow: no reserved error code, an offset and a cause only with
MalformedFrame, the offset that of a frame (20_memory.md R62), and no command in flight while an error is set (R44). -/
structure StatusLegal (s : State cfg) : Prop where
  err_le : s.err.toNat ≤ 2
  info : s.err ≠ errMalformedFrame → s.errOff = 0#cfg.offBits ∧ s.errZero = false
  off_even : s.errOff.toNat % 2 = 0
  busy_err : s.busy = true → s.err = errNone

/-- The buffers are in canonical form and hold no index they do not have (20_memory.md R67). The form is the
model's choice (log 18, DESIGN CHOICE). -/
structure BuffersLegal (s : State cfg) : Prop where
  ibuf_wf : Memory.wf s.ibuf
  runbuf_wf : Memory.wf s.runbuf
  obuf_wf : Memory.wf s.obuf
  ibuf_lt : ∀ c ∈ s.ibuf, c.1 < cfg.chunk
  runbuf_lt : ∀ c ∈ s.runbuf, c.1 < cfg.runCap
  obuf_lt : ∀ c ∈ s.obuf, c.1 < cfg.obufCap

/-- Every entry of `RUNBUF[0..RCOUNT)` was written and holds a count of 1 to 255 (10_state.md R33), every byte of
`OBUF[0..OLEN)` was written (R34), and the runs expand to no more than `OBUF` holds (R34, R35). That an entry of `RUNBUF` at or
above `RCOUNT` has such a count too is the model's choice (log 8, DEDUCED). -/
structure ContentsLegal (s : State cfg) : Prop where
  counts : ∀ c ∈ s.runbuf, c.2.wf = true
  runs_listed : ∀ k < s.rcount.toNat, (Memory.get? s.runbuf k).isSome = true
  out_listed : ∀ i < s.olen.toNat, (Memory.get? s.obuf i).isSome = true
  sum_le : s.activity ≠ .running .encode → s.activity ≠ .running .parse → runSum s.validRuns ≤ cfg.obufCap

/-- The run scanner in mid-command (40_encoder.md R112, R113). -/
structure ScannerLegal (s : State cfg) : Prop where
  n_eq : s.scanner.n.toNat = s.effLen
  pos_le : s.scanner.pos.toNat ≤ s.effLen
  k_le : s.scanner.k.toNat + (if s.scanner.cnt = 0#8 then 0 else 1) ≤ s.scanner.pos.toNat
  listed : ∀ k < s.scanner.k.toNat, (Memory.get? s.runbuf k).isSome = true
  sum_eq : runSum (s.runs s.scanner.k.toNat) + s.scanner.cnt.toNat = s.scanner.pos.toNat

/-- The run expander in mid-command (41_decoder.md R133, R134). -/
structure ExpanderLegal (s : State cfg) : Prop where
  idx_le : s.expander.idx.toNat ≤ s.rcount.toNat
  open_lt : s.expander.rem ≠ 0#8 → s.expander.idx.toNat < s.rcount.toNat
  sum_eq : s.expander.opos.toNat + s.expander.rem.toNat
      + runSum (s.validRuns.drop (s.expander.idx.toNat + (if s.expander.rem = 0#8 then 0 else 1)))
    = runSum s.validRuns
  listed : ∀ i < s.expander.opos.toNat, (Memory.get? s.obuf i).isSome = true

/-- The frame serializer in mid-command (42_serializer.md R152). -/
structure SerializerLegal (s : State cfg) : Prop where
  idx_le : s.serializer.idx.toNat ≤ s.rcount.toNat
  half_lt : s.serializer.half = true → s.serializer.idx.toNat < s.rcount.toNat
  listed : ∀ i < 2 * s.serializer.idx.toNat + s.serializer.half.toNat, (Memory.get? s.obuf i).isSome = true

/-- The frame deserializer in mid-command (43_parser.md R176). -/
structure DeserializerLegal (s : State cfg) : Prop where
  n_eq : s.deserializer.n.toNat = s.effLen
  pos_le : s.deserializer.pos.toNat ≤ s.effLen
  pos_eq : s.deserializer.pos.toNat = 2 * s.deserializer.k.toNat + s.deserializer.half.toNat
  listed : ∀ k < s.deserializer.k.toNat, (Memory.get? s.runbuf k).isSome = true

/-- `BUSY` says whether a command is in flight (10_state.md R28), and only the unit that executes it is not idle:
R50 to R53 give the idle value 0. MODEL'S CHOICE: a unit is idle after every completion (log 9, DEDUCED), for R48 says so of
reset alone, and what the unit in mid-command holds is that of the realisations (log 10, DEDUCED). -/
structure UnitsLegal (s : State cfg) : Prop where
  busy_iff : s.busy = true ↔ s.activity ≠ .idle
  scanner : if s.activity = .running .encode then ScannerLegal s else s.scanner = {}
  expander : if s.activity = .running .decode then ExpanderLegal s else s.expander = {}
  serializer : if s.activity = .running .serialize then SerializerLegal s else s.serializer = {}
  deserializer : if s.activity = .running .parse then DeserializerLegal s else s.deserializer = {}

/-- While a driver runs, no command is left in flight and no error is set, since MalformedFrame ends the invocation
(44_stream_drivers.md R202, R203, R206), and the chunk it works on fits `IBUF` (R200). The steps of a driver are the
model's choice (log 14, DESIGN CHOICE). -/
structure DriverLegal (s : State cfg) : Prop where
  not_busy : s.driver.running = true → s.busy = false
  no_error : s.driver.running = true → s.err = errNone
  chunk_le : ∀ d chunk, s.driver = .working d chunk → chunk.length ≤ cfg.chunk

/-- The invariant of the machine: what holds at power-on and is kept by every step. -/
structure Inv (s : State cfg) : Prop where
  registers : RegistersLegal s
  status : StatusLegal s
  buffers : BuffersLegal s
  contents : ContentsLegal s
  units : UnitsLegal s
  driver : DriverLegal s

/-! ### Safe runs -/

/-- The model faults of 60_exceptions.md R230: the host broke its protocol (R238). -/
def Fault.byHost : Fault cfg → Bool
  | .hostWriteWhileBusy _ => true
  | .hostIssueWhileBusy _ => true
  | .hostIndexOutOfRange _ => true
  | .hostLenTooLarge _ => true
  | .blockIndexOutOfRange _ _ => false

/-- A safe step ends in a state: no model fault is recorded (60_exceptions.md R238). -/
def SafeStep (s : State cfg) : Prop := ∃ t, stepAt s = .next t

/-- The host reads (10_state.md R40, R45). -/
def HostOp.isRead : HostOp cfg → Bool
  | .reset => false
  | .writeIn _ _ => false
  | .setLen _ => false
  | .setN _ => false
  | .issue _ => false
  | .readStatus => true
  | .readIn _ => true
  | .readRun _ => true
  | .readOut _ => true
  | .readLen => true
  | .readN => true
  | .readRCount => true
  | .readOLen => true

/-- What the host may do while `BUSY = 1` (10_state.md R46, R47, 70_reset_and_hazards.md R270): reset and reads; waiting, and
what only the block does. `LOAD` writes, a command line issues. -/
def Event.allowedWhileBusy : Event cfg → Bool
  | .host .reset => true
  | .host op => op.isRead
  | .command _ => false
  | .wait => true
  | .load _ => false
  | .compress => true
  | .decompress => true
  | .perform _ => true
  | .beat => true
  | .complete => true

/-- The host keeps its protocol in its next move (60_exceptions.md R238): bounds kept, and nothing forbidden while a command
is in flight. -/
def HostObeys (s : State cfg) : Prop :=
  s.driver.running = false → ∀ e rest, s.program = e :: rest →
    e.wf = true ∧ (s.busy = true → e.allowedWhileBusy = true)

/-! ### Streams -/

/-- The `j`-th chunk of a stream, `S[j*CHUNK .. min((j+1)*CHUNK, len(S)))` (44_stream_drivers.md R209). -/
def chunkAt (cfg : Config) (S : List Byte) (j : Nat) : List Byte := (S.drop (j * cfg.chunk)).take cfg.chunk

/-- The compressed stream `E` of a stream, with `J = ceil(len(S) / CHUNK)` chunks (44_stream_drivers.md R209). -/
def compressed (cfg : Config) (S : List Byte) : List Byte :=
  (List.range ((S.length + (cfg.chunk - 1)) / cfg.chunk)).flatMap fun j =>
    framesSerialize (rleEncode (chunkAt cfg S j))

/-- No read and no write of the streams fails (44_stream_drivers.md R200, R209). -/
def NoStreamFailure (s : State cfg) : Prop := (∀ f ∈ s.readFails, f = false) ∧ (∀ f ∈ s.writeFails, f = none)

/-- The runs of a maximal segment of `len` bytes `b` (40_encoder.md R104). -/
def segmentRuns (len : Nat) (b : Byte) : List Run :=
  List.replicate (len / 255) { count := 255#8, byte := b } ++
    if len % 255 = 0 then [] else [{ count := BitVec.ofNat 8 (len % 255), byte := b }]

end Sys2Proof.Machine
end

