-- ==== Sys2Proof/Certificates/Slice0/Obligations.lean ====
section
/-! DEFINITION. The statements for the provers, from the numbered rules of the spec. -/

open Sys2Proof Sys2Proof.Machine

/-! ### Reset -/

/-- Reset sets every register, leaves no buffer entry specified (a host read of `IBUF` answers a draw) and every unit idle
(10_state.md R48): at power-on, and by `HostReset` from every state. -/
def Obligations.ResetStateValues : Prop :=
  ∀ r : State, (r = State.reset ∨ ∃ s, r = State.resetBlock s) →
    r.ilen = 0#10 ∧ r.narg = 0#16 ∧ r.rcount = 0#10 ∧ r.olen = 0#16 ∧ r.busy = false ∧ r.err = errNone ∧
      r.errOff = 0#9 ∧ r.errZero = false ∧
      (∀ i, Memory.get? r.ibuf i = none) ∧ (∀ i, Memory.get? r.runbuf i = none) ∧ (∀ i, Memory.get? r.obuf i = none) ∧
      (∀ i, hostOp (.readIn i) r = .next { r with resp := some (.inByte (Config.draw 8 r.draws)), draws := r.draws + 1 }) ∧
      UnitsIdle r

/-- `HostReset` is legal in any state, `BUSY = 1` included, performs the reset, and a command in progress has no effect on
what it leaves (10_state.md R46). That the host keeps its program, driver and streams, `SameHost`, is the model's choice
(log 16, DEDUCED from R37), not R46. -/
def Obligations.HostResetIsAlwaysLegal : Prop :=
  ∀ s : State, hostOp .reset s = .next s.resetBlock ∧ SameHost s s.resetBlock ∧
    ∀ (busy : Bool) (a : Activity) (u : Scanner) (v : Expander) (w : Serializer) (x : Deserializer),
      hostOp .reset { s with busy := busy, activity := a, scanner := u, expander := v, serializer := w, deserializer := x }
        = .next s.resetBlock

/-- Each command on the reset state completes, and leaves it as it is: `RCOUNT = 0` and `OLEN = 0`
(70_reset_and_hazards.md R262). No command reads a buffer entry there: the same holds whatever the buffers hold.
MODEL'S CHOICE: that the storage of `RUNBUF` and `OBUF` at and above the new `RCOUNT` and `OLEN` stays as it was (log 8, DEDUCED,
unsafe for the raw storage), since R262 says only that `RCOUNT` or `OLEN` is 0 and the entries there are unspecified; and that
every hidden register of the units is 0 after the command (log 9, DEDUCED). -/
def Obligations.CommandsOnResetState : Prop :=
  ∀ (i : Instr) (s : State),
    hostCommand (encode i) s.resetBlock = .next s.resetBlock ∧ exec i s.resetBlock = .next s.resetBlock ∧
    s.resetBlock.effLen = 0 ∧ s.resetBlock.rcount = 0#10 ∧ s.resetBlock.olen = 0#16 ∧
    ∀ (a c : List Host.Cell) (b : List (Nat × Run)),
      exec i { s.resetBlock with ibuf := a, runbuf := b, obuf := c } =
        .next { s.resetBlock with ibuf := a, runbuf := b, obuf := c }

/-! ### Command words and issue -/

/-- The decoder on every word (30_encoding.md R85). -/
def Obligations.CommandWordDecoding : Prop :=
  ∀ w : Byte,
    decodeWord w =
      if w.extractLsb' 3 5 ≠ 0b00000#5 then .error .reservedBits
      else if w.extractLsb' 0 3 = 0b001#3 then .ok .encode
      else if w.extractLsb' 0 3 = 0b010#3 then .ok .decode
      else if w.extractLsb' 0 3 = 0b011#3 then .ok .serialize
      else if w.extractLsb' 0 3 = 0b100#3 then .ok .parse
      else .error .reservedOpcode

/-- The words of the opcode map (30_encoding.md R87), written out. -/
def Obligations.OpcodeMapWords : Prop :=
  decodeWord 0b00000001#8 = .ok .encode ∧ decodeWord 0b00000010#8 = .ok .decode ∧
    decodeWord 0b00000011#8 = .ok .serialize ∧ decodeWord 0b00000100#8 = .ok .parse ∧
    ∀ w : Byte, w ≠ 0x01#8 → w ≠ 0x02#8 → w ≠ 0x03#8 → w ≠ 0x04#8 → ∃ e, decodeWord w = .error e

/-- Decoding an encoded command gives it back, with the bytes after it untouched, and no other word decodes to it. -/
def Obligations.CommandEncodingRoundTrip : Prop :=
  (∀ (i : Instr) (rest : List Byte), i.wf = true → decode (encode i :: rest) = .ok (i, rest)) ∧
    ∀ (w : Byte) (i : Instr), decodeWord w = .ok i → encode i = w

/-- A step runs the decoded command: with a command line at the head of the program whose word decodes to `i`, on a block
that accepts it, the step is `exec i` on the state with the line taken and the command accepted, which is `exec i` on the
state with the line taken (10_state.md R44, 30_encoding.md R89; log 2, log 4). -/
def Obligations.StepRunsDecodedCommand : Prop :=
  ∀ (s : State) (w : Byte) (rest : List Event) (i : Instr),
    s.driver.running = false → s.program = .command w :: rest → decodeWord w = .ok i → i.wf = true → Ready s →
    step s = exec i ((s.withProgram rest).accept (.running i)) ∧ step s = exec i (s.withProgram rest)

/-- `HostIssue(w)` and completion (10_state.md R44): a model fault while `BUSY = 1`, no effect while `ERR` is set, else
`BUSY` is 1 and nothing else changes until completion, which sets `ERR` for an illegal word, has the effect the command has
on the state at issue for a legal one, and clears `BUSY`. -/
def Obligations.IssueAndCompletion : Prop :=
  ∀ (w : Byte) (s : State),
    (s.busy = true → hostOp (.issue w) s = .fault (.hostIssueWhileBusy (.issue w))) ∧
    (s.busy = false → s.err ≠ errNone → hostOp (.issue w) s = .next s) ∧
    (Ready s → ∃ t, hostOp (.issue w) s = .next t ∧ t.busy = true ∧ SameInput s t ∧ SameRuns s t ∧ SameOut s t ∧
      SameError s t ∧ SameHost s t ∧ SameAnswer s t ∧
      (∀ e, decodeWord w = .error e → ∃ u, completeCommand t = .next u ∧ u.err = errIllegalCommand ∧ u.busy = false) ∧
      (∀ i, decodeWord w = .ok i → completeCommand t = exec i s ∧ ∀ u, exec i s = .next u → u.busy = false))

/-- Issue and completion as two moves give what one command line gives, in every state (10_state.md R44: "a model may fuse
issue and completion into one step"). -/
def Obligations.IssueThenCompleteIsOneCommandLine : Prop :=
  ∀ (s : State) (w : Byte) (rest : List Event), s.driver.running = false →
    Sys2Proof.core.run 2 (s.withProgram (.host (.issue w) :: .complete :: rest)) =
      Sys2Proof.core.run 1 (s.withProgram (.command w :: rest))

/-- The illegal words are those with `RSV` not 0 and the four words 0x00, 0x05, 0x06, 0x07; issuing one sets `ERR` to 2,
changes no other register and no buffer, and leaves `BUSY` at 0 (30_encoding.md R86). That every hidden register of the units
is 0 afterwards, in `UnitsIdle`, is the model's choice (log 9, DEDUCED), not R86. -/
def Obligations.IllegalWordSetsOnlyError : Prop :=
  (∀ w : Byte, (∃ e, decodeWord w = .error e) ↔
    rsvField w ≠ 0b00000#5 ∨ w = 0x00#8 ∨ w = 0x05#8 ∨ w = 0x06#8 ∨ w = 0x07#8) ∧
  ∀ (w : Byte) (e : DecodeError) (s : State), decodeWord w = .error e → Ready s →
    ∃ t, hostCommand w s = .next t ∧ t.err = errIllegalCommand ∧ t.errOff = 0#9 ∧ t.errZero = false ∧
      SameInput s t ∧ SameRuns s t ∧ SameOut s t ∧ SameHost s t ∧ SameAnswer s t ∧ UnitsIdle t

/-- While `ERR` is set, every issued word is ignored, and no step changes the error, the runs or the output but a reset: a
`HostReset`, or a driver invocation, which starts with one (60_exceptions.md R233, 44_stream_drivers.md R212). -/
def Obligations.ErrorStaysUntilReset : Prop :=
  ∀ s : State, StatusLegal s → s.err ≠ errNone →
    (∀ w, hostOp (.issue w) s = .next s ∧ hostCommand w s = .next s) ∧ s.resetBlock.err = errNone ∧
    s.resetBlock.errOff = 0#9 ∧ s.resetBlock.errZero = false ∧
    ∀ t, step s = .next t →
      (SameError s t ∧ SameRuns s t ∧ SameOut s t) ∨
      (s.driver.running = false ∧ ∃ rest, s.program = .host .reset :: rest ∨ ∃ d, s.program = .perform d :: rest)

/-! ### Host operations -/

/-- `HostWriteIn(i, v)` (10_state.md R41), for every `CHUNK` (00_scope.md R10). -/
def Obligations.HostWriteInEffect : Prop :=
  ∀ (cfg : Config) (i : Nat) (v : Byte) (s : State cfg),
    (s.busy = true → hostOp (.writeIn i v) s = .fault (.hostWriteWhileBusy (.writeIn i v))) ∧
    (s.busy = false → cfg.chunk ≤ i → hostOp (.writeIn i v) s = .fault (.hostIndexOutOfRange (.writeIn i v))) ∧
    (s.busy = false → i < cfg.chunk → ∃ t, hostOp (.writeIn i v) s = .next t ∧ Memory.get? t.ibuf i = some v ∧
      t.inByte i = v ∧ (∀ j, j ≠ i → Memory.get? t.ibuf j = Memory.get? s.ibuf j ∧ t.inByte j = s.inByte j) ∧
      t.ilen = s.ilen ∧ t.narg = s.narg ∧ SameRuns s t ∧ SameOut s t ∧ SameError s t ∧ SameUnits s t ∧ SameHost s t)

/-- `HostSetLen(len)` (10_state.md R42), for every `CHUNK`: `ILEN` is wide enough (00_scope.md R10, R13). -/
def Obligations.HostSetLenEffect : Prop :=
  ∀ (cfg : Config) (len : Nat) (s : State cfg),
    (s.busy = true → hostOp (.setLen len) s = .fault (.hostWriteWhileBusy (.setLen len))) ∧
    (s.busy = false → cfg.chunk < len → hostOp (.setLen len) s = .fault (.hostLenTooLarge (.setLen len))) ∧
    (s.busy = false → len ≤ cfg.chunk → ∃ t, hostOp (.setLen len) s = .next t ∧ t.ilen.toNat = len ∧
      t.ibuf = s.ibuf ∧ t.narg = s.narg ∧ SameRuns s t ∧ SameOut s t ∧ SameError s t ∧ SameUnits s t ∧ SameHost s t)

/-- `HostSetN(n)` (10_state.md R43), and the clamp when the value is used (R25). -/
def Obligations.HostSetNEffect : Prop :=
  ∀ (n : BitVec 16) (s : State),
    (s.busy = true → hostOp (.setN n) s = .fault (.hostWriteWhileBusy (.setN n))) ∧
    (s.busy = false → ∃ t, hostOp (.setN n) s = .next t ∧ t.narg = n ∧ t.effLen = min n.toNat s.ilen.toNat ∧
      t.ibuf = s.ibuf ∧ t.ilen = s.ilen ∧ SameRuns s t ∧ SameOut s t ∧ SameError s t ∧ SameUnits s t ∧ SameHost s t)

/-- Host access while `BUSY = 1` (10_state.md R47): writes and issues are model faults, a fault ends every run, and reads
answer draws but for `BUSY`, which reads 1. -/
def Obligations.HostAccessWhileBusy : Prop :=
  ∀ s : State, s.busy = true →
    (∀ i v, hostOp (.writeIn i v) s = .fault (.hostWriteWhileBusy (.writeIn i v))) ∧
    (∀ len, hostOp (.setLen len) s = .fault (.hostWriteWhileBusy (.setLen len))) ∧
    (∀ n, hostOp (.setN n) s = .fault (.hostWriteWhileBusy (.setN n))) ∧
    (∀ w, hostOp (.issue w) s = .fault (.hostIssueWhileBusy (.issue w))) ∧
    (∀ f k, step s = .fault f → Sys2Proof.core.run (k + 1) s = .fault f) ∧
    hostOp .readStatus s = .next { s with
      resp := some (.status true (Config.draw 3 s.draws) (Config.draw 9 s.draws) ((Config.draw 1 s.draws).getLsbD 0))
      draws := s.draws + 1 } ∧
    (∀ i, hostOp (.readIn i) s = .next { s with resp := some (.inByte (Config.draw 8 s.draws)), draws := s.draws + 1 }) ∧
    (∀ i, hostOp (.readOut i) s = .next { s with resp := some (.outByte (Config.draw 8 s.draws)), draws := s.draws + 1 }) ∧
    (∀ k, hostOp (.readRun k) s = .next { s with
      resp := some (.run { count := (Config.draw 16 s.draws).extractLsb' 8 8, byte := (Config.draw 16 s.draws).extractLsb' 0 8 })
      draws := s.draws + 1 }) ∧
    hostOp .readLen s = .next { s with resp := some (.len (Config.draw 10 s.draws)), draws := s.draws + 1 } ∧
    hostOp .readN s = .next { s with resp := some (.n (Config.draw 16 s.draws)), draws := s.draws + 1 } ∧
    hostOp .readRCount s = .next { s with resp := some (.rcount (Config.draw 10 s.draws)), draws := s.draws + 1 } ∧
    hostOp .readOLen s = .next { s with resp := some (.olen (Config.draw 16 s.draws)), draws := s.draws + 1 }

/-- No host read has a side effect on the block, and with `BUSY = 0` a read returns the current value (10_state.md R45);
the ranges outside which a buffer read is a draw are in `UnspecifiedReadsDraw`. -/
def Obligations.HostReadsReturnCurrentValues : Prop :=
  (∀ (op : HostOp) (s : State), op.isRead = true → ∃ t, hostOp op s = .next t ∧ SameBlock s t ∧ SameHost s t) ∧
  ∀ s : State, s.busy = false →
    hostOp .readStatus s = .next { s with resp := some (.status false s.err s.errOff s.errZero) } ∧
    (∀ i v, Memory.get? s.ibuf i = some v → hostOp (.readIn i) s = .next { s with resp := some (.inByte v) }) ∧
    (∀ k, k < s.rcount.toNat → hostOp (.readRun k) s = .next { s with resp := some (.run (s.runAt k)) }) ∧
    (∀ i, i < s.olen.toNat → hostOp (.readOut i) s = .next { s with resp := some (.outByte (s.outByte i)) }) ∧
    hostOp .readLen s = .next { s with resp := some (.len s.ilen) } ∧
    hostOp .readN s = .next { s with resp := some (.n s.narg) } ∧
    hostOp .readRCount s = .next { s with resp := some (.rcount s.rcount) } ∧
    hostOp .readOLen s = .next { s with resp := some (.olen s.olen) }

/-- A host read outside the valid part of a buffer answers a fresh draw, whatever the buffer holds (10_state.md R36). -/
def Obligations.UnspecifiedReadsDraw : Prop :=
  ∀ s : State,
    (∀ i, s.olen.toNat ≤ i →
      hostOp (.readOut i) s = .next { s with resp := some (.outByte (Config.draw 8 s.draws)), draws := s.draws + 1 }) ∧
    (∀ k, s.rcount.toNat ≤ k →
      hostOp (.readRun k) s = .next { s with
        resp := some (.run { count := (Config.draw 16 s.draws).extractLsb' 8 8, byte := (Config.draw 16 s.draws).extractLsb' 0 8 })
        draws := s.draws + 1 }) ∧
    (∀ i, Memory.get? s.ibuf i = none →
      hostOp (.readIn i) s = .next { s with resp := some (.inByte (Config.draw 8 s.draws)), draws := s.draws + 1 })

/-- The fields of `STATUS` stand in the packed word where 10_state.md R23 puts them. -/
def Obligations.StatusWordFields : Prop :=
  ∀ s : State, s.statusWord.getLsbD 0 = s.busy ∧ s.statusWord.extractLsb' 1 3 = s.err ∧
    s.statusWord.extractLsb' 4 9 = s.errOff ∧ s.statusWord.getLsbD 13 = s.errZero

/-! ### ENCODE -/

/-- `ENCODE` (40_encoder.md R100, R108, R109): it completes on every chunk, writes the runs of `IBUF[0..n)` and their number,
and nothing else; its word is 0x01; the worked example.
MODEL'S CHOICE: that every hidden register of the units is 0 afterwards, in `UnitsIdle` (log 9, DEDUCED), and that the storage of
`RUNBUF` at and above the new `RCOUNT` stays as it was, which the spec calls unspecified (log 8, DEDUCED, unsafe). -/
def Obligations.EncodeWritesRunsOfChunk : Prop :=
  encode .encode = 0x01#8 ∧
  rleEncode [0x41#8, 0x41#8, 0x42#8, 0x42#8, 0x42#8, 0x41#8, 0x43#8] =
    [⟨2#8, 0x41#8⟩, ⟨3#8, 0x42#8⟩, ⟨1#8, 0x41#8⟩, ⟨1#8, 0x43#8⟩] ∧
  ∀ s : State, s.ilen.toNat ≤ Config.hardware.chunk →
    ∃ t, exec .encode s = .next t ∧
      t.rcount.toNat = (rleEncode (s.inBytes (min s.narg.toNat s.ilen.toNat))).length ∧
      t.validRuns = rleEncode (s.inBytes (min s.narg.toNat s.ilen.toNat)) ∧
      t.rcount.toNat ≤ min s.narg.toNat s.ilen.toNat ∧
      (∀ k, t.rcount.toNat ≤ k → Memory.get? t.runbuf k = Memory.get? s.runbuf k) ∧
      SameInput s t ∧ SameOut s t ∧ SameError s t ∧ SameHost s t ∧ SameAnswer s t ∧ UnitsIdle t

/-- The scan (40_encoder.md R102, R103, R105): the first run takes the leading bytes equal to the first one, at most 255 of
them, and the next run starts at the next byte. -/
def Obligations.EncodeScanEquation : Prop :=
  rleEncode [] = [] ∧
  ∀ (b : Byte) (xs : List Byte) (c : Nat), c = min 255 (1 + (xs.takeWhile (fun x => x == b)).length) →
    rleEncode (b :: xs) = { count := BitVec.ofNat 8 c, byte := b } :: rleEncode ((b :: xs).drop c)

/-- The count limiter (40_encoder.md R104): a maximal segment of `len` equal bytes becomes `len div 255` runs of count 255
and, when there is a remainder, one run of that count, whatever stands around the segment. -/
def Obligations.EncodeSegmentLaw : Prop :=
  ∀ (before after : List Byte) (b : Byte) (len : Nat), 1 ≤ len → before.getLast? ≠ some b → after.head? ≠ some b →
    rleEncode (before ++ List.replicate len b ++ after) = rleEncode before ++ segmentRuns len b ++ rleEncode after

/-- The runs of a list are the only ones in canonical form that expand to it (40_encoder.md R110, items 1 to 5). -/
def Obligations.EncodeCanonicalForm : Prop :=
  ∀ (xs : List Byte) (runs : List Run),
    (runs = rleEncode xs ↔
      (∀ r ∈ runs, 1 ≤ r.count.toNat ∧ r.count.toNat ≤ 255) ∧ rleDecode runs = xs ∧
      (∀ (i : Nat) (r1 r2 : Run), runs[i]? = some r1 → runs[i + 1]? = some r2 → r1.byte ≠ r2.byte ∨ r1.count = 255#8)) ∧
    runSum (rleEncode xs) = xs.length ∧ (rleEncode xs).length ≤ xs.length

/-- `ENCODE` and `PARSE` depend on the chunk `IBUF[0..n)` alone, not on `RUNBUF` nor on what an earlier command left
(40_encoder.md R101, R107, 10_state.md R32). -/
def Obligations.ChunkCommandsReadOnlyChunk : Prop :=
  ∀ (i : Instr) (s t : State), i = .encode ∨ i = .parse →
    s.ilen.toNat ≤ Config.hardware.chunk → t.ilen.toNat ≤ Config.hardware.chunk → SameError s t →
    s.effLen = t.effLen → (∀ k < s.effLen, s.inByte k = t.inByte k) →
    ∃ s' t', exec i s = .next s' ∧ exec i t = .next t' ∧ s'.rcount = t'.rcount ∧ s'.validRuns = t'.validRuns ∧
      SameError s' t'

/-- The realisation of the run scanner and count limiter ends in the state the command's rule gives, after
`n + max(len(runs), 1)` beats, and the command may complete at any beat before with the same result (40_encoder.md R112,
R113, 10_state.md R44).
MODEL'S CHOICE: every hidden register is 0 at the end (log 9, DEDUCED), the storage of `RUNBUF` above the new `RCOUNT` stays as it was (log 8,
DEDUCED), and beats and completion may mix (log 10, DEDUCED). -/
def Obligations.EncodeBeatsReachCommandResult : Prop :=
  ∀ s : State, s.ilen.toNat ≤ Config.hardware.chunk → Memory.wf s.runbuf →
    beats (s.effLen + max (rleEncode (s.inBytes s.effLen)).length 1) (s.accept (.running .encode)) = exec .encode s ∧
    ∀ j < s.effLen + max (rleEncode (s.inBytes s.effLen)).length 1, ∃ t,
      beats j (s.accept (.running .encode)) = .next t ∧ t.busy = true ∧ completeCommand t = exec .encode s

/-! ### DECODE -/

/-- `DECODE` (41_decoder.md R130 to R132, R136): when the runs fit `OBUF`, it completes, writes their expansion and its
length, the sum of the counts, and nothing else; its word is 0x02; the worked example.
MODEL'S CHOICE: that every hidden register of the units is 0 afterwards, in `UnitsIdle` (log 9, DEDUCED), and that the storage of
`OBUF` at and above the new `OLEN` stays as it was, which the spec calls unspecified (log 8, DEDUCED, unsafe). -/
def Obligations.DecodeWritesExpansion : Prop :=
  encode .decode = 0x02#8 ∧
  rleDecode [⟨2#8, 0x41#8⟩, ⟨3#8, 0x42#8⟩, ⟨1#8, 0x41#8⟩, ⟨1#8, 0x43#8⟩] =
    [0x41#8, 0x41#8, 0x42#8, 0x42#8, 0x42#8, 0x41#8, 0x43#8] ∧
  ∀ s : State, s.rcount.toNat ≤ Config.hardware.runCap → runSum s.validRuns ≤ Config.hardware.obufCap →
    ∃ t, exec .decode s = .next t ∧
      t.validOut = (s.validRuns.map fun r => List.replicate r.count.toNat r.byte).flatten ∧
      t.olen.toNat = runSum s.validRuns ∧
      (∀ i, t.olen.toNat ≤ i → Memory.get? t.obuf i = Memory.get? s.obuf i) ∧
      SameInput s t ∧ SameRuns s t ∧ SameError s t ∧ SameHost s t ∧ SameAnswer s t ∧ UnitsIdle t

/-- The inverse law, and the output sizes of `DECODE` after `ENCODE` and after a successful `PARSE` (41_decoder.md R137). -/
def Obligations.DecodeInverseAndSizes : Prop :=
  (∀ xs : List Byte, rleDecode (rleEncode xs) = xs) ∧
  (∀ s : State, s.ilen.toNat ≤ Config.hardware.chunk → ∃ t u, exec .encode s = .next t ∧ exec .decode t = .next u ∧
    u.olen.toNat = s.effLen ∧ u.validOut = s.inBytes s.effLen) ∧
  (∀ (s : State) (runs : List Run), s.ilen.toNat ≤ Config.hardware.chunk → framesParse (s.inBytes s.effLen) = .ok runs →
    ∃ t u, exec .parse s = .next t ∧ exec .decode t = .next u ∧
      s.effLen / 2 ≤ u.olen.toNat ∧ u.olen.toNat ≤ 255 * (s.effLen / 2) ∧ u.olen.toNat ≤ 65280)

/-- The realisation of the run expander ends in the state the command's rule gives, after `RCOUNT + sum(counts) + 1` beats,
and the command may complete at any beat before with the same result (41_decoder.md R133, R134, 10_state.md R44).
MODEL'S CHOICE: every hidden register is 0 at the end (log 9, DEDUCED), the storage of `OBUF` above the new `OLEN` stays as it was (log 8,
DEDUCED), and beats and completion may mix (log 10, DEDUCED). -/
def Obligations.DecodeBeatsReachCommandResult : Prop :=
  ∀ s : State, s.rcount.toNat ≤ Config.hardware.runCap → runSum s.validRuns ≤ Config.hardware.obufCap →
    (∀ r ∈ s.validRuns, r.wf = true) → Memory.wf s.obuf →
    beats (s.rcount.toNat + runSum s.validRuns + 1) (s.accept (.running .decode)) = exec .decode s ∧
    ∀ j < s.rcount.toNat + runSum s.validRuns + 1, ∃ t,
      beats j (s.accept (.running .decode)) = .next t ∧ t.busy = true ∧ completeCommand t = exec .decode s

/-! ### SERIALIZE -/

/-- `SERIALIZE` (42_serializer.md R150, R151, R153, R155): it completes on every number of runs `RUNBUF` holds, writes run `k`
as its count at `2k` and its byte at `2k+1`, sets `OLEN` to `2 * RCOUNT`, and writes nothing else; its word is 0x03; the
worked example.
MODEL'S CHOICE: that every hidden register of the units is 0 afterwards, in `UnitsIdle` (log 9, DEDUCED), and that the storage of
`OBUF` at and above the new `OLEN` stays as it was, which the spec calls unspecified (log 8, DEDUCED, unsafe). -/
def Obligations.SerializeWritesFrames : Prop :=
  encode .serialize = 0x03#8 ∧
  framesSerialize [⟨2#8, 0x41#8⟩, ⟨3#8, 0x42#8⟩, ⟨1#8, 0x41#8⟩, ⟨1#8, 0x43#8⟩] =
    [0x02#8, 0x41#8, 0x03#8, 0x42#8, 0x01#8, 0x41#8, 0x01#8, 0x43#8] ∧
  ∀ s : State, s.rcount.toNat ≤ Config.hardware.runCap →
    ∃ t, exec .serialize s = .next t ∧
      t.olen.toNat = 2 * s.rcount.toNat ∧
      t.validOut = (s.validRuns.map fun r => [r.count, r.byte]).flatten ∧
      (∀ k < s.rcount.toNat, t.outByte (2 * k) = (s.runAt k).count ∧ t.outByte (2 * k + 1) = (s.runAt k).byte) ∧
      (∀ i, t.olen.toNat ≤ i → Memory.get? t.obuf i = Memory.get? s.obuf i) ∧
      SameInput s t ∧ SameRuns s t ∧ SameError s t ∧ SameHost s t ∧ SameAnswer s t ∧ UnitsIdle t

/-- The inverse law of the frames (42_serializer.md R156). -/
def Obligations.FrameInverseLaw : Prop :=
  ∀ runs : List Run, (∀ r ∈ runs, 1 ≤ r.count.toNat ∧ r.count.toNat ≤ 255) →
    framesParse (framesSerialize runs) = .ok runs

/-- The realisation of the serializer ends in the state the command's rule gives, after `2 * RCOUNT + 1` beats, and the
command may complete at any beat before with the same result (42_serializer.md R152, 10_state.md R44).
MODEL'S CHOICE: every hidden register is 0 at the end (log 9, DEDUCED), the storage of `OBUF` above the new `OLEN` stays as it was (log 8,
DEDUCED), and beats and completion may mix (log 10, DEDUCED). -/
def Obligations.SerializeBeatsReachCommandResult : Prop :=
  ∀ s : State, s.rcount.toNat ≤ Config.hardware.runCap → Memory.wf s.obuf →
    beats (2 * s.rcount.toNat + 1) (s.accept (.running .serialize)) = exec .serialize s ∧
    ∀ j < 2 * s.rcount.toNat + 1, ∃ t,
      beats j (s.accept (.running .serialize)) = .next t ∧ t.busy = true ∧ completeCommand t = exec .serialize s

/-! ### PARSE -/

/-- `PARSE` (43_parser.md R170, R175): it completes on every chunk; on success it writes the runs and their number and nothing
else; on failure `ERR` is 1, `ERR_OFF` and `ERR_ZERO` tell the frame and the cause, `RCOUNT` is 0, and nothing else but
`RUNBUF` changes; its word is 0x04; the worked example.
MODEL'S CHOICE: that every hidden register of the units is 0 afterwards, in `UnitsIdle` (log 9, DEDUCED), and that the storage of
`RUNBUF` at and above the new `RCOUNT` stays as it was on success, which the spec calls unspecified (log 8, DEDUCED, unsafe). -/
def Obligations.ParseWritesRunsOrFails : Prop :=
  encode .parse = 0x04#8 ∧ framesParse [3#8, 0x78#8, 4#8] = .error { off := 2, zero := false } ∧
  ∀ s : State, s.ilen.toNat ≤ Config.hardware.chunk →
    ∃ t, exec .parse s = .next t ∧
      (∀ runs, framesParse (s.inBytes (min s.narg.toNat s.ilen.toNat)) = .ok runs →
        t.rcount.toNat = runs.length ∧ t.validRuns = runs ∧
        (∀ k, t.rcount.toNat ≤ k → Memory.get? t.runbuf k = Memory.get? s.runbuf k) ∧ SameError s t) ∧
      (∀ e, framesParse (s.inBytes (min s.narg.toNat s.ilen.toNat)) = .error e →
        t.err = errMalformedFrame ∧ t.errOff.toNat = e.off ∧ t.errZero = e.zero ∧ t.rcount = 0#10) ∧
      SameInput s t ∧ SameOut s t ∧ SameHost s t ∧ SameAnswer s t ∧ UnitsIdle t

/-- What a successful parse gives (43_parser.md R172). -/
def Obligations.ParseSuccessProperties : Prop :=
  ∀ (xs : List Byte) (runs : List Run), xs.length ≤ Config.hardware.chunk → framesParse xs = .ok runs →
    xs.length % 2 = 0 ∧ runs.length = xs.length / 2 ∧ runs.length ≤ Config.hardware.chunk / 2 ∧
    (∀ (k : Nat) (r : Run), runs[k]? = some r → xs[2 * k]? = some r.count ∧ xs[2 * k + 1]? = some r.byte) ∧
    (∀ r ∈ runs, 1 ≤ r.count.toNat ∧ r.count.toNat ≤ 255) ∧
    runSum runs ≤ 255 * (xs.length / 2) ∧ framesSerialize runs = xs

/-- The failing frame that is reported is the one with the lowest offset, and within it a missing paired byte goes before a
zero count (43_parser.md R171, R173, R174, R177): a parse fails with `e` exactly when `e` is that frame. -/
def Obligations.ParseReportsFirstBadFrame : Prop :=
  ∀ (xs : List Byte) (e : FrameError),
    framesParse xs = .error e ↔
      e.off % 2 = 0 ∧ e.off < xs.length ∧ (∀ j, j % 2 = 0 → j < e.off → xs[j]? ≠ some 0#8) ∧
      if e.zero then e.off + 1 < xs.length ∧ xs[e.off]? = some 0#8 else e.off + 1 = xs.length

/-- Oddness is judged on the effective length `n = min(NARG, ILEN)` (43_parser.md R173, R179): an odd `n` fails, and an even
`n` with no zero count in its frames succeeds, whatever `ILEN` is. -/
def Obligations.ParseJudgesEffectiveLength : Prop :=
  ∀ s : State, s.ilen.toNat ≤ Config.hardware.chunk →
    (s.effLen % 2 = 1 → (∀ k, 2 * k + 1 < s.effLen → s.inByte (2 * k) ≠ 0#8) →
      ∃ t, exec .parse s = .next t ∧ t.err = errMalformedFrame ∧ t.errOff.toNat = s.effLen - 1 ∧ t.errZero = false) ∧
    (s.effLen % 2 = 0 → (∀ k, 2 * k + 1 < s.effLen → s.inByte (2 * k) ≠ 0#8) →
      ∃ t, exec .parse s = .next t ∧ SameError s t ∧ t.rcount.toNat = s.effLen / 2 ∧
        t.validRuns = (List.range (s.effLen / 2)).map fun k => { count := s.inByte (2 * k), byte := s.inByte (2 * k + 1) })

/-- The realisation of the deserializer ends in the state the command's rule gives, success or failure, and the command may
complete at any beat before with the same result (43_parser.md R176, 10_state.md R44).
MODEL'S CHOICE: every hidden register is 0 at the end (log 9, DEDUCED), the storage of `RUNBUF` above the new `RCOUNT` stays as it
was on success and is forgotten on failure (log 8, DEDUCED), and beats and completion may mix (log 10, DEDUCED). -/
def Obligations.ParseBeatsReachCommandResult : Prop :=
  ∀ s : State, s.ilen.toNat ≤ Config.hardware.chunk → Memory.wf s.runbuf →
    ∃ k, beats k (s.accept (.running .parse)) = exec .parse s ∧
      ∀ j < k, ∃ t, beats j (s.accept (.running .parse)) = .next t ∧ t.busy = true ∧ completeCommand t = exec .parse s

/-! ### All commands -/

/-- Empty input (40_encoder.md R105, 41_decoder.md R135, 42_serializer.md R154, 43_parser.md R178): each command sets its
count to 0 and writes no entry.
MODEL'S CHOICE: that the storage of `RUNBUF` stays as it was after `ENCODE` and `PARSE` (log 8, DEDUCED from R108 and
30_encoding.md R83, unsafe for the raw storage), since R105 and R178 say only that `RCOUNT` is 0 and the entries at and above it
are unspecified. -/
def Obligations.EmptyInputGivesEmptyOutput : Prop :=
  rleEncode [] = [] ∧ ∀ s : State,
    (s.effLen = 0 → ∃ t, exec .encode s = .next t ∧ t.rcount = 0#10 ∧ t.runbuf = s.runbuf) ∧
    (s.rcount = 0#10 → ∃ t, exec .decode s = .next t ∧ t.olen = 0#16 ∧ t.obuf = s.obuf) ∧
    (s.rcount = 0#10 → ∃ t, exec .serialize s = .next t ∧ t.olen = 0#16 ∧ t.obuf = s.obuf) ∧
    (s.effLen = 0 → ∃ t u, exec .parse s = .next t ∧ t.rcount = 0#10 ∧ t.runbuf = s.runbuf ∧ SameError s t ∧
      exec .decode t = .next u ∧ u.olen = 0#16)

/-- Issuing the same word twice in a row gives the state that issuing it once gives (20_memory.md R66).
MODEL'S CHOICE: the two states agree also in the storage above `RCOUNT` and `OLEN` (log 8, DEDUCED) and in the hidden registers
(log 9, DEDUCED). -/
def Obligations.CommandTwiceIsOnce : Prop :=
  ∀ (w : Byte) (s t : State), hostCommand w s = .next t → hostCommand w t = .next t

/-- Which commands write which buffer, in a beat or at completion (10_state.md R24, R25, R32 to R34,
70_reset_and_hazards.md R271): no command writes the input; only `ENCODE` and `PARSE` write `RUNBUF` and `RCOUNT`; only
`SERIALIZE` and `DECODE` write `OBUF` and `OLEN`. -/
def Obligations.CommandsWriteOnlyTheirBuffers : Prop :=
  ∀ s t : State, blockBeat s = .next t ∨ completeCommand s = .next t →
    SameInput s t ∧ SameHost s t ∧ SameAnswer s t ∧
    (s.activity ≠ .running .encode → s.activity ≠ .running .parse → SameRuns s t) ∧
    (s.activity ≠ .running .decode → s.activity ≠ .running .serialize → SameOut s t) ∧
    (t.busy = true → t.rcount = s.rcount ∧ t.olen = s.olen ∧ SameError s t)

/-! ### Invariants and safety -/

/-- The invariant holds at power-on: on this hardware, and on the machine of every configuration. A `CHUNK` has a
configuration exactly when it is at least 2 and even (00_scope.md R10). The parts of the invariant that are the model's choice
are marked at `StepKeepsInvariant`; how a configuration carries its `CHUNK` is log 1 (DESIGN CHOICE). -/
def Obligations.PowerOnStateIsLegal : Prop :=
  Inv State.reset ∧ (∀ cfg : Config, Inv (State.powerOn (cfg := cfg))) ∧
    ∀ n : Nat, (∃ cfg : Config, cfg.chunk = n) ↔ 2 ≤ n ∧ n % 2 = 0

/-- Every step keeps the invariant: register ranges (00_scope.md R13), legal `STATUS` (10_state.md R28 to R31), canonical
buffers inside their index spaces (20_memory.md R67), the counts of `RUNBUF` (R33), the reachable contents (R34, R35), idle
units with the idle value of R50 to R53, and the drivers' state. So it is on this hardware, and on the machine of every
configuration (R10).
MODEL'S CHOICE: that a unit that runs no command is idle, also after a completion (log 9, DEDUCED from R50 to R53; R48 says so
of reset alone); what a running unit holds in mid-command (log 10, DEDUCED); that a buffer is a list in canonical form of what
was written (log 18, DESIGN CHOICE); that entries of `RUNBUF` at and above `RCOUNT` keep what was written (log 8, DEDUCED); and
that no command is in flight between two steps of a driver (log 14, DESIGN CHOICE). -/
def Obligations.StepKeepsInvariant : Prop :=
  (∀ s t : State, Inv s → step s = .next t → Inv t) ∧
    ∀ (cfg : Config) (s t : State cfg), Inv s → stepAt s = .next t → Inv t

/-- Every step keeps the buffers in canonical form and inside their index spaces, from any state with such buffers
(20_memory.md R67). The canonical form is the model's choice (log 18, DESIGN CHOICE). -/
def Obligations.StepKeepsBufferForm : Prop :=
  ∀ s t : State, BuffersLegal s → step s = .next t → BuffersLegal t

/-- Every step keeps the counts of `RUNBUF` in 1 to 255, from any state that has no other (10_state.md R33, 40_encoder.md
R106). That entries at and above `RCOUNT` keep what was written is the model's choice (log 8, DEDUCED), as is the list of what
was written (log 18, DESIGN CHOICE). -/
def Obligations.StepKeepsRunCounts : Prop :=
  ∀ s t : State, (∀ c ∈ s.runbuf, c.2.wf = true) → step s = .next t → ∀ c ∈ t.runbuf, c.2.wf = true

/-- A step answers a state, or one of the four model faults of the host's protocol; the block's own accesses never leave the
valid ranges (20_memory.md R68, 60_exceptions.md R230). So it is on this hardware, and for every `CHUNK` (00_scope.md R10,
R12): the buffers are large enough for every command. The model's choices in the invariant are marked at `StepKeepsInvariant`;
the fault of the block's own accesses is log 11 (DESIGN CHOICE). -/
def Obligations.OnlyTheHostCausesFaults : Prop :=
  (∀ s : State, Inv s → (∃ t, step s = .next t) ∨ ∃ f, step s = .fault f ∧ f.byHost = true) ∧
    ∀ (cfg : Config) (s : State cfg), Inv s →
      (∃ t, stepAt s = .next t) ∨ ∃ f, stepAt s = .fault f ∧ f.byHost = true

/-- A host that keeps its protocol meets no model fault (10_state.md R41 to R47, 60_exceptions.md R238). The model's choices in
the invariant are marked at `StepKeepsInvariant`. -/
def Obligations.ObeyingHostMeetsNoFault : Prop :=
  ∀ s : State, Inv s → HostObeys s → SafeStep s

/-! ### The host's program -/

/-- `LOAD` (30_encoding.md R90): the chunk is in `IBUF[0..m)`, `ILEN` and `NARG` are `m`, nothing else changes; for every
`CHUNK` (00_scope.md R10), with a `NARG` that holds it (log 29, DEDUCED). -/
def Obligations.LoadPlacesChunk : Prop :=
  ∀ (cfg : Config) (bytes : List Byte) (s : State cfg), bytes.length ≤ cfg.chunk → s.busy = false →
    ∃ t, loadChunk bytes s = .next t ∧ t.ilen.toNat = bytes.length ∧ t.narg.toNat = bytes.length ∧
      t.effLen = bytes.length ∧ t.inBytes bytes.length = bytes ∧
      (∀ i, bytes.length ≤ i → Memory.get? t.ibuf i = Memory.get? s.ibuf i) ∧
      SameRuns s t ∧ SameOut s t ∧ SameError s t ∧ SameUnits s t ∧ SameHost s t ∧ SameAnswer s t

/-- The order of the writes of a chunk, of `ILEN` and of `NARG` among themselves does not matter
(70_reset_and_hazards.md R263). -/
def Obligations.LoadWritesInAnyOrder : Prop :=
  ∀ (cfg : Config) (i len : Nat) (v : Byte) (n : BitVec cfg.nargBits) (s : State cfg), i < cfg.chunk → len ≤ cfg.chunk → s.busy = false →
    andThen (hostOp (.writeIn i v) s) (hostOp (.setLen len)) = andThen (hostOp (.setLen len) s) (hostOp (.writeIn i v)) ∧
    andThen (hostOp (.writeIn i v) s) (hostOp (.setN n)) = andThen (hostOp (.setN n) s) (hostOp (.writeIn i v)) ∧
    andThen (hostOp (.setLen len) s) (hostOp (.setN n)) = andThen (hostOp (.setN n) s) (hostOp (.setLen len)) ∧
    ∃ t, andThen (hostOp (.writeIn i v) s) (hostOp (.setLen len)) = .next t

/-- The pseudo-instructions `COMPRESS` and `DECOMPRESS` are two command lines (30_encoding.md R90), and `LOAD` is its
writes. -/
def Obligations.PseudoInstructionsExpand : Prop :=
  ∀ (s : State) (rest : List Event), s.driver.running = false →
    step (s.withProgram (.compress :: rest)) = .next (s.withProgram (.command 0x01#8 :: .command 0x03#8 :: rest)) ∧
    step (s.withProgram (.decompress :: rest)) = .next (s.withProgram (.command 0x04#8 :: .command 0x02#8 :: rest)) ∧
    ∀ bytes, step (s.withProgram (.load bytes :: rest)) = loadChunk bytes (s.withProgram rest)

/-- If the `PARSE` of a `DECOMPRESS` fails, its `DECODE` is ignored, and `OBUF` and `OLEN` keep their values
(30_encoding.md R90, 70_reset_and_hazards.md R272). -/
def Obligations.FailedDecompressKeepsOutput : Prop :=
  ∀ (s : State) (rest : List Event) (e : FrameError), s.driver.running = false → Ready s →
    s.ilen.toNat ≤ Config.hardware.chunk → framesParse (s.inBytes s.effLen) = .error e →
    ∃ t, Sys2Proof.core.run 3 (s.withProgram (.decompress :: rest)) = .next t ∧
      t.program = rest ∧ SameOut s t ∧ t.err = errMalformedFrame ∧ t.errOff.toNat = e.off ∧ t.rcount = 0#10

/-- The line `WAIT`, which repeats a read of `STATUS` until `BUSY = 0` (30_encoding.md R89), after which the host goes on. That
the step taken while `BUSY = 1` is the completion itself (log 3, DESIGN CHOICE), and that only the last read of the status is
reported and the polls before it are not shown (log 4, DEDUCED), is the model's choice: R89 and 10_state.md R28 say only that
the read is repeated and that the command completes after some finite number of steps. -/
def Obligations.WaitLineEndsNotBusy : Prop :=
  ∀ (s : State) (rest : List Event), s.driver.running = false → s.program = .wait :: rest →
    (s.busy = true → step s = completeCommand s) ∧
    (s.busy = false →
      step s = .next { s.withProgram rest with resp := some (.status false s.err s.errOff s.errZero) })

/-- With `BUSY = 0` and nothing more from the host, the block does nothing (60_exceptions.md R245). That with `BUSY = 1` and
nothing more from the host the very next step is the completion is the model's choice (log 3, DESIGN CHOICE): 10_state.md R28
says only that a command completes after a finite, unspecified number of steps. -/
def Obligations.IdleBlockKeepsItsState : Prop :=
  ∀ s : State, s.driver.running = false → s.program = [] →
    (s.busy = false → step s = .next s) ∧ (s.busy = true → step s = completeCommand s)

/-! ### The stream drivers -/

/-- Each invocation of a driver starts with `RESET` and reads first (44_stream_drivers.md R212, R204). That an invocation does
not move the read position back (log 13, DESIGN CHOICE), and that the reset leaves the source and the sink (log 16, DEDUCED),
is the model's choice, not R212. -/
def Obligations.DriverStartsWithReset : Prop :=
  ∀ (s : State) (d : Direction) (rest : List Event), s.driver.running = false → s.program = .perform d :: rest →
    ∃ t, step s = .next t ∧ t.driver = .reading d ∧ t.program = rest ∧ SameBlock s.resetBlock t ∧ t.err = errNone ∧
      t.source = s.source ∧ t.sourcePos = s.sourcePos ∧ t.sink = s.sink

/-- One iteration of a driver whose streams do not fail (44_stream_drivers.md R200, R202, R203): a read returns the next
`min(CHUNK, remaining)` bytes and advances, and zero bytes end the invocation with `Ok`; the chunk goes through its command
lines; the write appends `OBUF[0..OLEN)` to the sink. MODEL'S CHOICE (log 14, DESIGN CHOICE): each of these is one step, and the
driver's own reads of `ERR`, `OLEN` and `OBUF` are not shown in `resp`. -/
def Obligations.DriverIterationSteps : Prop :=
  ∀ (s : State) (d : Direction),
    (s.driver = .reading d → s.readFails.head? ≠ some true →
      (s.source.length ≤ s.sourcePos → ∃ t, step s = .next t ∧ t.driver = .finished .ok ∧ t.sourcePos = s.sourcePos ∧
        t.sink = s.sink ∧ SameBlock s t) ∧
      (s.sourcePos < s.source.length → ∃ t chunk, step s = .next t ∧ t.driver = .working d chunk ∧
        chunk.length = min Config.hardware.chunk (s.source.length - s.sourcePos) ∧
        s.source.drop s.sourcePos = chunk ++ s.source.drop t.sourcePos ∧ t.sourcePos = s.sourcePos + chunk.length ∧
        t.source = s.source ∧ t.sink = s.sink ∧ SameBlock s t)) ∧
    (∀ chunk t, s.driver = .working .encoding chunk → loadChunk chunk s = .next t →
      step s = andThen (hostCommand 0x01#8 t) fun u => andThen (hostCommand 0x03#8 u) fun v =>
        .next (v.withDriver (.writing .encoding))) ∧
    (∀ chunk t u, s.driver = .working .decoding chunk → loadChunk chunk s = .next t → hostCommand 0x04#8 t = .next u →
      u.err ≠ errMalformedFrame →
      step s = andThen (hostCommand 0x02#8 u) fun v => .next (v.withDriver (.writing .decoding))) ∧
    (s.driver = .writing d → (∀ k, s.writeFails.head? ≠ some (some k)) →
      ∃ t, step s = .next t ∧ t.driver = .reading d ∧ t.sink = s.sink ++ s.outBytes s.olen.toNat ∧
        t.source = s.source ∧ t.sourcePos = s.sourcePos ∧ SameBlock s t)

/-- A read failure is fatal and reported as InputStreamError, and a write failure as OutputStreamError, without a retry; they
are never recorded in the block (44_stream_drivers.md R205). -/
def Obligations.StreamFailuresEndDriver : Prop :=
  (∀ (s : State) (d : Direction) (rest : List Bool), s.driver = .reading d → s.readFails = true :: rest →
    ∃ t, step s = .next t ∧ t.driver = .finished .inputStreamError ∧ SameBlock s t ∧ t.sink = s.sink) ∧
  (∀ (s : State) (d : Direction) (k : Nat) (rest : List (Option Nat)),
    s.driver = .writing d → s.writeFails = some k :: rest →
    ∃ t, step s = .next t ∧ t.driver = .finished .outputStreamError ∧ SameBlock s t ∧
      t.sink = s.sink ++ s.validOut.take k)

/-- MalformedFrame from the `PARSE` of a chunk ends `performDecoding` at once, and the failing chunk writes nothing to the
sink (44_stream_drivers.md R206). -/
def Obligations.MalformedFrameEndsDecoding : Prop :=
  ∀ (s : State) (chunk : List Byte) (e : FrameError), s.driver = .working .decoding chunk → Ready s →
    chunk.length ≤ Config.hardware.chunk → framesParse chunk = .error e →
    ∃ t, step s = .next t ∧ t.driver = .finished .malformedFrame ∧ t.sink = s.sink ∧ SameOut s t ∧
      t.err = errMalformedFrame ∧ t.errOff.toNat = e.off ∧ t.errZero = e.zero

/-- Every terminal state of a driver is final: no step leaves it but a new invocation, and no step that a driver takes
leaves the state machine Reading, Encoding, Writing, Reading or one of its terminal states (44_stream_drivers.md R204). -/
def Obligations.DriverStateMachine : Prop :=
  ∀ s t : State, step s = .next t →
    (∀ r, s.driver = .finished r → t.driver = .finished r ∨ ∃ d rest, s.program = .perform d :: rest ∧ t.driver = .reading d) ∧
    (∀ d, s.driver = .reading d → (∃ chunk, chunk ≠ [] ∧ t.driver = .working d chunk) ∨ t.driver = .finished .ok ∨
      t.driver = .finished .inputStreamError) ∧
    (∀ d chunk, s.driver = .working d chunk → t.driver = .writing d ∨
      (d = .decoding ∧ t.driver = .finished .malformedFrame)) ∧
    (∀ d, s.driver = .writing d → t.driver = .reading d ∨ t.driver = .finished .outputStreamError)

/-- Output written to the sink stays there, whatever happens (44_stream_drivers.md R207). -/
def Obligations.SinkOnlyGrows : Prop :=
  ∀ s t : State, step s = .next t → ∃ more, t.sink = s.sink ++ more

/-- With no stream failure `performEncoding` returns `Ok` and appends `E`, of even length, to the sink
(44_stream_drivers.md R209), from any state of the block and for every `CHUNK` (00_scope.md R10); the machine of this hardware
is the one of its configuration. -/
def Obligations.EncodingDriverOutput : Prop :=
  Sys2Proof.core = coreAt Config.hardware ∧
  ∀ (cfg : Config) (s : State cfg) (rest : List (Event cfg)), s.driver.running = false → s.program = .perform .encoding :: rest →
    s.sourcePos = 0 → NoStreamFailure s →
    (compressed cfg s.source).length % 2 = 0 ∧
    ∃ k t, (coreAt cfg).run k s = .next t ∧ t.driver = .finished .ok ∧ t.program = rest ∧ t.err = errNone ∧
      t.sink = s.sink ++ compressed cfg s.source

/-- With no stream failure `performDecoding` of a stream of whole frames returns `Ok` and appends its expansion, whatever
chunking produced the stream (44_stream_drivers.md R210), for every `CHUNK`, each of which is even (00_scope.md R10). -/
def Obligations.WholeFramesDecode : Prop :=
  ∀ (cfg : Config) (s : State cfg) (rest : List (Event cfg)) (runs : List Run), s.driver.running = false →
    s.program = .perform .decoding :: rest → s.sourcePos = 0 → NoStreamFailure s →
    (∀ r ∈ runs, r.wf = true) → s.source = framesSerialize runs →
    ∃ k t, (coreAt cfg).run k s = .next t ∧ t.driver = .finished .ok ∧ t.program = rest ∧
      t.sink = s.sink ++ rleDecode runs

/-- The round trip of the streams (44_stream_drivers.md R211): `performDecoding` of what `performEncoding` wrote returns `Ok`
and appends exactly the source of the encoding, for every `CHUNK` (00_scope.md R10); and the round trip of the four
functions. -/
def Obligations.StreamRoundTrip : Prop :=
  (∀ b : List Byte, ∃ runs, framesParse (framesSerialize (rleEncode b)) = .ok runs ∧ rleDecode runs = b) ∧
  ∀ (cfg : Config) (s : State cfg) (rest : List (Event cfg)), s.driver.running = false → s.program = .perform .encoding :: rest →
    s.sourcePos = 0 → s.sink = [] → NoStreamFailure s →
    ∃ k t, (coreAt cfg).run k s = .next t ∧ t.driver = .finished .ok ∧
      ∀ (s' : State cfg) (rest' : List (Event cfg)), s'.driver.running = false → s'.program = .perform .decoding :: rest' →
        s'.sourcePos = 0 → NoStreamFailure s' → s'.source = t.sink →
        ∃ k' t', (coreAt cfg).run k' s' = .next t' ∧ t'.driver = .finished .ok ∧ t'.sink = s'.sink ++ s.source

/-- A driver runs until one of its terminal states, whatever the streams do, and meets no model fault
(44_stream_drivers.md R201, R215). The model's choices in the invariant, its hypothesis, are marked at `StepKeepsInvariant`. -/
def Obligations.DriverReturns : Prop :=
  ∀ s : State, Inv s → s.driver.running = true →
    ∃ k t r, Sys2Proof.core.run k s = .next t ∧ t.driver = .finished r
end

