-- ==== Sys2Proof/Laws/Config.lean ====
section
/-! SUPPORT. The sizes of a configuration, for arithmetic: what `Params.wf` says of it (00_scope.md R10, R12, R13). -/

namespace Sys2Proof

variable {cfg : Config}

/-- What a configuration that is accepted satisfies. -/
theorem Config.legal_parts (cfg : Config) :
    2 ≤ cfg.chunk ∧ cfg.chunk % 2 = 0 ∧ cfg.chunk < 2 ^ cfg.lenBits ∧ 16 ≤ cfg.nargBits ∧ cfg.chunk < 2 ^ cfg.nargBits ∧
      cfg.chunk / 2 * 255 < 2 ^ cfg.olenBits ∧ cfg.chunk ≤ 2 ^ cfg.offBits ∧
      (cfg.chunk = 512 → cfg.params = Params.default) := by
  have h := cfg.legal
  simp only [Params.wf, Bool.and_eq_true, decide_eq_true_eq] at h
  obtain ⟨⟨⟨⟨⟨⟨⟨h1, h2⟩, h3⟩, h4⟩, h5⟩, h6⟩, h7⟩, h8⟩ := h
  exact ⟨h1, h2, h3, h4, h5, h6, h7, h8⟩

/-- The only configuration with the `CHUNK` of this hardware is that of this hardware. -/
theorem Config.eq_hardware (h : cfg.chunk = 512) : cfg = Config.hardware := by
  have := cfg.legal_parts.2.2.2.2.2.2.2 h
  cases cfg
  simp_all

theorem Config.two_le_chunk (cfg : Config) : 2 ≤ cfg.chunk := cfg.legal_parts.1

theorem Config.chunk_even (cfg : Config) : cfg.chunk % 2 = 0 := cfg.legal_parts.2.1

theorem Config.runCap_eq_chunk (cfg : Config) : cfg.runCap = cfg.chunk := rfl

theorem Config.obufCap_eq (cfg : Config) : cfg.obufCap = cfg.chunk / 2 * 255 := rfl

/-- Twice as many bytes as there are runs fit `OBUF` (42_serializer.md R150). -/
theorem Config.two_mul_chunk_le_obufCap (cfg : Config) : 2 * cfg.chunk ≤ cfg.obufCap := by
  have := cfg.chunk_even
  rw [cfg.obufCap_eq]
  omega

/-- A length or an index of `IBUF` or `RUNBUF` survives its register. -/
theorem Config.toNat_len {cfg : Config} {n : Nat} (h : n ≤ cfg.chunk) : (BitVec.ofNat cfg.lenBits n).toNat = n := by
  rw [BitVec.toNat_ofNat, Nat.mod_eq_of_lt (Nat.lt_of_le_of_lt h cfg.legal_parts.2.2.1)]

/-- A length that `LOAD` sets survives `NARG`. -/
theorem Config.toNat_narg {cfg : Config} {n : Nat} (h : n ≤ cfg.chunk) : (BitVec.ofNat cfg.nargBits n).toNat = n := by
  rw [BitVec.toNat_ofNat, Nat.mod_eq_of_lt (Nat.lt_of_le_of_lt h cfg.legal_parts.2.2.2.2.1)]

/-- A length of `OBUF` survives its register. -/
theorem Config.toNat_olen {cfg : Config} {n : Nat} (h : n ≤ cfg.obufCap) : (BitVec.ofNat cfg.olenBits n).toNat = n := by
  rw [BitVec.toNat_ofNat, Nat.mod_eq_of_lt (Nat.lt_of_le_of_lt h cfg.legal_parts.2.2.2.2.2.1)]

/-- An offset in `IBUF` survives `ERR_OFF`. -/
theorem Config.toNat_off {cfg : Config} {n : Nat} (h : n < cfg.chunk) : (BitVec.ofNat cfg.offBits n).toNat = n := by
  rw [BitVec.toNat_ofNat, Nat.mod_eq_of_lt (Nat.lt_of_lt_of_le h cfg.legal_parts.2.2.2.2.2.2.1)]

/-- A position or an index in `IBUF` or `RUNBUF` counts on by 1 without wrapping. -/
theorem Config.toNat_len_succ {cfg : Config} {x : BitVec cfg.lenBits} (h : x.toNat < cfg.chunk) :
    (x + 1#cfg.lenBits).toNat = x.toNat + 1 := by
  have h1 := cfg.legal_parts.1
  rw [BitVec.toNat_add, cfg.toNat_len (n := 1) (by omega),
    Nat.mod_eq_of_lt (Nat.lt_of_le_of_lt (by omega) cfg.legal_parts.2.2.1)]

/-- An index in `OBUF` counts on by 1 without wrapping. -/
theorem Config.toNat_olen_succ {cfg : Config} {x : BitVec cfg.olenBits} (h : x.toNat < cfg.obufCap) :
    (x + 1#cfg.olenBits).toNat = x.toNat + 1 := by
  rw [BitVec.toNat_add, cfg.toNat_olen (n := 1) (by omega),
    Nat.mod_eq_of_lt (Nat.lt_of_le_of_lt (show x.toNat + 1 ≤ cfg.obufCap by omega) cfg.legal_parts.2.2.2.2.2.1)]

/-! ### This hardware -/

theorem Config.hardware_chunk : Config.hardware.chunk = 512 := rfl

theorem Config.hardware_runCap : Config.hardware.runCap = 512 := rfl

theorem Config.hardware_obufCap : Config.hardware.obufCap = 65280 := rfl

/-- The widths of 00_scope.md R13. -/
theorem Config.hardware_widths :
    Config.hardware.lenBits = 10 ∧ Config.hardware.nargBits = 16 ∧ Config.hardware.olenBits = 16 ∧
      Config.hardware.offBits = 9 := ⟨rfl, rfl, rfl, rfl⟩

end Sys2Proof
end

