-- ==== Sys2Proof/Laws/Memory.lean ====
section
/-! SUPPORT. What the buffer operations do: a read after a write, the canonical form, and equality of buffers. -/

namespace Sys2Proof.Machine

variable {α : Type}

@[simp] theorem Memory.get?_nil (i : Nat) : Memory.get? ([] : Memory α) i = none := rfl

theorem Memory.get?_cons (c : Nat × α) (m : Memory α) (i : Nat) :
    Memory.get? (c :: m) i = if c.1 = i then some c.2 else Memory.get? m i := rfl

/-- An index below every listed one is not listed. -/
theorem Memory.get?_eq_none {m : Memory α} {i : Nat} (h : ∀ c ∈ m, c.1 ≠ i) : Memory.get? m i = none := by
  induction m with
  | nil => rfl
  | cons c m ih =>
    rw [Memory.get?_cons, if_neg (h c (by simp)), ih fun d hd => h d (by simp [hd])]

/-- A value that is read is listed. -/
theorem Memory.mem_of_get? {m : Memory α} {i : Nat} {v : α} (h : Memory.get? m i = some v) : (i, v) ∈ m := by
  induction m with
  | nil => simp at h
  | cons c m ih =>
    rw [Memory.get?_cons] at h
    split at h
    case isTrue hc => obtain ⟨j, u⟩ := c; simp_all
    case isFalse => simp [ih h]

/-- In the canonical form, what is listed is what is read. -/
theorem Memory.get?_of_mem {m : Memory α} (hm : Memory.wf m) {c : Nat × α} (hc : c ∈ m) :
    Memory.get? m c.1 = some c.2 := by
  induction m with
  | nil => simp at hc
  | cons d m ih =>
    rw [Memory.get?_cons]
    obtain ⟨hd, hm⟩ := List.pairwise_cons.mp hm
    rcases List.mem_cons.mp hc with rfl | hc
    · simp
    · rw [if_neg (Nat.ne_of_lt (hd c hc)), ih hm hc]

/-- Two buffers in canonical form are equal when they read alike. -/
theorem Memory.ext {m m' : Memory α} (hm : Memory.wf m) (hm' : Memory.wf m')
    (h : ∀ i, Memory.get? m i = Memory.get? m' i) : m = m' := by
  induction m generalizing m' with
  | nil =>
    cases m' with
    | nil => rfl
    | cons d m' => have := h d.1; simp [Memory.get?_cons] at this
  | cons c m ih =>
    obtain ⟨hc, hm⟩ := List.pairwise_cons.mp hm
    cases m' with
    | nil => have := h c.1; simp [Memory.get?_cons] at this
    | cons d m' =>
      obtain ⟨hd, hm'⟩ := List.pairwise_cons.mp hm'
      have key : c.1 = d.1 := by
        have h1 := h c.1
        have h2 := h d.1
        rw [Memory.get?_cons, if_pos rfl, Memory.get?_cons] at h1
        rw [Memory.get?_cons, Memory.get?_cons, if_pos rfl] at h2
        by_contra hne
        rw [if_neg (Ne.symm hne)] at h1
        rw [if_neg hne] at h2
        have l1 := hd _ (Memory.mem_of_get? h1.symm)
        have l2 := hc _ (Memory.mem_of_get? h2)
        simp only at l1 l2
        omega
      have val : c.2 = d.2 := by
        have h1 := h c.1
        rw [Memory.get?_cons, if_pos rfl, Memory.get?_cons, if_pos key.symm] at h1
        exact Option.some.inj h1
      have rest : m = m' := by
        refine ih hm hm' fun i => ?_
        have hi := h i
        rw [Memory.get?_cons, Memory.get?_cons, ← key] at hi
        by_cases hci : c.1 = i
        · rw [Memory.get?_eq_none fun e he => by have := hc e he; omega,
            Memory.get?_eq_none fun e he => by have := hd e he; omega]
        · simpa [hci] using hi
      rw [rest]
      exact congrArg (· :: m') (Prod.ext key val)

/-- A read after a write: the value written there, and everything else as before. -/
theorem Memory.get?_set (m : Memory α) (i j : Nat) (v : α) :
    Memory.get? (Memory.set m i v) j = if i = j then some v else Memory.get? m j := by
  induction m with
  | nil => rfl
  | cons c m ih =>
    obtain ⟨k, u⟩ := c
    simp only [Memory.set]
    split
    · rw [Memory.get?_cons]
    · split
      · subst k
        simp only [Memory.get?_cons]
        split <;> simp_all
      · rw [Memory.get?_cons, ih, Memory.get?_cons]
        simp only
        by_cases h1 : k = j
        · subst h1; simp [*]
        · simp [h1]

@[simp] theorem Memory.get?_set_self (m : Memory α) (i : Nat) (v : α) :
    Memory.get? (Memory.set m i v) i = some v := by simp [Memory.get?_set]

theorem Memory.get?_set_ne (m : Memory α) {i j : Nat} (h : i ≠ j) (v : α) :
    Memory.get? (Memory.set m i v) j = Memory.get? m j := by simp [Memory.get?_set, h]

/-- What is listed after a write was written or was listed before. -/
theorem Memory.mem_set {m : Memory α} {i : Nat} {v : α} {c : Nat × α} (h : c ∈ Memory.set m i v) :
    c = (i, v) ∨ c ∈ m := by
  induction m with
  | nil => simpa [Memory.set] using h
  | cons d m ih =>
    obtain ⟨k, u⟩ := d
    simp only [Memory.set] at h
    split at h
    · simpa using h
    · split at h
      · rcases List.mem_cons.mp h with h | h
        · exact .inl h
        · exact .inr (by simp [h])
      · rcases List.mem_cons.mp h with h | h
        · exact .inr (by simp [h])
        · rcases ih h with h | h
          · exact .inl h
          · exact .inr (by simp [h])

/-- A write keeps the canonical form. -/
theorem Memory.set_wf {m : Memory α} (hm : Memory.wf m) (i : Nat) (v : α) : Memory.wf (Memory.set m i v) := by
  induction m with
  | nil => simp [Memory.set, Memory.wf]
  | cons d m ih =>
    obtain ⟨k, u⟩ := d
    obtain ⟨hd, hm⟩ := List.pairwise_cons.mp hm
    simp only [Memory.set]
    split
    case isTrue hlt =>
      refine List.pairwise_cons.mpr ⟨fun c hc => ?_, List.pairwise_cons.mpr ⟨hd, hm⟩⟩
      rcases List.mem_cons.mp hc with rfl | hc
      · exact hlt
      · have := hd c hc; simp only at this ⊢; omega
    case isFalse =>
      split
      case isTrue he => exact List.pairwise_cons.mpr ⟨fun c hc => by have := hd c hc; simp only at this ⊢; omega, hm⟩
      case isFalse =>
        refine List.pairwise_cons.mpr ⟨fun c hc => ?_, ih hm⟩
        rcases Memory.mem_set hc with rfl | hc
        · simp only; omega
        · exact hd c hc

theorem Memory.mem_cellsFrom {i : Nat} {vs : List α} {c : Nat × α} (h : c ∈ Memory.cellsFrom i vs) :
    i ≤ c.1 ∧ c.1 < i + vs.length ∧ c.2 ∈ vs := by
  induction vs generalizing i with
  | nil => simp [Memory.cellsFrom] at h
  | cons v vs ih =>
    rcases List.mem_cons.mp h with rfl | h
    · simp
    · obtain ⟨h1, h2, h3⟩ := ih h
      simp only [List.length_cons]
      exact ⟨by omega, by omega, by simp [h3]⟩

theorem Memory.cellsFrom_wf (i : Nat) (vs : List α) : Memory.wf (Memory.cellsFrom i vs) := by
  induction vs generalizing i with
  | nil => simp [Memory.cellsFrom, Memory.wf]
  | cons v vs ih =>
    refine List.pairwise_cons.mpr ⟨fun c hc => ?_, ih (i + 1)⟩
    have := (Memory.mem_cellsFrom hc).1
    simp only; omega

theorem Memory.get?_cellsFrom_append (i : Nat) (vs : List α) (m : Memory α) (j : Nat) :
    Memory.get? (Memory.cellsFrom i vs ++ m) j =
      if i ≤ j ∧ j < i + vs.length then vs[j - i]? else Memory.get? m j := by
  induction vs generalizing i with
  | nil => simp [Memory.cellsFrom]
  | cons v vs ih =>
    simp only [Memory.cellsFrom, List.cons_append, Memory.get?_cons, ih, List.length_cons]
    by_cases h : i = j
    · subst h; simp
    · by_cases h2 : i < j
      · obtain ⟨k, rfl⟩ : ∃ k, j = i + 1 + k := ⟨j - i - 1, by omega⟩
        have e1 : i + 1 + k - i = k + 1 := by omega
        have e2 : i + 1 + k - (i + 1) = k := by omega
        simp only [if_neg h, e1, e2, List.getElem?_cons_succ]
        by_cases h3 : k < vs.length
        · rw [if_pos (by omega), if_pos (by omega)]
        · rw [if_neg (by omega), if_neg (by omega)]
      · rw [if_neg h, if_neg (by omega), if_neg (by omega)]

theorem Memory.get?_filter_ge (m : Memory α) (n j : Nat) (h : n ≤ j) :
    Memory.get? (m.filter fun c => decide (n ≤ c.1)) j = Memory.get? m j := by
  induction m with
  | nil => rfl
  | cons c m ih =>
    by_cases hc : n ≤ c.1
    · rw [List.filter_cons_of_pos (by simpa using hc), Memory.get?_cons, Memory.get?_cons, ih]
    · rw [List.filter_cons_of_neg (by simpa using hc), ih, Memory.get?_cons, if_neg (by omega)]

/-- A read after a result was written from index 0: the result there, and everything else as before. -/
theorem Memory.get?_overwrite (m : Memory α) (vs : List α) (j : Nat) :
    Memory.get? (Memory.overwrite m vs) j = if j < vs.length then vs[j]? else Memory.get? m j := by
  rw [Memory.overwrite, Memory.get?_cellsFrom_append]
  simp only [Nat.zero_le, true_and, Nat.zero_add, Nat.sub_zero]
  split
  · rfl
  · rw [Memory.get?_filter_ge _ _ _ (by omega)]

theorem Memory.mem_overwrite {m : Memory α} {vs : List α} {c : Nat × α} (h : c ∈ Memory.overwrite m vs) :
    (c.1 < vs.length ∧ c.2 ∈ vs) ∨ c ∈ m := by
  rcases List.mem_append.mp h with h | h
  · have := Memory.mem_cellsFrom h
    exact .inl ⟨by omega, this.2.2⟩
  · exact .inr (List.mem_filter.mp h).1

/-- Writing a result keeps the canonical form. -/
theorem Memory.overwrite_wf {m : Memory α} (hm : Memory.wf m) (vs : List α) :
    Memory.wf (Memory.overwrite m vs) := by
  refine List.pairwise_append.mpr ⟨Memory.cellsFrom_wf 0 vs, hm.filter _, fun a ha b hb => ?_⟩
  have h1 := (Memory.mem_cellsFrom ha).2.1
  have h2 := of_decide_eq_true (List.mem_filter.mp hb).2
  omega

/-- Writing the same result twice is writing it once. -/
theorem Memory.overwrite_overwrite (m : Memory α) (vs : List α) :
    Memory.overwrite (Memory.overwrite m vs) vs = Memory.overwrite m vs := by
  have h1 : (Memory.cellsFrom 0 vs).filter (fun c => decide (vs.length ≤ c.1)) = [] := by
    refine List.filter_eq_nil_iff.mpr fun c hc => ?_
    have := (Memory.mem_cellsFrom hc).2.1
    simp only [decide_eq_true_eq]; omega
  simp only [Memory.overwrite, List.filter_append, h1, List.nil_append, List.filter_filter, Bool.and_self]

/-- Writing a result entry by entry: the next entry goes after those that stand already. -/
theorem Memory.set_overwrite {m : Memory α} (hm : Memory.wf m) (vs : List α) (v : α) :
    Memory.set (Memory.overwrite m vs) vs.length v = Memory.overwrite m (vs ++ [v]) := by
  refine Memory.ext (Memory.set_wf (Memory.overwrite_wf hm _) _ _) (Memory.overwrite_wf hm _) fun i => ?_
  rw [Memory.get?_set, Memory.get?_overwrite, Memory.get?_overwrite]
  simp only [List.length_append, List.length_singleton]
  by_cases h : vs.length = i
  · subst h; simp
  · rw [if_neg h]
    by_cases h2 : i < vs.length
    · rw [if_pos h2, if_pos (by omega), List.getElem?_append_left h2]
    · rw [if_neg h2, if_neg (by omega)]

/-- A result hides a shorter one. -/
theorem Memory.overwrite_of_le {m : Memory α} (hm : Memory.wf m) {vs ws : List α} (h : vs.length ≤ ws.length) :
    Memory.overwrite (Memory.overwrite m vs) ws = Memory.overwrite m ws := by
  refine Memory.ext (Memory.overwrite_wf (Memory.overwrite_wf hm _) _) (Memory.overwrite_wf hm _) fun i => ?_
  rw [Memory.get?_overwrite, Memory.get?_overwrite, Memory.get?_overwrite]
  split
  · rfl
  · rw [if_neg (by omega)]

end Sys2Proof.Machine
end

