-- ==== Sys2Proof/Laws/State.lean ====
section
/-! SUPPORT. One lemma per field per update of the state, each true by rfl, so that no proof unfolds an update. -/

namespace Sys2Proof.Machine

variable {cfg : Config}

/-! ### Accepting a command -/

section

variable (s : State cfg) (a : Activity)

@[simp] theorem State.accept_ilen : (s.accept a).ilen = s.ilen := rfl
@[simp] theorem State.accept_narg : (s.accept a).narg = s.narg := rfl
@[simp] theorem State.accept_rcount : (s.accept a).rcount = s.rcount := rfl
@[simp] theorem State.accept_olen : (s.accept a).olen = s.olen := rfl
@[simp] theorem State.accept_busy : (s.accept a).busy = true := rfl
@[simp] theorem State.accept_err : (s.accept a).err = s.err := rfl
@[simp] theorem State.accept_errOff : (s.accept a).errOff = s.errOff := rfl
@[simp] theorem State.accept_errZero : (s.accept a).errZero = s.errZero := rfl
@[simp] theorem State.accept_ibuf : (s.accept a).ibuf = s.ibuf := rfl
@[simp] theorem State.accept_runbuf : (s.accept a).runbuf = s.runbuf := rfl
@[simp] theorem State.accept_obuf : (s.accept a).obuf = s.obuf := rfl
@[simp] theorem State.accept_activity : (s.accept a).activity = a := rfl
@[simp] theorem State.accept_scanner : (s.accept a).scanner = if a = .running .encode then { n := BitVec.ofNat cfg.lenBits s.effLen } else {} := rfl
@[simp] theorem State.accept_expander : (s.accept a).expander = {} := rfl
@[simp] theorem State.accept_serializer : (s.accept a).serializer = {} := rfl
@[simp] theorem State.accept_deserializer : (s.accept a).deserializer = if a = .running .parse then { n := BitVec.ofNat cfg.lenBits s.effLen } else {} := rfl
@[simp] theorem State.accept_program : (s.accept a).program = s.program := rfl
@[simp] theorem State.accept_driver : (s.accept a).driver = s.driver := rfl
@[simp] theorem State.accept_source : (s.accept a).source = s.source := rfl
@[simp] theorem State.accept_sourcePos : (s.accept a).sourcePos = s.sourcePos := rfl
@[simp] theorem State.accept_sink : (s.accept a).sink = s.sink := rfl
@[simp] theorem State.accept_readFails : (s.accept a).readFails = s.readFails := rfl
@[simp] theorem State.accept_writeFails : (s.accept a).writeFails = s.writeFails := rfl
@[simp] theorem State.accept_resp : (s.accept a).resp = s.resp := rfl
@[simp] theorem State.accept_draws : (s.accept a).draws = s.draws := rfl
@[simp] theorem State.accept_epoch : (s.accept a).epoch = s.epoch := rfl

end

/-! ### Completing a command -/

section

variable (s : State cfg)

@[simp] theorem State.retire_ilen : (s.retire).ilen = s.ilen := rfl
@[simp] theorem State.retire_narg : (s.retire).narg = s.narg := rfl
@[simp] theorem State.retire_rcount : (s.retire).rcount = s.rcount := rfl
@[simp] theorem State.retire_olen : (s.retire).olen = s.olen := rfl
@[simp] theorem State.retire_busy : (s.retire).busy = false := rfl
@[simp] theorem State.retire_err : (s.retire).err = s.err := rfl
@[simp] theorem State.retire_errOff : (s.retire).errOff = s.errOff := rfl
@[simp] theorem State.retire_errZero : (s.retire).errZero = s.errZero := rfl
@[simp] theorem State.retire_ibuf : (s.retire).ibuf = s.ibuf := rfl
@[simp] theorem State.retire_runbuf : (s.retire).runbuf = s.runbuf := rfl
@[simp] theorem State.retire_obuf : (s.retire).obuf = s.obuf := rfl
@[simp] theorem State.retire_activity : (s.retire).activity = .idle := rfl
@[simp] theorem State.retire_scanner : (s.retire).scanner = {} := rfl
@[simp] theorem State.retire_expander : (s.retire).expander = {} := rfl
@[simp] theorem State.retire_serializer : (s.retire).serializer = {} := rfl
@[simp] theorem State.retire_deserializer : (s.retire).deserializer = {} := rfl
@[simp] theorem State.retire_program : (s.retire).program = s.program := rfl
@[simp] theorem State.retire_driver : (s.retire).driver = s.driver := rfl
@[simp] theorem State.retire_source : (s.retire).source = s.source := rfl
@[simp] theorem State.retire_sourcePos : (s.retire).sourcePos = s.sourcePos := rfl
@[simp] theorem State.retire_sink : (s.retire).sink = s.sink := rfl
@[simp] theorem State.retire_readFails : (s.retire).readFails = s.readFails := rfl
@[simp] theorem State.retire_writeFails : (s.retire).writeFails = s.writeFails := rfl
@[simp] theorem State.retire_resp : (s.retire).resp = s.resp := rfl
@[simp] theorem State.retire_draws : (s.retire).draws = s.draws := rfl
@[simp] theorem State.retire_epoch : (s.retire).epoch = s.epoch := rfl

end

/-! ### Taking an error -/

section

variable (s : State cfg) (e : BitVec 3) (off : BitVec cfg.offBits) (zero : Bool)

@[simp] theorem State.raise_ilen : (s.raise e off zero).ilen = s.ilen := rfl
@[simp] theorem State.raise_narg : (s.raise e off zero).narg = s.narg := rfl
@[simp] theorem State.raise_rcount : (s.raise e off zero).rcount = s.rcount := rfl
@[simp] theorem State.raise_olen : (s.raise e off zero).olen = s.olen := rfl
@[simp] theorem State.raise_busy : (s.raise e off zero).busy = false := rfl
@[simp] theorem State.raise_err : (s.raise e off zero).err = e := rfl
@[simp] theorem State.raise_errOff : (s.raise e off zero).errOff = off := rfl
@[simp] theorem State.raise_errZero : (s.raise e off zero).errZero = zero := rfl
@[simp] theorem State.raise_ibuf : (s.raise e off zero).ibuf = s.ibuf := rfl
@[simp] theorem State.raise_runbuf : (s.raise e off zero).runbuf = s.runbuf := rfl
@[simp] theorem State.raise_obuf : (s.raise e off zero).obuf = s.obuf := rfl
@[simp] theorem State.raise_activity : (s.raise e off zero).activity = .idle := rfl
@[simp] theorem State.raise_scanner : (s.raise e off zero).scanner = {} := rfl
@[simp] theorem State.raise_expander : (s.raise e off zero).expander = {} := rfl
@[simp] theorem State.raise_serializer : (s.raise e off zero).serializer = {} := rfl
@[simp] theorem State.raise_deserializer : (s.raise e off zero).deserializer = {} := rfl
@[simp] theorem State.raise_program : (s.raise e off zero).program = s.program := rfl
@[simp] theorem State.raise_driver : (s.raise e off zero).driver = s.driver := rfl
@[simp] theorem State.raise_source : (s.raise e off zero).source = s.source := rfl
@[simp] theorem State.raise_sourcePos : (s.raise e off zero).sourcePos = s.sourcePos := rfl
@[simp] theorem State.raise_sink : (s.raise e off zero).sink = s.sink := rfl
@[simp] theorem State.raise_readFails : (s.raise e off zero).readFails = s.readFails := rfl
@[simp] theorem State.raise_writeFails : (s.raise e off zero).writeFails = s.writeFails := rfl
@[simp] theorem State.raise_resp : (s.raise e off zero).resp = s.resp := rfl
@[simp] theorem State.raise_draws : (s.raise e off zero).draws = s.draws := rfl
@[simp] theorem State.raise_epoch : (s.raise e off zero).epoch = s.epoch := rfl

end

/-! ### The failure of a parse -/

section

variable (s : State cfg) (off : Nat) (zero : Bool)

@[simp] theorem State.failParse_ilen : (s.failParse off zero).ilen = s.ilen := rfl
@[simp] theorem State.failParse_narg : (s.failParse off zero).narg = s.narg := rfl
@[simp] theorem State.failParse_rcount : (s.failParse off zero).rcount = 0#cfg.lenBits := rfl
@[simp] theorem State.failParse_olen : (s.failParse off zero).olen = s.olen := rfl
@[simp] theorem State.failParse_busy : (s.failParse off zero).busy = false := rfl
@[simp] theorem State.failParse_err : (s.failParse off zero).err = errMalformedFrame := rfl
@[simp] theorem State.failParse_errOff : (s.failParse off zero).errOff = BitVec.ofNat cfg.offBits off := rfl
@[simp] theorem State.failParse_errZero : (s.failParse off zero).errZero = zero := rfl
@[simp] theorem State.failParse_ibuf : (s.failParse off zero).ibuf = s.ibuf := rfl
@[simp] theorem State.failParse_runbuf : (s.failParse off zero).runbuf = [] := rfl
@[simp] theorem State.failParse_obuf : (s.failParse off zero).obuf = s.obuf := rfl
@[simp] theorem State.failParse_activity : (s.failParse off zero).activity = .idle := rfl
@[simp] theorem State.failParse_scanner : (s.failParse off zero).scanner = {} := rfl
@[simp] theorem State.failParse_expander : (s.failParse off zero).expander = {} := rfl
@[simp] theorem State.failParse_serializer : (s.failParse off zero).serializer = {} := rfl
@[simp] theorem State.failParse_deserializer : (s.failParse off zero).deserializer = {} := rfl
@[simp] theorem State.failParse_program : (s.failParse off zero).program = s.program := rfl
@[simp] theorem State.failParse_driver : (s.failParse off zero).driver = s.driver := rfl
@[simp] theorem State.failParse_source : (s.failParse off zero).source = s.source := rfl
@[simp] theorem State.failParse_sourcePos : (s.failParse off zero).sourcePos = s.sourcePos := rfl
@[simp] theorem State.failParse_sink : (s.failParse off zero).sink = s.sink := rfl
@[simp] theorem State.failParse_readFails : (s.failParse off zero).readFails = s.readFails := rfl
@[simp] theorem State.failParse_writeFails : (s.failParse off zero).writeFails = s.writeFails := rfl
@[simp] theorem State.failParse_resp : (s.failParse off zero).resp = s.resp := rfl
@[simp] theorem State.failParse_draws : (s.failParse off zero).draws = s.draws := rfl
@[simp] theorem State.failParse_epoch : (s.failParse off zero).epoch = s.epoch := rfl

end

/-! ### Reset -/

section

variable (s : State cfg)

@[simp] theorem State.resetBlock_ilen : (s.resetBlock).ilen = 0#cfg.lenBits := rfl
@[simp] theorem State.resetBlock_narg : (s.resetBlock).narg = 0#cfg.nargBits := rfl
@[simp] theorem State.resetBlock_rcount : (s.resetBlock).rcount = 0#cfg.lenBits := rfl
@[simp] theorem State.resetBlock_olen : (s.resetBlock).olen = 0#cfg.olenBits := rfl
@[simp] theorem State.resetBlock_busy : (s.resetBlock).busy = false := rfl
@[simp] theorem State.resetBlock_err : (s.resetBlock).err = errNone := rfl
@[simp] theorem State.resetBlock_errOff : (s.resetBlock).errOff = 0#cfg.offBits := rfl
@[simp] theorem State.resetBlock_errZero : (s.resetBlock).errZero = false := rfl
@[simp] theorem State.resetBlock_ibuf : (s.resetBlock).ibuf = [] := rfl
@[simp] theorem State.resetBlock_runbuf : (s.resetBlock).runbuf = [] := rfl
@[simp] theorem State.resetBlock_obuf : (s.resetBlock).obuf = [] := rfl
@[simp] theorem State.resetBlock_activity : (s.resetBlock).activity = .idle := rfl
@[simp] theorem State.resetBlock_scanner : (s.resetBlock).scanner = {} := rfl
@[simp] theorem State.resetBlock_expander : (s.resetBlock).expander = {} := rfl
@[simp] theorem State.resetBlock_serializer : (s.resetBlock).serializer = {} := rfl
@[simp] theorem State.resetBlock_deserializer : (s.resetBlock).deserializer = {} := rfl
@[simp] theorem State.resetBlock_program : (s.resetBlock).program = s.program := rfl
@[simp] theorem State.resetBlock_driver : (s.resetBlock).driver = s.driver := rfl
@[simp] theorem State.resetBlock_source : (s.resetBlock).source = s.source := rfl
@[simp] theorem State.resetBlock_sourcePos : (s.resetBlock).sourcePos = s.sourcePos := rfl
@[simp] theorem State.resetBlock_sink : (s.resetBlock).sink = s.sink := rfl
@[simp] theorem State.resetBlock_readFails : (s.resetBlock).readFails = s.readFails := rfl
@[simp] theorem State.resetBlock_writeFails : (s.resetBlock).writeFails = s.writeFails := rfl
@[simp] theorem State.resetBlock_resp : (s.resetBlock).resp = s.resp := rfl
@[simp] theorem State.resetBlock_draws : (s.resetBlock).draws = s.draws := rfl
@[simp] theorem State.resetBlock_epoch : (s.resetBlock).epoch = s.epoch + 1 := rfl

end

/-! ### The answer of a host read -/

section

variable (s : State cfg) (r : Response cfg)

@[simp] theorem State.answer_ilen : (s.answer r).ilen = s.ilen := rfl
@[simp] theorem State.answer_narg : (s.answer r).narg = s.narg := rfl
@[simp] theorem State.answer_rcount : (s.answer r).rcount = s.rcount := rfl
@[simp] theorem State.answer_olen : (s.answer r).olen = s.olen := rfl
@[simp] theorem State.answer_busy : (s.answer r).busy = s.busy := rfl
@[simp] theorem State.answer_err : (s.answer r).err = s.err := rfl
@[simp] theorem State.answer_errOff : (s.answer r).errOff = s.errOff := rfl
@[simp] theorem State.answer_errZero : (s.answer r).errZero = s.errZero := rfl
@[simp] theorem State.answer_ibuf : (s.answer r).ibuf = s.ibuf := rfl
@[simp] theorem State.answer_runbuf : (s.answer r).runbuf = s.runbuf := rfl
@[simp] theorem State.answer_obuf : (s.answer r).obuf = s.obuf := rfl
@[simp] theorem State.answer_activity : (s.answer r).activity = s.activity := rfl
@[simp] theorem State.answer_scanner : (s.answer r).scanner = s.scanner := rfl
@[simp] theorem State.answer_expander : (s.answer r).expander = s.expander := rfl
@[simp] theorem State.answer_serializer : (s.answer r).serializer = s.serializer := rfl
@[simp] theorem State.answer_deserializer : (s.answer r).deserializer = s.deserializer := rfl
@[simp] theorem State.answer_program : (s.answer r).program = s.program := rfl
@[simp] theorem State.answer_driver : (s.answer r).driver = s.driver := rfl
@[simp] theorem State.answer_source : (s.answer r).source = s.source := rfl
@[simp] theorem State.answer_sourcePos : (s.answer r).sourcePos = s.sourcePos := rfl
@[simp] theorem State.answer_sink : (s.answer r).sink = s.sink := rfl
@[simp] theorem State.answer_readFails : (s.answer r).readFails = s.readFails := rfl
@[simp] theorem State.answer_writeFails : (s.answer r).writeFails = s.writeFails := rfl
@[simp] theorem State.answer_resp : (s.answer r).resp = some r := rfl
@[simp] theorem State.answer_draws : (s.answer r).draws = s.draws := rfl
@[simp] theorem State.answer_epoch : (s.answer r).epoch = s.epoch := rfl

end

/-! ### The answer of a host read that draws -/

section

variable (s : State cfg) (r : Nat → Response cfg)

@[simp] theorem State.answerDraw_ilen : (s.answerDraw r).ilen = s.ilen := rfl
@[simp] theorem State.answerDraw_narg : (s.answerDraw r).narg = s.narg := rfl
@[simp] theorem State.answerDraw_rcount : (s.answerDraw r).rcount = s.rcount := rfl
@[simp] theorem State.answerDraw_olen : (s.answerDraw r).olen = s.olen := rfl
@[simp] theorem State.answerDraw_busy : (s.answerDraw r).busy = s.busy := rfl
@[simp] theorem State.answerDraw_err : (s.answerDraw r).err = s.err := rfl
@[simp] theorem State.answerDraw_errOff : (s.answerDraw r).errOff = s.errOff := rfl
@[simp] theorem State.answerDraw_errZero : (s.answerDraw r).errZero = s.errZero := rfl
@[simp] theorem State.answerDraw_ibuf : (s.answerDraw r).ibuf = s.ibuf := rfl
@[simp] theorem State.answerDraw_runbuf : (s.answerDraw r).runbuf = s.runbuf := rfl
@[simp] theorem State.answerDraw_obuf : (s.answerDraw r).obuf = s.obuf := rfl
@[simp] theorem State.answerDraw_activity : (s.answerDraw r).activity = s.activity := rfl
@[simp] theorem State.answerDraw_scanner : (s.answerDraw r).scanner = s.scanner := rfl
@[simp] theorem State.answerDraw_expander : (s.answerDraw r).expander = s.expander := rfl
@[simp] theorem State.answerDraw_serializer : (s.answerDraw r).serializer = s.serializer := rfl
@[simp] theorem State.answerDraw_deserializer : (s.answerDraw r).deserializer = s.deserializer := rfl
@[simp] theorem State.answerDraw_program : (s.answerDraw r).program = s.program := rfl
@[simp] theorem State.answerDraw_driver : (s.answerDraw r).driver = s.driver := rfl
@[simp] theorem State.answerDraw_source : (s.answerDraw r).source = s.source := rfl
@[simp] theorem State.answerDraw_sourcePos : (s.answerDraw r).sourcePos = s.sourcePos := rfl
@[simp] theorem State.answerDraw_sink : (s.answerDraw r).sink = s.sink := rfl
@[simp] theorem State.answerDraw_readFails : (s.answerDraw r).readFails = s.readFails := rfl
@[simp] theorem State.answerDraw_writeFails : (s.answerDraw r).writeFails = s.writeFails := rfl
@[simp] theorem State.answerDraw_resp : (s.answerDraw r).resp = some (r s.draws) := rfl
@[simp] theorem State.answerDraw_draws : (s.answerDraw r).draws = s.draws + 1 := rfl
@[simp] theorem State.answerDraw_epoch : (s.answerDraw r).epoch = s.epoch := rfl

end

/-! ### The program -/

section

variable (s : State cfg) (p : List (Event cfg))

@[simp] theorem State.withProgram_ilen : (s.withProgram p).ilen = s.ilen := rfl
@[simp] theorem State.withProgram_narg : (s.withProgram p).narg = s.narg := rfl
@[simp] theorem State.withProgram_rcount : (s.withProgram p).rcount = s.rcount := rfl
@[simp] theorem State.withProgram_olen : (s.withProgram p).olen = s.olen := rfl
@[simp] theorem State.withProgram_busy : (s.withProgram p).busy = s.busy := rfl
@[simp] theorem State.withProgram_err : (s.withProgram p).err = s.err := rfl
@[simp] theorem State.withProgram_errOff : (s.withProgram p).errOff = s.errOff := rfl
@[simp] theorem State.withProgram_errZero : (s.withProgram p).errZero = s.errZero := rfl
@[simp] theorem State.withProgram_ibuf : (s.withProgram p).ibuf = s.ibuf := rfl
@[simp] theorem State.withProgram_runbuf : (s.withProgram p).runbuf = s.runbuf := rfl
@[simp] theorem State.withProgram_obuf : (s.withProgram p).obuf = s.obuf := rfl
@[simp] theorem State.withProgram_activity : (s.withProgram p).activity = s.activity := rfl
@[simp] theorem State.withProgram_scanner : (s.withProgram p).scanner = s.scanner := rfl
@[simp] theorem State.withProgram_expander : (s.withProgram p).expander = s.expander := rfl
@[simp] theorem State.withProgram_serializer : (s.withProgram p).serializer = s.serializer := rfl
@[simp] theorem State.withProgram_deserializer : (s.withProgram p).deserializer = s.deserializer := rfl
@[simp] theorem State.withProgram_program : (s.withProgram p).program = p := rfl
@[simp] theorem State.withProgram_driver : (s.withProgram p).driver = s.driver := rfl
@[simp] theorem State.withProgram_source : (s.withProgram p).source = s.source := rfl
@[simp] theorem State.withProgram_sourcePos : (s.withProgram p).sourcePos = s.sourcePos := rfl
@[simp] theorem State.withProgram_sink : (s.withProgram p).sink = s.sink := rfl
@[simp] theorem State.withProgram_readFails : (s.withProgram p).readFails = s.readFails := rfl
@[simp] theorem State.withProgram_writeFails : (s.withProgram p).writeFails = s.writeFails := rfl
@[simp] theorem State.withProgram_resp : (s.withProgram p).resp = s.resp := rfl
@[simp] theorem State.withProgram_draws : (s.withProgram p).draws = s.draws := rfl
@[simp] theorem State.withProgram_epoch : (s.withProgram p).epoch = s.epoch := rfl

end

/-! ### The driver -/

section

variable (s : State cfg) (d : Driver)

@[simp] theorem State.withDriver_ilen : (s.withDriver d).ilen = s.ilen := rfl
@[simp] theorem State.withDriver_narg : (s.withDriver d).narg = s.narg := rfl
@[simp] theorem State.withDriver_rcount : (s.withDriver d).rcount = s.rcount := rfl
@[simp] theorem State.withDriver_olen : (s.withDriver d).olen = s.olen := rfl
@[simp] theorem State.withDriver_busy : (s.withDriver d).busy = s.busy := rfl
@[simp] theorem State.withDriver_err : (s.withDriver d).err = s.err := rfl
@[simp] theorem State.withDriver_errOff : (s.withDriver d).errOff = s.errOff := rfl
@[simp] theorem State.withDriver_errZero : (s.withDriver d).errZero = s.errZero := rfl
@[simp] theorem State.withDriver_ibuf : (s.withDriver d).ibuf = s.ibuf := rfl
@[simp] theorem State.withDriver_runbuf : (s.withDriver d).runbuf = s.runbuf := rfl
@[simp] theorem State.withDriver_obuf : (s.withDriver d).obuf = s.obuf := rfl
@[simp] theorem State.withDriver_activity : (s.withDriver d).activity = s.activity := rfl
@[simp] theorem State.withDriver_scanner : (s.withDriver d).scanner = s.scanner := rfl
@[simp] theorem State.withDriver_expander : (s.withDriver d).expander = s.expander := rfl
@[simp] theorem State.withDriver_serializer : (s.withDriver d).serializer = s.serializer := rfl
@[simp] theorem State.withDriver_deserializer : (s.withDriver d).deserializer = s.deserializer := rfl
@[simp] theorem State.withDriver_program : (s.withDriver d).program = s.program := rfl
@[simp] theorem State.withDriver_driver : (s.withDriver d).driver = d := rfl
@[simp] theorem State.withDriver_source : (s.withDriver d).source = s.source := rfl
@[simp] theorem State.withDriver_sourcePos : (s.withDriver d).sourcePos = s.sourcePos := rfl
@[simp] theorem State.withDriver_sink : (s.withDriver d).sink = s.sink := rfl
@[simp] theorem State.withDriver_readFails : (s.withDriver d).readFails = s.readFails := rfl
@[simp] theorem State.withDriver_writeFails : (s.withDriver d).writeFails = s.writeFails := rfl
@[simp] theorem State.withDriver_resp : (s.withDriver d).resp = s.resp := rfl
@[simp] theorem State.withDriver_draws : (s.withDriver d).draws = s.draws := rfl
@[simp] theorem State.withDriver_epoch : (s.withDriver d).epoch = s.epoch := rfl

end

/-! ### Placing a command -/

section

variable (s : State) (nbits w : Nat)

@[simp] theorem State.withFetchWord_ilen : (s.withFetchWord nbits w).ilen = s.ilen := rfl
@[simp] theorem State.withFetchWord_narg : (s.withFetchWord nbits w).narg = s.narg := rfl
@[simp] theorem State.withFetchWord_rcount : (s.withFetchWord nbits w).rcount = s.rcount := rfl
@[simp] theorem State.withFetchWord_olen : (s.withFetchWord nbits w).olen = s.olen := rfl
@[simp] theorem State.withFetchWord_busy : (s.withFetchWord nbits w).busy = s.busy := rfl
@[simp] theorem State.withFetchWord_err : (s.withFetchWord nbits w).err = s.err := rfl
@[simp] theorem State.withFetchWord_errOff : (s.withFetchWord nbits w).errOff = s.errOff := rfl
@[simp] theorem State.withFetchWord_errZero : (s.withFetchWord nbits w).errZero = s.errZero := rfl
@[simp] theorem State.withFetchWord_ibuf : (s.withFetchWord nbits w).ibuf = s.ibuf := rfl
@[simp] theorem State.withFetchWord_runbuf : (s.withFetchWord nbits w).runbuf = s.runbuf := rfl
@[simp] theorem State.withFetchWord_obuf : (s.withFetchWord nbits w).obuf = s.obuf := rfl
@[simp] theorem State.withFetchWord_activity : (s.withFetchWord nbits w).activity = s.activity := rfl
@[simp] theorem State.withFetchWord_scanner : (s.withFetchWord nbits w).scanner = s.scanner := rfl
@[simp] theorem State.withFetchWord_expander : (s.withFetchWord nbits w).expander = s.expander := rfl
@[simp] theorem State.withFetchWord_serializer : (s.withFetchWord nbits w).serializer = s.serializer := rfl
@[simp] theorem State.withFetchWord_deserializer : (s.withFetchWord nbits w).deserializer = s.deserializer := rfl
@[simp] theorem State.withFetchWord_program : (s.withFetchWord nbits w).program = .command (BitVec.ofNat 8 (w % 2 ^ nbits)) :: s.program := rfl
@[simp] theorem State.withFetchWord_driver : (s.withFetchWord nbits w).driver = .inactive := rfl
@[simp] theorem State.withFetchWord_source : (s.withFetchWord nbits w).source = s.source := rfl
@[simp] theorem State.withFetchWord_sourcePos : (s.withFetchWord nbits w).sourcePos = s.sourcePos := rfl
@[simp] theorem State.withFetchWord_sink : (s.withFetchWord nbits w).sink = s.sink := rfl
@[simp] theorem State.withFetchWord_readFails : (s.withFetchWord nbits w).readFails = s.readFails := rfl
@[simp] theorem State.withFetchWord_writeFails : (s.withFetchWord nbits w).writeFails = s.writeFails := rfl
@[simp] theorem State.withFetchWord_resp : (s.withFetchWord nbits w).resp = s.resp := rfl
@[simp] theorem State.withFetchWord_draws : (s.withFetchWord nbits w).draws = s.draws := rfl
@[simp] theorem State.withFetchWord_epoch : (s.withFetchWord nbits w).epoch = s.epoch := rfl

end

/-! ### The program, taken and put back -/

@[simp] theorem State.withProgram_withProgram (s : State cfg) (p q : List (Event cfg)) :
    (s.withProgram p).withProgram q = s.withProgram q := rfl

theorem State.withProgram_self {s : State cfg} {p : List (Event cfg)} (h : s.program = p) : s.withProgram p = s := by
  subst h; rfl

end Sys2Proof.Machine
end

