-- ==== Sys2Proof/Laws/Ops.lean ====
section
/-! SUPPORT. What each shared operation can do, said once: sequencing, buffer reads, and the writes of results. -/

namespace Sys2Proof.Machine

variable {cfg : Config}

/-! ### Sequencing -/

@[simp] theorem andThen_next (s : State cfg) (k : State cfg → Result cfg) : andThen (.next s) k = k s := rfl

@[simp] theorem andThen_fault (f : Fault cfg) (k : State cfg → Result cfg) : andThen (.fault f) k = .fault f := rfl

@[simp] theorem andThen_refused (e : Refusal) (k : State cfg → Result cfg) : andThen (.refused e) k = .refused e := rfl

/-- A sequence ends in a state exactly when both parts do. -/
theorem andThen_eq_next {r : Result cfg} {k : State cfg → Result cfg} {t : State cfg} :
    andThen r k = .next t ↔ ∃ s, r = .next s ∧ k s = .next t := by
  cases r <;> simp [andThen]

@[simp] theorem withValue_ok {α : Type} (a : α) (k : α → Result cfg) : withValue (.ok a) k = k a := rfl

@[simp] theorem withValue_error {α : Type} (f : Fault cfg) (k : α → Result cfg) : withValue (.error f) k = .fault f := rfl

/-- A use of a buffer access ends in a state exactly when the access succeeds and the rest does. -/
theorem withValue_eq_next {α : Type} {v : Except (Fault cfg) α} {k : α → Result cfg} {t : State cfg} :
    withValue v k = .next t ↔ ∃ a, v = .ok a ∧ k a = .next t := by
  cases v <;> simp [withValue]

/-! ### Reads of the buffers -/

@[simp] theorem State.length_inBytes (s : State cfg) (n : Nat) : (s.inBytes n).length = n := by simp [State.inBytes]

@[simp] theorem State.length_runs (s : State cfg) (n : Nat) : (s.runs n).length = n := by simp [State.runs]

@[simp] theorem State.length_outBytes (s : State cfg) (n : Nat) : (s.outBytes n).length = n := by simp [State.outBytes]

@[simp] theorem State.length_validRuns (s : State cfg) : s.validRuns.length = s.rcount.toNat := by simp [State.validRuns]

@[simp] theorem State.length_validOut (s : State cfg) : s.validOut.length = s.olen.toNat := by simp [State.validOut]

theorem State.getElem?_inBytes (s : State cfg) {n i : Nat} (h : i < n) : (s.inBytes n)[i]? = some (s.inByte i) := by
  simp [State.inBytes, h]

theorem State.getElem?_runs (s : State cfg) {n i : Nat} (h : i < n) : (s.runs n)[i]? = some (s.runAt i) := by
  simp [State.runs, h]

theorem State.getElem?_outBytes (s : State cfg) {n i : Nat} (h : i < n) : (s.outBytes n)[i]? = some (s.outByte i) := by
  simp [State.outBytes, h]

/-- One more run is read at the end. -/
theorem State.runs_succ (s : State cfg) (n : Nat) : s.runs (n + 1) = s.runs n ++ [s.runAt n] := by
  simp [State.runs, List.range_succ]

/-- One more byte is read at the end. -/
theorem State.outBytes_succ (s : State cfg) (n : Nat) : s.outBytes (n + 1) = s.outBytes n ++ [s.outByte n] := by
  simp [State.outBytes, List.range_succ]

theorem State.inByte_of_get? {s : State cfg} {i : Nat} {v : Byte} (h : Memory.get? s.ibuf i = some v) : s.inByte i = v := by
  simp [State.inByte, h]

theorem State.runAt_of_get? {s : State cfg} {k : Nat} {r : Run} (h : Memory.get? s.runbuf k = some r) : s.runAt k = r := by
  simp [State.runAt, h]

theorem State.outByte_of_get? {s : State cfg} {i : Nat} {v : Byte} (h : Memory.get? s.obuf i = some v) :
    s.outByte i = v := by
  simp [State.outByte, h]

/-- Reads of `IBUF` agree when the bytes do. -/
theorem State.inBytes_congr {s t : State cfg} {n : Nat} (h : ∀ i < n, s.inByte i = t.inByte i) :
    s.inBytes n = t.inBytes n := by
  refine List.map_congr_left fun i hi => h i (by simpa using hi)

/-- Reads of `RUNBUF` agree when the runs do. -/
theorem State.runs_congr {s t : State cfg} {n : Nat} (h : ∀ i < n, s.runAt i = t.runAt i) : s.runs n = t.runs n := by
  refine List.map_congr_left fun i hi => h i (by simpa using hi)

/-- What was written to `IBUF` from index 0 is what is read there. -/
theorem State.inBytes_eq {s : State cfg} {xs : List Byte} (h : ∀ i, i < xs.length → Memory.get? s.ibuf i = xs[i]?) :
    s.inBytes xs.length = xs := by
  refine List.ext_getElem? fun i => ?_
  by_cases hi : i < xs.length
  · rw [State.getElem?_inBytes s hi, State.inByte_of_get? (v := xs[i]) (by rw [h i hi]; simp)]
    simp
  · rw [List.getElem?_eq_none (by simpa using hi), List.getElem?_eq_none (by omega)]

/-- What was written to `RUNBUF` from index 0 is what is read there. -/
theorem State.runs_eq {s : State cfg} {rs : List Run} (h : ∀ k, k < rs.length → Memory.get? s.runbuf k = rs[k]?) :
    s.runs rs.length = rs := by
  refine List.ext_getElem? fun i => ?_
  by_cases hi : i < rs.length
  · rw [State.getElem?_runs s hi, State.runAt_of_get? (r := rs[i]) (by rw [h i hi]; simp)]
    simp
  · rw [List.getElem?_eq_none (by simpa using hi), List.getElem?_eq_none (by omega)]

/-- What was written to `OBUF` from index 0 is what is read there. -/
theorem State.outBytes_eq {s : State cfg} {xs : List Byte} (h : ∀ i, i < xs.length → Memory.get? s.obuf i = xs[i]?) :
    s.outBytes xs.length = xs := by
  refine List.ext_getElem? fun i => ?_
  by_cases hi : i < xs.length
  · rw [State.getElem?_outBytes s hi, State.outByte_of_get? (v := xs[i]) (by rw [h i hi]; simp)]
    simp
  · rw [List.getElem?_eq_none (by simpa using hi), List.getElem?_eq_none (by omega)]

/-- A read of `IBUF[0..n)` succeeds exactly when the buffer has that many bytes. -/
theorem State.readIn_eq_ok {s : State cfg} {n : Nat} {xs : List Byte} :
    s.readIn n = .ok xs ↔ n ≤ cfg.chunk ∧ xs = s.inBytes n := by
  unfold State.readIn
  split <;> simp_all [eq_comm]

/-- A read of `RUNBUF[0..RCOUNT)` succeeds exactly when the buffer has that many runs. -/
theorem State.readRuns_eq_ok {s : State cfg} {rs : List Run} :
    s.readRuns = .ok rs ↔ s.rcount.toNat ≤ cfg.runCap ∧ rs = s.validRuns := by
  unfold State.readRuns
  split <;> simp_all [eq_comm]

theorem State.fetchIn_eq_ok {s : State cfg} {i : Nat} {v : Byte} :
    s.fetchIn i = .ok v ↔ i < cfg.chunk ∧ v = s.inByte i := by
  unfold State.fetchIn
  split <;> simp_all [eq_comm]

theorem State.fetchRun_eq_ok {s : State cfg} {k : Nat} {r : Run} :
    s.fetchRun k = .ok r ↔ k < cfg.runCap ∧ r = s.runAt k := by
  unfold State.fetchRun
  split <;> simp_all [eq_comm]

theorem State.storeRun_eq_ok {s t : State cfg} {k : Nat} {r : Run} :
    s.storeRun k r = .ok t ↔ k < cfg.runCap ∧ t = { s with runbuf := Memory.set s.runbuf k r } := by
  unfold State.storeRun
  split <;> simp_all [eq_comm]

theorem State.storeOut_eq_ok {s t : State cfg} {i : Nat} {v : Byte} :
    s.storeOut i v = .ok t ↔ i < cfg.obufCap ∧ t = { s with obuf := Memory.set s.obuf i v } := by
  unfold State.storeOut
  split <;> simp_all [eq_comm]

/-! ### Writes of results -/

/-- Writing runs succeeds exactly when they fit `RUNBUF`, and changes `RUNBUF` and `RCOUNT` alone. -/
theorem State.writeRuns_eq_ok {s t : State cfg} {rs : List Run} :
    s.writeRuns rs = .ok t ↔ rs.length ≤ cfg.runCap ∧
      t = { s with runbuf := Memory.overwrite s.runbuf rs, rcount := BitVec.ofNat cfg.lenBits rs.length } := by
  unfold State.writeRuns
  split <;> simp_all [eq_comm]

/-- Writing bytes succeeds exactly when they fit `OBUF`, and changes `OBUF` and `OLEN` alone. -/
theorem State.writeOut_eq_ok {s t : State cfg} {out : List Byte} :
    s.writeOut out = .ok t ↔ out.length ≤ cfg.obufCap ∧
      t = { s with obuf := Memory.overwrite s.obuf out, olen := BitVec.ofNat cfg.olenBits out.length } := by
  unfold State.writeOut
  split <;> simp_all [eq_comm]

/-- The runs that were written are the valid runs. -/
theorem State.validRuns_of_overwrite {s : State cfg} {m : Memory Run} {rs : List Run}
    (hb : s.runbuf = Memory.overwrite m rs) (hc : s.rcount.toNat = rs.length) : s.validRuns = rs := by
  rw [State.validRuns, hc]
  refine State.runs_eq fun k hk => ?_
  rw [hb, Memory.get?_overwrite, if_pos hk]

/-- The bytes that were written are the valid output. -/
theorem State.validOut_of_overwrite {s : State cfg} {m : Memory Byte} {out : List Byte}
    (hb : s.obuf = Memory.overwrite m out) (hc : s.olen.toNat = out.length) : s.validOut = out := by
  rw [State.validOut, hc]
  refine State.outBytes_eq fun k hk => ?_
  rw [hb, Memory.get?_overwrite, if_pos hk]

/-- Completing twice is completing once. -/
@[simp] theorem State.retire_retire (s : State cfg) : s.retire.retire = s.retire := rfl

/-- Completion forgets that the command was accepted. -/
@[simp] theorem State.retire_accept (s : State cfg) (a : Activity) : (s.accept a).retire = s.retire := rfl

/-! ### The buffers after power-on -/

theorem State.powerOn_ibuf_wf : Memory.wf (State.powerOn (cfg := cfg)).ibuf := List.Pairwise.nil

theorem State.powerOn_runbuf_wf : Memory.wf (State.powerOn (cfg := cfg)).runbuf := List.Pairwise.nil

theorem State.powerOn_obuf_wf : Memory.wf (State.powerOn (cfg := cfg)).obuf := List.Pairwise.nil

theorem State.reset_ibuf_wf : Memory.wf State.reset.ibuf := List.Pairwise.nil

theorem State.reset_runbuf_wf : Memory.wf State.reset.runbuf := List.Pairwise.nil

theorem State.reset_obuf_wf : Memory.wf State.reset.obuf := List.Pairwise.nil

end Sys2Proof.Machine
end

