-- ==== Sys2Proof/Laws/Codec.lean ====
section
/-! SUPPORT. The small lemmas of the four transforms, by the recursion of their definitions. -/

namespace Sys2Proof.Machine

/-! ### The run scanner and count limiter -/

@[simp] theorem rleEncode_nil : rleEncode [] = [] := rfl

theorem rleEncode_cons (x : Byte) (xs : List Byte) : rleEncode (x :: xs) = rleFrom 1#8 x xs := rfl

theorem rleFrom_nil (c : BitVec 8) (b : Byte) : rleFrom c b [] = [{ count := c, byte := b }] := rfl

/-- An open run is extended by an equal byte while its count is below 255. -/
theorem rleFrom_extend {c : BitVec 8} {b x : Byte} (xs : List Byte) (h : x = b ∧ c < 255#8) :
    rleFrom c b (x :: xs) = rleFrom (c + 1#8) b xs := by
  rw [rleFrom, if_pos h]

/-- Any other byte closes it and starts the next run. -/
theorem rleFrom_close {c : BitVec 8} {b x : Byte} (xs : List Byte) (h : ¬ (x = b ∧ c < 255#8)) :
    rleFrom c b (x :: xs) = { count := c, byte := b } :: rleEncode (x :: xs) := by
  rw [rleFrom, if_neg h, rleEncode_cons]

/-- An open run always becomes a run. -/
theorem rleFrom_ne_nil (c : BitVec 8) (b : Byte) (xs : List Byte) : rleFrom c b xs ≠ [] := by
  induction xs generalizing c b with
  | nil => simp [rleFrom]
  | cons x xs ih => rw [rleFrom]; split <;> simp [ih]

theorem rleFrom_length_le (c : BitVec 8) (b : Byte) (xs : List Byte) : (rleFrom c b xs).length ≤ xs.length + 1 := by
  induction xs generalizing c b with
  | nil => simp [rleFrom]
  | cons x xs ih =>
    rw [rleFrom]
    split
    · have := ih (c + 1#8) b; simp only [List.length_cons]; omega
    · have := ih 1#8 x; simp only [List.length_cons]; omega

/-- There are no more runs than bytes. -/
theorem rleEncode_length_le (xs : List Byte) : (rleEncode xs).length ≤ xs.length := by
  cases xs with
  | nil => simp
  | cons x xs => have := rleFrom_length_le 1#8 x xs; simpa [rleEncode_cons] using this

theorem ne_zero_of_succ {c : BitVec 8} (h : c < 255#8) : c + 1#8 ≠ 0#8 := by
  intro h0
  have := congrArg BitVec.toNat h0
  simp only [BitVec.lt_def, BitVec.toNat_add, BitVec.toNat_ofNat] at h this
  omega

/-- No run has count 0. -/
theorem rleFrom_counts {c : BitVec 8} (hc : c ≠ 0#8) (b : Byte) (xs : List Byte) :
    ∀ r ∈ rleFrom c b xs, r.wf = true := by
  induction xs generalizing c b with
  | nil => simp [rleFrom, Run.wf, hc]
  | cons x xs ih =>
    rw [rleFrom]
    split
    case isTrue h => exact ih (ne_zero_of_succ h.2) b
    case isFalse h =>
      intro r hr
      rcases List.mem_cons.mp hr with rfl | hr
      · simp [Run.wf, hc]
      · exact ih (by decide) x r hr

theorem rleEncode_counts (xs : List Byte) : ∀ r ∈ rleEncode xs, r.wf = true := by
  cases xs with
  | nil => simp
  | cons x xs => exact rleFrom_counts (by decide) x xs

/-! ### The run expander -/

@[simp] theorem rleDecode_nil : rleDecode [] = [] := rfl

theorem rleDecode_cons (r : Run) (rs : List Run) :
    rleDecode (r :: rs) = List.replicate r.count.toNat r.byte ++ rleDecode rs := rfl

theorem rleDecode_append (rs rs' : List Run) : rleDecode (rs ++ rs') = rleDecode rs ++ rleDecode rs' := by
  simp [rleDecode]

@[simp] theorem runSum_nil : runSum [] = 0 := rfl

theorem runSum_cons (r : Run) (rs : List Run) : runSum (r :: rs) = r.count.toNat + runSum rs := by simp [runSum]

theorem runSum_append (rs rs' : List Run) : runSum (rs ++ rs') = runSum rs + runSum rs' := by simp [runSum]

/-- The expansion is as long as the sum of the counts. -/
theorem length_rleDecode (rs : List Run) : (rleDecode rs).length = runSum rs := by
  induction rs with
  | nil => rfl
  | cons r rs ih => rw [rleDecode_cons, runSum_cons, List.length_append, List.length_replicate, ih]

/-- Each count is at most 255. -/
theorem runSum_le (rs : List Run) : runSum rs ≤ 255 * rs.length := by
  induction rs with
  | nil => simp
  | cons r rs ih =>
    have := r.count.isLt
    rw [runSum_cons, List.length_cons]
    omega

/-- Expanding what an open run and the bytes after it become gives the run's bytes and those bytes. -/
theorem rleDecode_rleFrom (c : BitVec 8) (b : Byte) (xs : List Byte) :
    rleDecode (rleFrom c b xs) = List.replicate c.toNat b ++ xs := by
  induction xs generalizing c b with
  | nil => simp [rleFrom, rleDecode_cons]
  | cons x xs ih =>
    rw [rleFrom]
    split
    case isTrue h =>
      obtain ⟨rfl, hc⟩ := h
      have hc' : (c + 1#8).toNat = c.toNat + 1 := by
        simp only [BitVec.lt_def, BitVec.toNat_ofNat] at hc
        simp only [BitVec.toNat_add, BitVec.toNat_ofNat]
        omega
      rw [ih, hc', List.replicate_succ', List.append_assoc, List.singleton_append]
    case isFalse => rw [rleDecode_cons, ih]; simp [List.replicate_one]

/-! ### The frames -/

@[simp] theorem framesSerialize_nil : framesSerialize [] = [] := rfl

theorem framesSerialize_cons (r : Run) (rs : List Run) :
    framesSerialize (r :: rs) = r.count :: r.byte :: framesSerialize rs := rfl

theorem framesSerialize_append (rs rs' : List Run) :
    framesSerialize (rs ++ rs') = framesSerialize rs ++ framesSerialize rs' := by
  simp [framesSerialize]

/-- Each run costs exactly two bytes. -/
theorem length_framesSerialize (rs : List Run) : (framesSerialize rs).length = 2 * rs.length := by
  induction rs with
  | nil => rfl
  | cons r rs ih => rw [framesSerialize_cons]; simp only [List.length_cons, ih]; omega

theorem framesParseFrom_nil (off : Nat) : framesParseFrom off [] = .ok [] := by simp [framesParseFrom]

theorem framesParseFrom_singleton (off : Nat) (c : Byte) :
    framesParseFrom off [c] = .error { off := off, zero := false } := by simp [framesParseFrom]

theorem framesParseFrom_zero (off : Nat) (b : Byte) (xs : List Byte) :
    framesParseFrom off (0#8 :: b :: xs) = .error { off := off, zero := true } := by simp [framesParseFrom]

/-- A complete frame with a count that is not 0 is one run, and the rest is parsed from the next frame on. -/
theorem framesParseFrom_frame (off : Nat) {c : Byte} (hc : c ≠ 0#8) (b : Byte) (xs : List Byte) :
    framesParseFrom off (c :: b :: xs) =
      match framesParseFrom (off + 2) xs with
      | .ok runs => .ok ({ count := c, byte := b } :: runs)
      | .error e => .error e := by
  rw [framesParseFrom]
  exact (if_neg hc).trans (by cases framesParseFrom (off + 2) xs <;> rfl)

/-- Frames that parse are the frames of the runs they parse to. -/
theorem framesSerialize_of_parse {off : Nat} {xs : List Byte} {runs : List Run}
    (h : framesParseFrom off xs = .ok runs) : framesSerialize runs = xs ∧ ∀ r ∈ runs, r.wf = true := by
  induction off, xs using framesParseFrom.induct generalizing runs with
  | case1 off => simp [framesParseFrom] at h; subst h; simp
  | case2 off c => simp [framesParseFrom] at h
  | case3 off b xs => simp [framesParseFrom] at h
  | case4 off c b xs hc runs' hr ih =>
    rw [framesParseFrom, if_neg hc, hr] at h
    cases h
    obtain ⟨h1, h2⟩ := ih hr
    exact ⟨by rw [framesSerialize_cons, h1], by simpa [Run.wf, hc] using h2⟩
  | case5 off c b xs hc e hr ih =>
    rw [framesParseFrom, if_neg hc, hr] at h
    cases h

theorem length_of_parse {off : Nat} {xs : List Byte} {runs : List Run}
    (h : framesParseFrom off xs = .ok runs) : xs.length = 2 * runs.length := by
  rw [← (framesSerialize_of_parse h).1, length_framesSerialize]

/-- The offset of a failing frame lies in the list. -/
theorem off_of_parse_error {off : Nat} {xs : List Byte} {e : FrameError}
    (h : framesParseFrom off xs = .error e) : off ≤ e.off ∧ e.off < off + xs.length := by
  induction off, xs using framesParseFrom.induct with
  | case1 off => simp [framesParseFrom] at h
  | case2 off c => simp [framesParseFrom] at h; subst h; simp
  | case3 off b xs => simp [framesParseFrom] at h; subst h; simp
  | case4 off c b xs hc runs' hr ih =>
    rw [framesParseFrom, if_neg hc, hr] at h
    cases h
  | case5 off c b xs hc e' hr ih =>
    rw [framesParseFrom, if_neg hc, hr] at h
    cases h
    have := ih hr
    simp only [List.length_cons]
    omega

end Sys2Proof.Machine
end

