-- ==== Sys2Proof/Laws/Exec.lean ====
section
/-! SUPPORT. What each command and each host move can do, said once. -/

namespace Sys2Proof.Machine

variable {cfg : Config}

/-- The effective length is within `IBUF` when `ILEN` is (20_memory.md R68). -/
theorem State.effLen_le {s : State cfg} (h : s.ilen.toNat ≤ cfg.chunk) : s.effLen ≤ cfg.chunk :=
  Nat.le_trans (Nat.min_le_right _ _) h

/-- The state `ENCODE` leaves. -/
def State.encoded (s : State cfg) : State cfg :=
  { s with
    runbuf := Memory.overwrite s.runbuf (rleEncode (s.inBytes s.effLen))
    rcount := BitVec.ofNat cfg.lenBits (rleEncode (s.inBytes s.effLen)).length }.retire

/-- The state `DECODE` leaves. -/
def State.decoded (s : State cfg) : State cfg :=
  { s with
    obuf := Memory.overwrite s.obuf (rleDecode s.validRuns)
    olen := BitVec.ofNat cfg.olenBits (rleDecode s.validRuns).length }.retire

/-- The state `SERIALIZE` leaves. -/
def State.serialized (s : State cfg) : State cfg :=
  { s with
    obuf := Memory.overwrite s.obuf (framesSerialize s.validRuns)
    olen := BitVec.ofNat cfg.olenBits (framesSerialize s.validRuns).length }.retire

/-- The state a successful `PARSE` leaves. -/
def State.parsed (s : State cfg) (runs : List Run) : State cfg :=
  { s with runbuf := Memory.overwrite s.runbuf runs, rcount := BitVec.ofNat cfg.lenBits runs.length }.retire

/-- There are no more runs than bytes in the chunk. -/
theorem State.length_encoded_le (s : State cfg) : (rleEncode (s.inBytes s.effLen)).length ≤ s.effLen := by
  simpa using rleEncode_length_le (s.inBytes s.effLen)

/-- What `ENCODE` can do. -/
theorem execEncode_eq_next {s t : State cfg} :
    execEncode s = .next t ↔ s.effLen ≤ cfg.chunk ∧ t = s.encoded := by
  have := s.length_encoded_le
  simp only [execEncode, withValue_eq_next, State.readIn_eq_ok, State.writeRuns_eq_ok, State.encoded]
  constructor
  · rintro ⟨_, ⟨h1, rfl⟩, _, ⟨-, rfl⟩, h⟩
    exact ⟨h1, (Host.Outcome.next.inj h).symm⟩
  · rintro ⟨h1, rfl⟩
    exact ⟨_, ⟨h1, rfl⟩, _, ⟨Nat.le_trans this h1, rfl⟩, rfl⟩

/-- What `DECODE` can do. -/
theorem execDecode_eq_next {s t : State cfg} :
    execDecode s = .next t ↔
      s.rcount.toNat ≤ cfg.runCap ∧ runSum s.validRuns ≤ cfg.obufCap ∧ t = s.decoded := by
  simp only [execDecode, withValue_eq_next, State.readRuns_eq_ok, State.writeOut_eq_ok, State.decoded,
    ← length_rleDecode]
  constructor
  · rintro ⟨_, ⟨h1, rfl⟩, _, ⟨h2, rfl⟩, h⟩
    exact ⟨h1, h2, (Host.Outcome.next.inj h).symm⟩
  · rintro ⟨h1, h2, rfl⟩
    exact ⟨_, ⟨h1, rfl⟩, _, ⟨h2, rfl⟩, rfl⟩

/-- What `SERIALIZE` can do: its output always fits `OBUF`. -/
theorem execSerialize_eq_next {s t : State cfg} :
    execSerialize s = .next t ↔ s.rcount.toNat ≤ cfg.runCap ∧ t = s.serialized := by
  simp only [execSerialize, withValue_eq_next, State.readRuns_eq_ok, State.writeOut_eq_ok, State.serialized]
  constructor
  · rintro ⟨_, ⟨h1, rfl⟩, _, ⟨-, rfl⟩, h⟩
    exact ⟨h1, (Host.Outcome.next.inj h).symm⟩
  · rintro ⟨h1, rfl⟩
    refine ⟨_, ⟨h1, rfl⟩, _, ⟨?_, rfl⟩, rfl⟩
    rw [length_framesSerialize, State.length_validRuns]
    have := cfg.two_mul_chunk_le_obufCap
    rw [cfg.runCap_eq_chunk] at h1
    omega

/-- What `PARSE` can do: the runs of the chunk, or the failure of its first bad frame. -/
theorem execParse_eq_next {s t : State cfg} :
    execParse s = .next t ↔ s.effLen ≤ cfg.chunk ∧
      ((∃ runs, framesParse (s.inBytes s.effLen) = .ok runs ∧ t = s.parsed runs) ∨
        ∃ e, framesParse (s.inBytes s.effLen) = .error e ∧ t = s.failParse e.off e.zero) := by
  simp only [execParse, withValue_eq_next, State.readIn_eq_ok, State.parsed]
  cases hp : framesParse (s.inBytes s.effLen) with
  | ok runs =>
    have hl := length_of_parse hp
    rw [State.length_inBytes] at hl
    constructor
    · rintro ⟨_, ⟨h1, rfl⟩, h⟩
      rw [hp] at h
      obtain ⟨_, h2, h3⟩ := withValue_eq_next.mp h
      obtain ⟨-, rfl⟩ := State.writeRuns_eq_ok.mp h2
      exact ⟨h1, .inl ⟨runs, rfl, (Host.Outcome.next.inj h3).symm⟩⟩
    · rintro ⟨h1, ⟨_, h2, rfl⟩ | ⟨_, h2, -⟩⟩
      · cases h2
        refine ⟨_, ⟨h1, rfl⟩, ?_⟩
        rw [hp]
        refine withValue_eq_next.mpr ⟨_, State.writeRuns_eq_ok.mpr ⟨?_, rfl⟩, rfl⟩
        rw [cfg.runCap_eq_chunk]
        omega
      · cases h2
  | error e =>
    constructor
    · rintro ⟨_, ⟨h1, rfl⟩, h⟩
      rw [hp] at h
      exact ⟨h1, .inr ⟨e, rfl, (Host.Outcome.next.inj h).symm⟩⟩
    · rintro ⟨h1, ⟨_, h2, -⟩ | ⟨_, h2, rfl⟩⟩
      · cases h2
      · cases h2
        refine ⟨_, ⟨h1, rfl⟩, ?_⟩
        rw [hp]

/-- Accepting a command changes none of its operands. -/
@[simp] theorem State.effLen_accept (s : State cfg) (a : Activity) : (s.accept a).effLen = s.effLen := rfl

@[simp] theorem State.inBytes_accept (s : State cfg) (a : Activity) (n : Nat) : (s.accept a).inBytes n = s.inBytes n := rfl

@[simp] theorem State.validRuns_accept (s : State cfg) (a : Activity) : (s.accept a).validRuns = s.validRuns := rfl

/-- `exec` is the effect of the command on this hardware. -/
theorem exec_eq_execAt (i : Instr) (s : State) : exec i s = execAt i s := by cases i <;> rfl

/-- A command that ends in a state is complete. -/
theorem execAt_idle {i : Instr} {s t : State cfg} (h : execAt i s = .next t) :
    t.busy = false ∧ t.activity = .idle ∧ t.scanner = {} ∧ t.expander = {} ∧ t.serializer = {} ∧ t.deserializer = {} := by
  cases i with
  | encode => obtain ⟨-, rfl⟩ := execEncode_eq_next.mp h; exact ⟨rfl, rfl, rfl, rfl, rfl, rfl⟩
  | decode => obtain ⟨-, -, rfl⟩ := execDecode_eq_next.mp h; exact ⟨rfl, rfl, rfl, rfl, rfl, rfl⟩
  | serialize => obtain ⟨-, rfl⟩ := execSerialize_eq_next.mp h; exact ⟨rfl, rfl, rfl, rfl, rfl, rfl⟩
  | parse =>
    obtain ⟨-, ⟨_, -, rfl⟩ | ⟨_, -, rfl⟩⟩ := execParse_eq_next.mp h <;> exact ⟨rfl, rfl, rfl, rfl, rfl, rfl⟩

/-- What an issue can do (10_state.md R44). -/
theorem hostIssue_eq_next {w : Byte} {s t : State cfg} :
    hostIssue w s = .next t ↔ s.busy = false ∧
      ((s.err ≠ errNone ∧ t = s) ∨ (s.err = errNone ∧ t = s.accept (activityOf w))) := by
  unfold hostIssue
  cases hb : s.busy
  · by_cases he : s.err = errNone <;> simp [he, eq_comm]
  · simp

/-- What a command line can do: nothing while an error is set, else the completion of the accepted command. -/
theorem hostCommand_eq_next {w : Byte} {s t : State cfg} :
    hostCommand w s = .next t ↔ s.busy = false ∧
      ((s.err ≠ errNone ∧ t = s) ∨ (s.err = errNone ∧ completeCommand (s.accept (activityOf w)) = .next t)) := by
  unfold hostCommand
  rw [andThen_eq_next]
  constructor
  · rintro ⟨u, h1, h2⟩
    obtain ⟨hb, ⟨he, rfl⟩ | ⟨he, rfl⟩⟩ := hostIssue_eq_next.mp h1
    · rw [if_neg (by simp [hb])] at h2
      exact ⟨hb, .inl ⟨he, (Host.Outcome.next.inj h2).symm⟩⟩
    · exact ⟨hb, .inr ⟨he, by simpa using h2⟩⟩
  · rintro ⟨hb, ⟨he, rfl⟩ | ⟨he, h2⟩⟩
    · exact ⟨t, hostIssue_eq_next.mpr ⟨hb, .inl ⟨he, rfl⟩⟩, by simp [hb]⟩
    · exact ⟨_, hostIssue_eq_next.mpr ⟨hb, .inr ⟨he, rfl⟩⟩, by simpa using h2⟩

theorem activityOf_encode (i : Instr) : activityOf (encode i) = .running i := by cases i <;> decide

/-- A result is written and the command completed alike, accepted or not. -/
theorem writeRuns_accept (s : State cfg) (a : Activity) (rs : List Run) :
    withValue ((s.accept a).writeRuns rs) (fun t => .next t.retire) = withValue (s.writeRuns rs) fun t => .next t.retire := by
  unfold State.writeRuns; split <;> rfl

theorem writeOut_accept (s : State cfg) (a : Activity) (out : List Byte) :
    withValue ((s.accept a).writeOut out) (fun t => .next t.retire) = withValue (s.writeOut out) fun t => .next t.retire := by
  unfold State.writeOut; split <;> rfl

/-- A command has the effect it has on the state at issue (10_state.md R44). -/
theorem execAt_accept (i : Instr) (a : Activity) (s : State cfg) : execAt i (s.accept a) = execAt i s := by
  have h1 : (s.accept a).readIn (s.accept a).effLen = s.readIn s.effLen := rfl
  have h2 : (s.accept a).readRuns = s.readRuns := rfl
  have h3 : ∀ off zero, (s.accept a).failParse off zero = s.failParse off zero := fun _ _ => rfl
  cases i with
  | encode => simp only [execAt, execEncode, h1, writeRuns_accept]
  | decode => simp only [execAt, execDecode, h2, writeOut_accept]
  | serialize => simp only [execAt, execSerialize, h2, writeOut_accept]
  | parse => simp only [execAt, execParse, h1, h3, writeRuns_accept]

/-- Accepting the command first changes nothing of what it does. -/
theorem execAt_accept_eq_next {i : Instr} {a : Activity} {s t : State cfg} :
    execAt i (s.accept a) = .next t ↔ execAt i s = .next t := by rw [execAt_accept]

/-- What a completion can do (10_state.md R44). -/
theorem completeCommand_eq_next {s t : State cfg} :
    completeCommand s = .next t ↔
      (∃ i, s.activity = .running i ∧ execAt i s = .next t) ∨
      (s.activity = .illegal ∧ t = s.raise errIllegalCommand 0#cfg.offBits false) ∨ (s.activity = .idle ∧ t = s.retire) := by
  unfold completeCommand
  cases s.activity <;> simp [eq_comm]

/-- What the command line of a command can do. -/
theorem hostCommand_encode_eq_next {i : Instr} {s t : State cfg} :
    hostCommand (encode i) s = .next t ↔
      s.busy = false ∧ ((s.err ≠ errNone ∧ t = s) ∨ (s.err = errNone ∧ execAt i s = .next t)) := by
  rw [hostCommand_eq_next, activityOf_encode, completeCommand_eq_next]
  simp [execAt_accept_eq_next]

/-! ### Host operations -/

/-- What `HostWriteIn` can do (10_state.md R41). -/
theorem hostWriteIn_eq_next {i : Nat} {v : Byte} {s t : State cfg} :
    hostWriteIn i v s = .next t ↔
      s.busy = false ∧ i < cfg.chunk ∧ t = { s with ibuf := Memory.set s.ibuf i v } := by
  unfold hostWriteIn
  split
  case isTrue hb => simp [hb]
  case isFalse hb =>
    split
    case isTrue hi => simp [Nat.not_lt.mpr hi]
    case isFalse hi => simp only [Host.Outcome.next.injEq, Nat.lt_of_not_le hi, eq_comm, hb, true_and]

/-- What `HostSetLen` can do (10_state.md R42). -/
theorem hostSetLen_eq_next {len : Nat} {s t : State cfg} :
    hostSetLen len s = .next t ↔
      s.busy = false ∧ len ≤ cfg.chunk ∧ t = { s with ilen := BitVec.ofNat cfg.lenBits len } := by
  unfold hostSetLen
  split
  case isTrue hb => simp [hb]
  case isFalse hb =>
    split
    case isTrue hi => simp [Nat.not_le.mpr hi]
    case isFalse hi => simp only [Host.Outcome.next.injEq, Nat.le_of_not_lt hi, eq_comm, hb, true_and]

/-- What `HostSetN` can do (10_state.md R43). -/
theorem hostSetN_eq_next {n : BitVec cfg.nargBits} {s t : State cfg} :
    hostSetN n s = .next t ↔ s.busy = false ∧ t = { s with narg := n } := by
  unfold hostSetN
  split
  case isTrue hb => simp [hb]
  case isFalse hb => simp only [Host.Outcome.next.injEq, eq_comm, hb, true_and]

/-- A read is an answer or a draw: it changes what the host was told and the number of draws, nothing else
(10_state.md R45). -/
theorem hostOp_read {op : HostOp cfg} (h : op.isRead = true) (s : State cfg) :
    ∃ r n, hostOp op s = .next { s with resp := some r, draws := n } := by
  cases op <;> first | (simp [HostOp.isRead] at h; done) | skip
  all_goals
    simp only [hostOp, hostReadStatus, hostReadIn, hostReadRun, hostReadOut, hostReadLen, hostReadN, hostReadRCount,
      hostReadOLen]
    split
    · exact ⟨_, _, rfl⟩
    · exact ⟨_, _, rfl⟩

/-- Writing consecutive bytes of `IBUF` that exist puts them there, and changes nothing else. -/
theorem writeBytes_eq_next (bs : List Byte) (i : Nat) (s : State cfg) (hb : s.busy = false)
    (h : i + bs.length ≤ cfg.chunk) :
    ∃ m, writeBytes i bs s = .next { s with ibuf := m } ∧
      ∀ j, Memory.get? m j = if i ≤ j ∧ j < i + bs.length then bs[j - i]? else Memory.get? s.ibuf j := by
  induction bs generalizing i s with
  | nil => exact ⟨s.ibuf, rfl, fun j => by rw [if_neg (by simp)]⟩
  | cons b bs ih =>
    rw [List.length_cons] at h
    obtain ⟨m, h1, h2⟩ := ih (i + 1) { s with ibuf := Memory.set s.ibuf i b } hb (by omega)
    refine ⟨m, ?_, fun j => ?_⟩
    · exact andThen_eq_next.mpr ⟨_, hostWriteIn_eq_next.mpr ⟨hb, by omega, rfl⟩, h1⟩
    · rw [h2, Memory.get?_set, List.length_cons]
      by_cases hj : i = j
      · subst hj; simp
      · by_cases hj2 : i < j
        · obtain ⟨k, rfl⟩ : ∃ k, j = i + 1 + k := ⟨j - i - 1, by omega⟩
          rw [show i + 1 + k - i = k + 1 by omega, show i + 1 + k - (i + 1) = k by omega,
            List.getElem?_cons_succ, if_neg hj]
          by_cases hk : k < bs.length
          · rw [if_pos (by omega), if_pos (by omega)]
          · rw [if_neg (by omega), if_neg (by omega)]
        · rw [if_neg (by omega), if_neg hj, if_neg (by omega)]

/-- A sequence of writes that ends in a state changed `IBUF` alone, and keeps its form. -/
theorem writeBytes_frame {bs : List Byte} {i : Nat} {s t : State cfg} (h : writeBytes i bs s = .next t) :
    ∃ m, t = { s with ibuf := m } ∧ (Memory.wf s.ibuf → Memory.wf m) ∧
      ((∀ c ∈ s.ibuf, c.1 < cfg.chunk) → ∀ c ∈ m, c.1 < cfg.chunk) := by
  induction bs generalizing i s with
  | nil => exact ⟨s.ibuf, (Host.Outcome.next.inj h).symm, id, id⟩
  | cons b bs ih =>
    obtain ⟨u, h1, h2⟩ := andThen_eq_next.mp h
    obtain ⟨-, hi, rfl⟩ := hostWriteIn_eq_next.mp h1
    obtain ⟨m, rfl, hw, hl⟩ := ih h2
    refine ⟨m, rfl, fun hs => hw (Memory.set_wf hs i b), fun hs => hl fun c hc => ?_⟩
    rcases Memory.mem_set hc with rfl | hc
    · exact hi
    · exact hs c hc

/-! ### Steps -/

/-- A step of this hardware. -/
theorem step_eq_stepAt (s : State) : step s = stepAt s := rfl

/-- A step of a driver that runs. -/
theorem stepAt_of_running {s : State cfg} (h : s.driver.running = true) : stepAt s = driverStep s := by simp [stepAt, h]

/-- A step that takes the head of the program. -/
theorem stepAt_of_event {s : State cfg} {e : Event cfg} {rest : List (Event cfg)} (h : s.driver.running = false)
    (hp : s.program = e :: rest) : stepAt s = runEvent e (s.withProgram rest) := by
  rw [stepAt, if_neg (by simp [h]), hp]

/-- A step when the host has nothing to do. -/
theorem stepAt_of_nil {s : State cfg} (h : s.driver.running = false) (hp : s.program = []) : stepAt s = blockComplete s := by
  rw [stepAt, if_neg (by simp [h]), hp]; rfl

/-- What a move of the block can do: nothing with `BUSY = 0`. -/
theorem blockComplete_eq_next {s t : State cfg} :
    blockComplete s = .next t ↔ (s.busy = false ∧ t = s) ∨ (s.busy = true ∧ completeCommand s = .next t) := by
  unfold blockComplete
  cases s.busy <;> simp [eq_comm]

end Sys2Proof.Machine
end

