-- ==== Sys2Proof/Laws/Beat.lean ====
section
/-! SUPPORT. What one beat of each unit can do, said once: the numbered cases of its realisation. -/

namespace Sys2Proof.Machine

variable {cfg : Config}

/-- The run that the scanner has open. -/
def Scanner.run (u : Scanner cfg) : Run := { count := u.cnt, byte := u.byte }

/-- The cases of 40_encoder.md R112. -/
theorem beatEncode_eq_next {s t : State cfg} :
    beatEncode s = .next t ↔
      (s.scanner.pos < s.scanner.n ∧ s.scanner.pos.toNat < cfg.chunk ∧
        ((s.scanner.cnt = 0#8 ∧
            t = { s with scanner :=
              { s.scanner with byte := s.inByte s.scanner.pos.toNat, cnt := 1#8, pos := s.scanner.pos + 1#cfg.lenBits } }) ∨
          (s.scanner.cnt ≠ 0#8 ∧ (s.inByte s.scanner.pos.toNat = s.scanner.byte ∧ s.scanner.cnt < 255#8) ∧
            t = { s with scanner := { s.scanner with cnt := s.scanner.cnt + 1#8, pos := s.scanner.pos + 1#cfg.lenBits } }) ∨
          (s.scanner.cnt ≠ 0#8 ∧ ¬ (s.inByte s.scanner.pos.toNat = s.scanner.byte ∧ s.scanner.cnt < 255#8) ∧
            s.scanner.k.toNat < cfg.runCap ∧
            t = { s with
              runbuf := Memory.set s.runbuf s.scanner.k.toNat s.scanner.run
              scanner := { s.scanner with k := s.scanner.k + 1#cfg.lenBits, cnt := 0#8 } }))) ∨
      (¬ s.scanner.pos < s.scanner.n ∧
        ((s.scanner.cnt = 0#8 ∧ t = { s with rcount := s.scanner.k }.retire) ∨
          (s.scanner.cnt ≠ 0#8 ∧ s.scanner.k.toNat < cfg.runCap ∧
            t = { s with
              runbuf := Memory.set s.runbuf s.scanner.k.toNat s.scanner.run
              rcount := s.scanner.k + 1#cfg.lenBits }.retire))) := by
  simp only [beatEncode, Scanner.run]
  split
  case isTrue hp =>
    simp only [hp, not_true_eq_false, false_and, or_false, true_and]
    rw [withValue_eq_next]
    constructor
    · rintro ⟨v, hv, h⟩
      obtain ⟨hi, rfl⟩ := State.fetchIn_eq_ok.mp hv
      refine ⟨hi, ?_⟩
      split at h
      case isTrue hc => exact .inl ⟨hc, (Host.Outcome.next.inj h).symm⟩
      case isFalse hc =>
        split at h
        case isTrue he => exact .inr (.inl ⟨hc, he, (Host.Outcome.next.inj h).symm⟩)
        case isFalse he =>
          obtain ⟨u, hu, h⟩ := withValue_eq_next.mp h
          obtain ⟨hk, rfl⟩ := State.storeRun_eq_ok.mp hu
          exact .inr (.inr ⟨hc, he, hk, (Host.Outcome.next.inj h).symm⟩)
    · rintro ⟨hi, ⟨hc, rfl⟩ | ⟨hc, he, rfl⟩ | ⟨hc, he, hk, rfl⟩⟩
      · exact ⟨_, State.fetchIn_eq_ok.mpr ⟨hi, rfl⟩, by rw [if_pos hc]⟩
      · exact ⟨_, State.fetchIn_eq_ok.mpr ⟨hi, rfl⟩, by rw [if_neg hc, if_pos he]⟩
      · exact ⟨_, State.fetchIn_eq_ok.mpr ⟨hi, rfl⟩, by
          rw [if_neg hc, if_neg he]
          exact withValue_eq_next.mpr ⟨_, State.storeRun_eq_ok.mpr ⟨hk, rfl⟩, rfl⟩⟩
  case isFalse hp =>
    simp only [hp, not_false_eq_true, false_and, false_or, true_and]
    split
    case isTrue hc => simp [hc, eq_comm]
    case isFalse hc =>
      rw [withValue_eq_next]
      constructor
      · rintro ⟨u, hu, h⟩
        obtain ⟨hk, rfl⟩ := State.storeRun_eq_ok.mp hu
        exact .inr ⟨hc, hk, (Host.Outcome.next.inj h).symm⟩
      · rintro (⟨hc', -⟩ | ⟨-, hk, rfl⟩)
        · exact absurd hc' hc
        · exact ⟨_, State.storeRun_eq_ok.mpr ⟨hk, rfl⟩, rfl⟩

/-- The cases of 41_decoder.md R133. -/
theorem beatDecode_eq_next {s t : State cfg} :
    beatDecode s = .next t ↔
      (s.expander.rem = 0#8 ∧ s.expander.idx < s.rcount ∧ s.expander.idx.toNat < cfg.runCap ∧
        t = { s with expander := { s.expander with rem := (s.runAt s.expander.idx.toNat).count } }) ∨
      (s.expander.rem ≠ 0#8 ∧ s.expander.idx.toNat < cfg.runCap ∧ s.expander.opos.toNat < cfg.obufCap ∧
        t = { s with
          obuf := Memory.set s.obuf s.expander.opos.toNat (s.runAt s.expander.idx.toNat).byte
          expander :=
            { idx := if s.expander.rem = 1#8 then s.expander.idx + 1#cfg.lenBits else s.expander.idx
              rem := s.expander.rem - 1#8
              opos := s.expander.opos + 1#cfg.olenBits } }) ∨
      (s.expander.rem = 0#8 ∧ ¬ s.expander.idx < s.rcount ∧ t = { s with olen := s.expander.opos }.retire) := by
  simp only [beatDecode]
  split
  case isTrue hr =>
    split
    case isTrue hi =>
      simp only [hr, hi, not_true_eq_false, ne_eq, false_and, and_false, or_false, true_and]
      rw [withValue_eq_next]
      constructor
      · rintro ⟨r, h1, h⟩
        obtain ⟨hk, rfl⟩ := State.fetchRun_eq_ok.mp h1
        exact ⟨hk, (Host.Outcome.next.inj h).symm⟩
      · rintro ⟨hk, rfl⟩
        exact ⟨_, State.fetchRun_eq_ok.mpr ⟨hk, rfl⟩, rfl⟩
    case isFalse hi => simp [hr, hi, eq_comm]
  case isFalse hr =>
    simp only [hr, ne_eq, not_false_eq_true, false_and, true_and, false_or, or_false]
    rw [withValue_eq_next]
    constructor
    · rintro ⟨r, h1, h⟩
      obtain ⟨hk, rfl⟩ := State.fetchRun_eq_ok.mp h1
      obtain ⟨u, hu, h⟩ := withValue_eq_next.mp h
      obtain ⟨ho, rfl⟩ := State.storeOut_eq_ok.mp hu
      exact ⟨hk, ho, (Host.Outcome.next.inj h).symm⟩
    · rintro ⟨hk, ho, rfl⟩
      exact ⟨_, State.fetchRun_eq_ok.mpr ⟨hk, rfl⟩,
        withValue_eq_next.mpr ⟨_, State.storeOut_eq_ok.mpr ⟨ho, rfl⟩, rfl⟩⟩

/-- The cases of 42_serializer.md R152. -/
theorem beatSerialize_eq_next {s t : State cfg} :
    beatSerialize s = .next t ↔
      (s.serializer.idx < s.rcount ∧ s.serializer.idx.toNat < cfg.runCap ∧
        ((s.serializer.half = false ∧ 2 * s.serializer.idx.toNat < cfg.obufCap ∧
            t = { s with
              obuf := Memory.set s.obuf (2 * s.serializer.idx.toNat) (s.runAt s.serializer.idx.toNat).count
              serializer := { s.serializer with half := true } }) ∨
          (s.serializer.half = true ∧ 2 * s.serializer.idx.toNat + 1 < cfg.obufCap ∧
            t = { s with
              obuf := Memory.set s.obuf (2 * s.serializer.idx.toNat + 1) (s.runAt s.serializer.idx.toNat).byte
              serializer := { idx := s.serializer.idx + 1#cfg.lenBits, half := false } }))) ∨
      (¬ s.serializer.idx < s.rcount ∧ t = { s with olen := BitVec.ofNat cfg.olenBits (2 * s.rcount.toNat) }.retire) := by
  simp only [beatSerialize]
  split
  case isTrue hi =>
    simp only [hi, not_true_eq_false, false_and, or_false, true_and]
    rw [withValue_eq_next]
    constructor
    · rintro ⟨r, h1, h⟩
      obtain ⟨hk, rfl⟩ := State.fetchRun_eq_ok.mp h1
      refine ⟨hk, ?_⟩
      split at h
      case isTrue hh =>
        obtain ⟨u, hu, h⟩ := withValue_eq_next.mp h
        obtain ⟨ho, rfl⟩ := State.storeOut_eq_ok.mp hu
        exact .inr ⟨hh, ho, (Host.Outcome.next.inj h).symm⟩
      case isFalse hh =>
        obtain ⟨u, hu, h⟩ := withValue_eq_next.mp h
        obtain ⟨ho, rfl⟩ := State.storeOut_eq_ok.mp hu
        exact .inl ⟨by simpa using hh, ho, (Host.Outcome.next.inj h).symm⟩
    · rintro ⟨hk, ⟨hh, ho, rfl⟩ | ⟨hh, ho, rfl⟩⟩
      · refine ⟨_, State.fetchRun_eq_ok.mpr ⟨hk, rfl⟩, ?_⟩
        rw [if_neg (by simp [hh])]
        exact withValue_eq_next.mpr ⟨_, State.storeOut_eq_ok.mpr ⟨ho, rfl⟩, rfl⟩
      · refine ⟨_, State.fetchRun_eq_ok.mpr ⟨hk, rfl⟩, ?_⟩
        rw [if_pos hh]
        exact withValue_eq_next.mpr ⟨_, State.storeOut_eq_ok.mpr ⟨ho, rfl⟩, rfl⟩
  case isFalse hi =>
    simp only [hi, not_false_eq_true, false_and, true_and, false_or, Host.Outcome.next.injEq]
    exact eq_comm

/-- The cases of 43_parser.md R176. -/
theorem beatParse_eq_next {s t : State cfg} :
    beatParse s = .next t ↔
      (s.deserializer.pos < s.deserializer.n ∧ s.deserializer.pos.toNat < cfg.chunk ∧
        ((s.deserializer.half = false ∧
            t = { s with deserializer :=
              { s.deserializer with
                cnt := s.inByte s.deserializer.pos.toNat, pos := s.deserializer.pos + 1#cfg.lenBits, half := true } }) ∨
          (s.deserializer.half = true ∧ s.deserializer.cnt = 0#8 ∧
            t = s.failParse (s.deserializer.pos.toNat - 1) true) ∨
          (s.deserializer.half = true ∧ s.deserializer.cnt ≠ 0#8 ∧ s.deserializer.k.toNat < cfg.runCap ∧
            t = { s with
              runbuf := Memory.set s.runbuf s.deserializer.k.toNat
                { count := s.deserializer.cnt, byte := s.inByte s.deserializer.pos.toNat }
              deserializer :=
                { s.deserializer with k := s.deserializer.k + 1#cfg.lenBits, pos := s.deserializer.pos + 1#cfg.lenBits, half := false } }))) ∨
      (¬ s.deserializer.pos < s.deserializer.n ∧
        ((s.deserializer.half = true ∧ t = s.failParse (s.deserializer.pos.toNat - 1) false) ∨
          (s.deserializer.half = false ∧ t = { s with rcount := s.deserializer.k }.retire))) := by
  simp only [beatParse]
  split
  case isTrue hp =>
    simp only [hp, not_true_eq_false, false_and, or_false, true_and]
    rw [withValue_eq_next]
    constructor
    · rintro ⟨v, hv, h⟩
      obtain ⟨hi, rfl⟩ := State.fetchIn_eq_ok.mp hv
      refine ⟨hi, ?_⟩
      split at h
      case isTrue hh =>
        split at h
        case isTrue hc => exact .inr (.inl ⟨hh, hc, (Host.Outcome.next.inj h).symm⟩)
        case isFalse hc =>
          obtain ⟨u, hu, h⟩ := withValue_eq_next.mp h
          obtain ⟨hk, rfl⟩ := State.storeRun_eq_ok.mp hu
          exact .inr (.inr ⟨hh, hc, hk, (Host.Outcome.next.inj h).symm⟩)
      case isFalse hh => exact .inl ⟨by simpa using hh, (Host.Outcome.next.inj h).symm⟩
    · rintro ⟨hi, ⟨hh, rfl⟩ | ⟨hh, hc, rfl⟩ | ⟨hh, hc, hk, rfl⟩⟩
      · exact ⟨_, State.fetchIn_eq_ok.mpr ⟨hi, rfl⟩, by rw [if_neg (by simp [hh])]⟩
      · exact ⟨_, State.fetchIn_eq_ok.mpr ⟨hi, rfl⟩, by rw [if_pos hh, if_pos hc]⟩
      · exact ⟨_, State.fetchIn_eq_ok.mpr ⟨hi, rfl⟩, by
          rw [if_pos hh, if_neg hc]
          exact withValue_eq_next.mpr ⟨_, State.storeRun_eq_ok.mpr ⟨hk, rfl⟩, rfl⟩⟩
  case isFalse hp =>
    simp only [hp, not_false_eq_true, false_and, false_or, true_and]
    split
    case isTrue hh => simp [hh, eq_comm]
    case isFalse hh => simp [hh, eq_comm]

/-- What a beat of the block can do: nothing with `BUSY = 0`, a beat of the unit that runs, or the completion of a word that
runs none. -/
theorem blockBeat_eq_next {s t : State cfg} :
    blockBeat s = .next t ↔
      (s.busy = false ∧ t = s) ∨
      (s.busy = true ∧
        ((s.activity = .running .encode ∧ beatEncode s = .next t) ∨
          (s.activity = .running .decode ∧ beatDecode s = .next t) ∨
          (s.activity = .running .serialize ∧ beatSerialize s = .next t) ∨
          (s.activity = .running .parse ∧ beatParse s = .next t) ∨
          ((s.activity = .illegal ∨ s.activity = .idle) ∧ completeCommand s = .next t))) := by
  unfold blockBeat
  cases s.busy with
  | false => simp [eq_comm]
  | true =>
    cases s.activity with
    | idle => simp
    | illegal => simp
    | running i => cases i <;> simp

end Sys2Proof.Machine
end

