-- ==== Sys2Proof/Laws/Step.lean ====
section
/-! SUPPORT. What a step can do, said once: the frames of the commands, the moves of a driver, the host operations. -/

namespace Sys2Proof.Machine

variable {cfg : Config}

/-! ### Commands -/

/-- A command changes neither the input, nor the host, nor what the host was told. -/
theorem execAt_frame {i : Instr} {s t : State cfg} (h : execAt i s = .next t) : SameInput s t ∧ SameHost s t ∧ SameAnswer s t := by
  cases i with
  | encode => obtain ⟨-, rfl⟩ := execEncode_eq_next.mp h; simp [State.encoded, SameInput, SameHost, SameAnswer]
  | decode => obtain ⟨-, -, rfl⟩ := execDecode_eq_next.mp h; simp [State.decoded, SameInput, SameHost, SameAnswer]
  | serialize => obtain ⟨-, rfl⟩ := execSerialize_eq_next.mp h; simp [State.serialized, SameInput, SameHost, SameAnswer]
  | parse =>
    obtain ⟨-, ⟨_, -, rfl⟩ | ⟨_, -, rfl⟩⟩ := execParse_eq_next.mp h
    · simp [State.parsed, SameInput, SameHost, SameAnswer]
    · exact ⟨⟨rfl, rfl, rfl, rfl⟩, ⟨rfl, rfl, rfl, rfl, rfl, rfl, rfl⟩, rfl, rfl⟩

/-- Only `ENCODE` and `PARSE` write `RUNBUF` and `RCOUNT` (30_encoding.md R83). -/
theorem execAt_runs {i : Instr} {s t : State cfg} (h : execAt i s = .next t) (hi : i = .decode ∨ i = .serialize) : SameRuns s t := by
  rcases hi with rfl | rfl
  · obtain ⟨-, -, rfl⟩ := execDecode_eq_next.mp h; exact ⟨rfl, rfl⟩
  · obtain ⟨-, rfl⟩ := execSerialize_eq_next.mp h; exact ⟨rfl, rfl⟩

/-- Only `DECODE` and `SERIALIZE` write `OBUF` and `OLEN` (30_encoding.md R83). -/
theorem execAt_out {i : Instr} {s t : State cfg} (h : execAt i s = .next t) (hi : i = .encode ∨ i = .parse) : SameOut s t := by
  rcases hi with rfl | rfl
  · obtain ⟨-, rfl⟩ := execEncode_eq_next.mp h; exact ⟨rfl, rfl⟩
  · obtain ⟨-, ⟨_, -, rfl⟩ | ⟨_, -, rfl⟩⟩ := execParse_eq_next.mp h <;> exact ⟨rfl, rfl⟩

/-- Only `PARSE` can set an error (60_exceptions.md R230). -/
theorem execAt_error {i : Instr} {s t : State cfg} (h : execAt i s = .next t) (hi : i ≠ .parse) : SameError s t := by
  cases i with
  | encode => obtain ⟨-, rfl⟩ := execEncode_eq_next.mp h; exact ⟨rfl, rfl, rfl⟩
  | decode => obtain ⟨-, -, rfl⟩ := execDecode_eq_next.mp h; exact ⟨rfl, rfl, rfl⟩
  | serialize => obtain ⟨-, rfl⟩ := execSerialize_eq_next.mp h; exact ⟨rfl, rfl, rfl⟩
  | parse => exact absurd rfl hi

/-- A completion changes neither the input, nor the host, nor what the host was told, and ends `BUSY`. -/
theorem completeCommand_frame {s t : State cfg} (h : completeCommand s = .next t) :
    SameInput s t ∧ SameHost s t ∧ SameAnswer s t ∧ t.busy = false := by
  rcases completeCommand_eq_next.mp h with ⟨i, -, h⟩ | ⟨-, rfl⟩ | ⟨-, rfl⟩
  · obtain ⟨h1, h2, h3⟩ := execAt_frame h
    exact ⟨h1, h2, h3, (execAt_idle h).1⟩
  · exact ⟨⟨rfl, rfl, rfl, rfl⟩, ⟨rfl, rfl, rfl, rfl, rfl, rfl, rfl⟩, ⟨rfl, rfl⟩, rfl⟩
  · exact ⟨⟨rfl, rfl, rfl, rfl⟩, ⟨rfl, rfl, rfl, rfl, rfl, rfl, rfl⟩, ⟨rfl, rfl⟩, rfl⟩

/-! ### Host operations -/

/-- What a host operation can do. -/
theorem hostOp_cases {op : HostOp cfg} {s t : State cfg} (h : hostOp op s = .next t) :
    (op.isRead = true ∧ ∃ r n, t = { s with resp := some r, draws := n }) ∨
    (op = .reset ∧ t = s.resetBlock) ∨
    (∃ i v, op = .writeIn i v ∧ s.busy = false ∧ i < cfg.chunk ∧ t = { s with ibuf := Memory.set s.ibuf i v }) ∨
    (∃ l, op = .setLen l ∧ s.busy = false ∧ l ≤ cfg.chunk ∧ t = { s with ilen := BitVec.ofNat cfg.lenBits l }) ∨
    (∃ n, op = .setN n ∧ s.busy = false ∧ t = { s with narg := n }) ∨
    (∃ w, op = .issue w ∧ hostIssue w s = .next t) := by
  by_cases hr : op.isRead = true
  · obtain ⟨r, n, h'⟩ := hostOp_read hr s
    exact .inl ⟨hr, r, n, Host.Outcome.next.inj (h.symm.trans h')⟩
  · cases op <;> simp only [HostOp.isRead, not_true_eq_false] at hr
    · exact .inr (.inl ⟨rfl, (Host.Outcome.next.inj h).symm⟩)
    · rename_i i v; exact .inr (.inr (.inl ⟨i, v, rfl, hostWriteIn_eq_next.mp h⟩))
    · rename_i l; exact .inr (.inr (.inr (.inl ⟨l, rfl, hostSetLen_eq_next.mp h⟩)))
    · rename_i n; exact .inr (.inr (.inr (.inr (.inl ⟨n, rfl, hostSetN_eq_next.mp h⟩))))
    · rename_i w; exact .inr (.inr (.inr (.inr (.inr ⟨w, rfl, h⟩))))

/-- A `LOAD` that ends in a state changed `IBUF`, `ILEN` and `NARG` alone, and keeps the form of `IBUF`. -/
theorem loadChunk_frame {bs : List Byte} {s t : State cfg} (h : loadChunk bs s = .next t) :
    ∃ m, t = { s with ibuf := m, ilen := BitVec.ofNat cfg.lenBits bs.length, narg := BitVec.ofNat cfg.nargBits bs.length } ∧
      s.busy = false ∧ bs.length ≤ cfg.chunk ∧ (Memory.wf s.ibuf → Memory.wf m) ∧
      ((∀ c ∈ s.ibuf, c.1 < cfg.chunk) → ∀ c ∈ m, c.1 < cfg.chunk) := by
  obtain ⟨u, h1, h2⟩ := andThen_eq_next.mp h
  obtain ⟨v, h3, h4⟩ := andThen_eq_next.mp h2
  obtain ⟨m, rfl, hw, hl⟩ := writeBytes_frame h1
  obtain ⟨hb, hl', rfl⟩ := hostSetLen_eq_next.mp h3
  obtain ⟨-, rfl⟩ := hostSetN_eq_next.mp h4
  exact ⟨m, rfl, hb, hl', hw, hl⟩

/-! ### Drivers -/

/-- What a driver in Reading can do. -/
theorem driverRead_cases {d : Direction} {s t : State cfg} (h : driverRead d s = .next t) :
    ∃ f, t = { s with readFails := f, driver := .finished .inputStreamError } ∨
      (s.nextChunk = [] ∧ t = { s with readFails := f, driver := .finished .ok }) ∨
      (s.nextChunk ≠ [] ∧
        t = { s with
          readFails := f
          sourcePos := s.sourcePos + s.nextChunk.length
          driver := .working d s.nextChunk }) := by
  unfold driverRead at h
  split at h
  · exact ⟨_, .inl (Host.Outcome.next.inj h).symm⟩
  · split at h
    case isTrue hc => exact ⟨_, .inr (.inl ⟨hc, (Host.Outcome.next.inj h).symm⟩)⟩
    case isFalse hc => exact ⟨_, .inr (.inr ⟨hc, (Host.Outcome.next.inj h).symm⟩)⟩

/-- What a driver in Encoding can do: the command lines of its chunk, one after the other. -/
theorem driverWork_cases {d : Direction} {c : List Byte} {s t : State cfg} (h : driverWork d c s = .next t) :
    ∃ u, loadChunk c s = .next u ∧
      ((d = .encoding ∧ ∃ v w, hostCommand (encode .encode) u = .next v ∧ hostCommand (encode .serialize) v = .next w ∧
          t = w.withDriver (.writing .encoding)) ∨
        (d = .decoding ∧ ∃ v, hostCommand (encode .parse) u = .next v ∧
          ((v.err = errMalformedFrame ∧ t = v.withDriver (.finished .malformedFrame)) ∨
            (v.err ≠ errMalformedFrame ∧ ∃ w, hostCommand (encode .decode) v = .next w ∧
              t = w.withDriver (.writing .decoding))))) := by
  obtain ⟨u, h1, h2⟩ := andThen_eq_next.mp h
  refine ⟨u, h1, ?_⟩
  cases d with
  | encoding =>
    obtain ⟨v, h3, h4⟩ := andThen_eq_next.mp h2
    obtain ⟨w, h5, h6⟩ := andThen_eq_next.mp h4
    exact .inl ⟨rfl, v, w, h3, h5, (Host.Outcome.next.inj h6).symm⟩
  | decoding =>
    obtain ⟨v, h3, h4⟩ := andThen_eq_next.mp h2
    refine .inr ⟨rfl, v, h3, ?_⟩
    split at h4
    case isTrue he => exact .inl ⟨he, (Host.Outcome.next.inj h4).symm⟩
    case isFalse he =>
      obtain ⟨w, h5, h6⟩ := andThen_eq_next.mp h4
      exact .inr ⟨he, w, h5, (Host.Outcome.next.inj h6).symm⟩

/-- What a driver in Writing can do. -/
theorem driverWrite_cases {d : Direction} {s t : State cfg} (h : driverWrite d s = .next t) :
    ∃ f k,
      t = { s with writeFails := f, sink := s.sink ++ s.validOut.take k, driver := .finished .outputStreamError } ∨
      t = { s with writeFails := f, sink := s.sink ++ s.validOut, driver := .reading d } := by
  unfold driverWrite at h
  split at h
  · exact ⟨_, _, .inl (Host.Outcome.next.inj h).symm⟩
  · exact ⟨_, 0, .inr (Host.Outcome.next.inj h).symm⟩

/-! ### Steps -/

/-- What a step can do: a move of a running driver, a completion, or the head of the program. -/
theorem stepAt_cases {s t : State cfg} (h : stepAt s = .next t) :
    (s.driver.running = true ∧
      ((∃ d, s.driver = .reading d ∧ driverRead d s = .next t) ∨
        (∃ d c, s.driver = .working d c ∧ driverWork d c s = .next t) ∨
        ∃ d, s.driver = .writing d ∧ driverWrite d s = .next t)) ∨
    (s.driver.running = false ∧
      ((s.program = [] ∧ blockComplete s = .next t) ∨
        ∃ e rest, s.program = e :: rest ∧ runEvent e (s.withProgram rest) = .next t)) := by
  cases hd : s.driver.running
  · right
    refine ⟨rfl, ?_⟩
    cases hp : s.program with
    | nil => rw [stepAt_of_nil hd hp] at h; exact .inl ⟨rfl, h⟩
    | cons e rest => rw [stepAt_of_event hd hp] at h; exact .inr ⟨e, rest, rfl, h⟩
  · left
    refine ⟨rfl, ?_⟩
    rw [stepAt_of_running hd, driverStep] at h
    cases hs : s.driver with
    | inactive => rw [hs] at hd; simp [Driver.running] at hd
    | finished r => rw [hs] at hd; simp [Driver.running] at hd
    | reading d => rw [hs] at h; exact .inl ⟨d, rfl, h⟩
    | working d c => rw [hs] at h; exact .inr (.inl ⟨d, c, rfl, h⟩)
    | writing d => rw [hs] at h; exact .inr (.inr ⟨d, rfl, h⟩)

end Sys2Proof.Machine
end

