-- ==== Sys2Proof/Laws/Kept.lean ====
section
/-! SUPPORT. Properties of the block that every step keeps: it is enough that each single move keeps them. -/

namespace Sys2Proof.Machine

variable {cfg : Config}

/-- A property of the block that the host's own state does not enter, and that each single move keeps. -/
structure KeptByMoves (P : State cfg → Prop) : Prop where
  host : ∀ (s : State cfg) (p : List (Event cfg)) (d : Driver) (pos : Nat) (sink : List Byte) (rf : List Bool)
    (wf : List (Option Nat)) (r : Option (Response cfg)) (n : Nat), P s →
    P { s with
      program := p, driver := d, sourcePos := pos, sink := sink, readFails := rf, writeFails := wf, resp := r, draws := n }
  reset : ∀ s : State cfg, P s → P s.resetBlock
  writeIn : ∀ (s : State cfg) (i : Nat) (v : Byte), P s → s.busy = false → i < cfg.chunk →
    P { s with ibuf := Memory.set s.ibuf i v }
  setLen : ∀ (s : State cfg) (len : Nat), P s → s.busy = false → len ≤ cfg.chunk → P { s with ilen := BitVec.ofNat cfg.lenBits len }
  setN : ∀ (s : State cfg) (n : BitVec cfg.nargBits), P s → s.busy = false → P { s with narg := n }
  accept : ∀ (s : State cfg) (a : Activity), P s → s.busy = false → s.err = errNone → a ≠ .idle → P (s.accept a)
  complete : ∀ s t : State cfg, P s → s.busy = true → completeCommand s = .next t → P t
  beat : ∀ s t : State cfg, P s → s.busy = true → blockBeat s = .next t → P t

/-- An accepted word is executing (10_state.md R44). -/
theorem activityOf_ne_idle (w : Byte) : activityOf w ≠ .idle := by
  unfold activityOf; split <;> simp

variable {P : State cfg → Prop}

/-- It is kept by a command line. -/
theorem KeptByMoves.command (hP : KeptByMoves P) {w : Byte} {s t : State cfg} (hs : P s) (h : hostCommand w s = .next t) :
    P t := by
  obtain ⟨hb, ⟨he, rfl⟩ | ⟨he, h⟩⟩ := hostCommand_eq_next.mp h
  · exact hs
  · exact hP.complete _ _ (hP.accept s _ hs hb he (activityOf_ne_idle w)) rfl h

/-- It is kept by writing consecutive bytes. -/
theorem KeptByMoves.writeBytes (hP : KeptByMoves P) {bs : List Byte} {i : Nat} {s t : State cfg} (hs : P s)
    (h : writeBytes i bs s = .next t) : P t := by
  induction bs generalizing i s with
  | nil => cases h; exact hs
  | cons b bs ih =>
    obtain ⟨u, h1, h2⟩ := andThen_eq_next.mp h
    obtain ⟨hb, hi, rfl⟩ := hostWriteIn_eq_next.mp h1
    exact ih (hP.writeIn s i b hs hb hi) h2

/-- It is kept by a `LOAD`. -/
theorem KeptByMoves.load (hP : KeptByMoves P) {bs : List Byte} {s t : State cfg} (hs : P s)
    (h : loadChunk bs s = .next t) : P t := by
  obtain ⟨u, h1, h2⟩ := andThen_eq_next.mp h
  obtain ⟨v, h3, h4⟩ := andThen_eq_next.mp h2
  obtain ⟨hb, hl, rfl⟩ := hostSetLen_eq_next.mp h3
  obtain ⟨hb', rfl⟩ := hostSetN_eq_next.mp h4
  exact hP.setN _ _ (hP.setLen _ _ (hP.writeBytes hs h1) hb hl) hb'

/-- It is kept by a host operation. -/
theorem KeptByMoves.hostOp (hP : KeptByMoves P) {op : HostOp cfg} {s t : State cfg} (hs : P s)
    (h : hostOp op s = .next t) : P t := by
  rcases hostOp_cases h with ⟨-, r, n, rfl⟩ | ⟨-, rfl⟩ | ⟨i, v, -, hb, hi, rfl⟩ | ⟨l, -, hb, hl, rfl⟩ |
    ⟨n, -, hb, rfl⟩ | ⟨w, -, h⟩
  · exact hP.host s s.program s.driver s.sourcePos s.sink s.readFails s.writeFails _ _ hs
  · exact hP.reset s hs
  · exact hP.writeIn s i v hs hb hi
  · exact hP.setLen s l hs hb hl
  · exact hP.setN s n hs hb
  · obtain ⟨hb, ⟨-, rfl⟩ | ⟨he, rfl⟩⟩ := hostIssue_eq_next.mp h
    · exact hs
    · exact hP.accept s _ hs hb he (activityOf_ne_idle w)

/-- It is kept by the next state of the driver. -/
theorem KeptByMoves.withDriver (hP : KeptByMoves P) {s : State cfg} (hs : P s) (d : Driver) : P (s.withDriver d) :=
  hP.host s s.program d s.sourcePos s.sink s.readFails s.writeFails s.resp s.draws hs

/-- It is kept by the rest of the program. -/
theorem KeptByMoves.withProgram (hP : KeptByMoves P) {s : State cfg} (hs : P s) (p : List (Event cfg)) : P (s.withProgram p) :=
  hP.host s p s.driver s.sourcePos s.sink s.readFails s.writeFails s.resp s.draws hs

/-- It is kept by an entry of the program. -/
theorem KeptByMoves.event (hP : KeptByMoves P) {e : Event cfg} {s t : State cfg} (hs : P s)
    (h : runEvent e s = .next t) : P t := by
  cases e with
  | host op => exact hP.hostOp hs h
  | command w => exact hP.command hs h
  | wait =>
    simp only [runEvent] at h
    split at h
    case isTrue hb => exact hP.complete (s.withProgram (.wait :: s.program)) t (hP.withProgram hs _) hb h
    case isFalse hb =>
      obtain ⟨r, n, h'⟩ := hostOp_read (op := .readStatus) rfl s
      rw [show Machine.hostOp .readStatus s = .next (hostReadStatus s) from rfl, h] at h'
      cases h'
      exact hP.host s s.program s.driver s.sourcePos s.sink s.readFails s.writeFails _ _ hs
  | load bs => exact hP.load hs h
  | compress => cases h; exact hP.withProgram hs _
  | decompress => cases h; exact hP.withProgram hs _
  | perform d => cases h; exact hP.withDriver (hP.reset s hs) _
  | beat =>
    cases hb : s.busy with
    | true => exact hP.beat s t hs hb h
    | false =>
      rcases blockBeat_eq_next.mp h with ⟨-, rfl⟩ | ⟨hb', -⟩
      · exact hs
      · simp [hb] at hb'
  | complete =>
    rcases blockComplete_eq_next.mp h with ⟨-, rfl⟩ | ⟨hb, h⟩
    · exact hs
    · exact hP.complete s t hs hb h

/-- It is kept by the work on a chunk. -/
theorem KeptByMoves.driverWork (hP : KeptByMoves P) {d : Direction} {c : List Byte} {s t : State cfg} (hs : P s)
    (h : driverWork d c s = .next t) : P t := by
  obtain ⟨u, h1, ⟨rfl, v, w, h2, h3, rfl⟩ | ⟨rfl, v, h2, ⟨-, rfl⟩ | ⟨-, w, h3, rfl⟩⟩⟩ := driverWork_cases h
  · exact hP.withDriver (hP.command (hP.command (hP.load hs h1) h2) h3) _
  · exact hP.withDriver (hP.command (hP.load hs h1) h2) _
  · exact hP.withDriver (hP.command (hP.command (hP.load hs h1) h2) h3) _

/-- What each single move keeps, every step keeps. -/
theorem KeptByMoves.step (hP : KeptByMoves P) {s t : State cfg} (hs : P s) (h : stepAt s = .next t) : P t := by
  rcases stepAt_cases h with ⟨-, ⟨d, -, h⟩ | ⟨d, c, -, h⟩ | ⟨d, -, h⟩⟩ | ⟨-, ⟨-, h⟩ | ⟨e, rest, -, h⟩⟩
  · obtain ⟨f, rfl | ⟨-, rfl⟩ | ⟨-, rfl⟩⟩ := driverRead_cases h <;>
      exact hP.host s s.program _ _ s.sink f s.writeFails s.resp s.draws hs
  · exact hP.driverWork hs h
  · obtain ⟨f, k, rfl | rfl⟩ := driverWrite_cases h <;>
      exact hP.host s s.program _ s.sourcePos _ s.readFails f s.resp s.draws hs
  · rcases blockComplete_eq_next.mp h with ⟨-, rfl⟩ | ⟨hb, h⟩
    · exact hs
    · exact hP.complete s t hs hb h
  · exact hP.event (hP.withProgram hs rest) h

end Sys2Proof.Machine
end

