-- ==== Sys2Proof/Laws/PerInstr.lean ====
section
/-! SUPPORT. Statements about each command as syntax: its word. -/

namespace Sys2Proof.Laws.CommandWord

/-- A command is well formed, its word has the reserved bits 00000 and the command's `OP`, and the word as the opcode table
numbers it decodes to the command (30_encoding.md R81, R87). -/
def Statement (i : Instr) : Prop :=
  i.wf = true ∧ rsvField (Sys2Proof.encode i) = 0b00000#5 ∧ opField (Sys2Proof.encode i) = opcode i ∧
    decodeTableWord 8 (Sys2Proof.encode i).toNat = some i

theorem encode : Statement .encode := by unfold Statement; decide

theorem decode : Statement .decode := by unfold Statement; decide

theorem serialize : Statement .serialize := by unfold Statement; decide

theorem parse : Statement .parse := by unfold Statement; decide

end Sys2Proof.Laws.CommandWord
end

