-- ==== Sys2Proof/Laws/Run.lean ====
section
/-! SUPPORT. Runs of several steps, and of several beats. -/

namespace Sys2Proof.Machine

variable {cfg : Config}

/-- The machine the host sees is that of the configuration of this hardware. -/
theorem core_eq_coreAt : Sys2Proof.core = coreAt Config.hardware := rfl

/-- A run of no steps stays where it is. -/
theorem run_zero (s : State cfg) : (coreAt cfg).run 0 s = .next s := rfl

/-- A run goes on from the state its first step answers. -/
theorem run_succ_of_next {s t : State cfg} (h : stepAt s = .next t) (k : Nat) :
    (coreAt cfg).run (k + 1) s = (coreAt cfg).run k t := by
  simp only [Host.Core.run, show (coreAt cfg).step s = .next t from h]

/-- A run of one step is that step. -/
theorem run_one (s : State cfg) : (coreAt cfg).run 1 s = stepAt s := by
  cases h : stepAt s with
  | next t => rw [run_succ_of_next h]; rfl
  | fault f => simp only [Host.Core.run, show (coreAt cfg).step s = .fault f from h]; rfl
  | refused r => simp only [Host.Core.run, show (coreAt cfg).step s = .refused r from h]; rfl

/-- A run ends at a fault of its first step. -/
theorem run_succ_of_fault {s : State cfg} {f : Fault cfg} (h : stepAt s = .fault f) (k : Nat) :
    (coreAt cfg).run (k + 1) s = .fault f := by
  simp only [Host.Core.run, show (coreAt cfg).step s = .fault f from h]

/-- Two runs one after the other are one run. -/
theorem run_add_of_next {j : Nat} {s t : State cfg} (h : (coreAt cfg).run j s = .next t) (k : Nat) :
    (coreAt cfg).run (j + k) s = (coreAt cfg).run k t := by
  induction j generalizing s with
  | zero => cases h; rw [Nat.zero_add]
  | succ j ih =>
    cases hs : stepAt s with
    | next u =>
      rw [run_succ_of_next hs] at h
      rw [Nat.succ_add, run_succ_of_next hs, ih h]
    | fault r => simp [Host.Core.run, show (coreAt cfg).step s = .fault r from hs] at h
    | refused r => simp [Host.Core.run, show (coreAt cfg).step s = .refused r from hs] at h

@[simp] theorem beats_zero (s : State cfg) : beats 0 s = .next s := rfl

/-- Beats go on from the state the first beat answers. -/
theorem beats_succ_of_next {s t : State cfg} (h : blockBeat s = .next t) (k : Nat) : beats (k + 1) s = beats k t := by
  rw [beats, h, andThen_next]

end Sys2Proof.Machine
end

