-- ==== Sys2Proof/Tests/Slice0.lean ====
section
/-! SUPPORT. Tests: the checks refuse ill-formed terms, words written out from the encoding tables decode to their commands,
test vectors of 95_test_vectors.md, and a witness for the hypotheses of each obligation. -/

namespace Sys2Proof.Tests

open Sys2Proof Sys2Proof.Machine

/-! ### Helpers -/

/-- The reset state with a chunk loaded. -/
def withChunk (xs : List Byte) : State :=
  { State.reset with
    ibuf := Memory.cellsFrom 0 xs
    ilen := BitVec.ofNat 10 xs.length
    narg := BitVec.ofNat 16 xs.length }

/-- The reset state with runs in `RUNBUF`. -/
def withRuns (rs : List Run) : State :=
  { State.reset with runbuf := Memory.cellsFrom 0 rs, rcount := BitVec.ofNat 10 rs.length }

/-- A command in flight on a loaded chunk. -/
def inFlight (i : Instr) (xs : List Byte) : State := (withChunk xs).accept (.running i)

/-- The block after an illegal word. -/
def inError : State := State.reset.raise errIllegalCommand 0#9 false

/-- The reset state with a program for the host. -/
def withProg (p : List Event) : State := State.reset.withProgram p

/-- The reset state with a driver in a given state. -/
def driving (d : Driver) : State := State.reset.withDriver d

/-- A property of the state a result ends in. -/
def endsIn (r : Result) (p : State → Bool) : Bool :=
  match r with
  | .next t => p t
  | .fault _ => false
  | .refused _ => false

/-- The machine with `CHUNK = 4`. -/
def small : Config where
  params := { chunk := 4, lenBits := 3, nargBits := 16, olenBits := 9, offBits := 2 }
  legal := by decide

/-! ### The checks refuse ill-formed terms -/

/-- R10: `CHUNK >= 2`. -/
theorem test_wf_chunk_small : Params.wf { Params.default with chunk := 0 } = false := by decide

/-- R10: `CHUNK` is even. -/
theorem test_wf_chunk_odd : Params.wf { Params.default with chunk := 511 } = false := by decide

/-- R13: the registers of this hardware hold no chunk of 1024 bytes, and each width is checked alone. -/
theorem test_wf_chunk_wide :
    Params.wf { Params.default with chunk := 1024 } = false ∧
      Params.wf { chunk := 1024, lenBits := 10, nargBits := 16, olenBits := 17, offBits := 10 } = false ∧
      Params.wf { chunk := 1024, lenBits := 11, nargBits := 15, olenBits := 17, offBits := 10 } = false ∧
      Params.wf { chunk := 1024, lenBits := 11, nargBits := 16, olenBits := 16, offBits := 10 } = false ∧
      Params.wf { chunk := 1024, lenBits := 11, nargBits := 16, olenBits := 17, offBits := 9 } = false ∧
      Params.wf { chunk := 65536, lenBits := 17, nargBits := 16, olenBits := 24, offBits := 16 } = false := by decide

/-- R13: at `CHUNK = 512` the widths are the ones it gives. -/
theorem test_wf_widths_at_512 : Params.wf { Params.default with lenBits := 11 } = false := by decide

/-- R10: 512 is a legal chunk size, and so is 1024 with registers that are wide enough. -/
theorem test_wf_chunk :
    Params.wf Params.default = true ∧
      Params.wf { chunk := 1024, lenBits := 11, nargBits := 16, olenBits := 17, offBits := 10 } = true := by decide

/-- R17: a run never represents zero repetitions. -/
theorem test_wf_run_zero : Run.wf { count := 0#8, byte := 0x41#8 } = false := by decide

/-- R83: a command has no field that could be ill formed. -/
theorem test_wf_instr : Instr.wf .encode = true ∧ Instr.wf .decode = true ∧ Instr.wf .serialize = true ∧ Instr.wf .parse = true := by
  decide

/-- CMD9 (R41). -/
theorem test_wf_writeIn : HostOp.wf (cfg := .hardware) (.writeIn 512 0#8) = false ∧ HostOp.wf (cfg := .hardware) (.writeIn 511 0#8) = true := by decide

/-- CMD8 (R42). -/
theorem test_wf_setLen : HostOp.wf (cfg := .hardware) (.setLen 513) = false ∧ HostOp.wf (cfg := .hardware) (.setLen 512) = true := by decide

/-- R90: `LOAD` requires `m <= CHUNK`. -/
theorem test_wf_load : Event.wf (cfg := .hardware) (.load (List.replicate 513 0#8)) = false := by
  simp only [Event.wf, List.length_replicate]; decide

/-- R90: `LOAD` of a full chunk. -/
theorem test_wf_load_full : Event.wf (cfg := .hardware) (.load (List.replicate 512 0#8)) = true := by
  simp only [Event.wf, List.length_replicate]; decide

/-! ### Words, written out bit by bit: RSV in bits 7:3, OP in bits 2:0 (R81, R87) -/

theorem test_word_encode : decodeWord (0b00000#5 ++ 0b001#3) = .ok .encode := by rfl

theorem test_word_decode : decodeWord (0b00000#5 ++ 0b010#3) = .ok .decode := by rfl

theorem test_word_serialize : decodeWord (0b00000#5 ++ 0b011#3) = .ok .serialize := by rfl

theorem test_word_parse : decodeWord (0b00000#5 ++ 0b100#3) = .ok .parse := by rfl

/-- The words of the opcode table: 0x01 to 0x04. -/
theorem test_words_encoded : [Instr.encode, .decode, .serialize, .parse].map encode = [0x01#8, 0x02#8, 0x03#8, 0x04#8] := by decide

/-- CMD1, CMD2 (R86): the four words with `RSV = 0` and a reserved `OP`. -/
theorem test_words_reserved_opcode :
    decodeWord 0x00#8 = .error .reservedOpcode ∧ decodeWord 0x05#8 = .error .reservedOpcode ∧
      decodeWord 0x06#8 = .error .reservedOpcode ∧ decodeWord 0x07#8 = .error .reservedOpcode := ⟨rfl, rfl, rfl, rfl⟩

/-- CMD3, CMD4 (R81): `RSV` is not 0, whatever `OP` is. -/
theorem test_words_reserved_bits :
    decodeWord 0x09#8 = .error .reservedBits ∧ decodeWord 0xFF#8 = .error .reservedBits ∧
      decodeWord 0x84#8 = .error .reservedBits ∧ decodeWord 0x08#8 = .error .reservedBits := ⟨rfl, rfl, rfl, rfl⟩

theorem test_no_word : decode [] = .error .noWord := rfl

theorem test_table_words :
    decodeTableWord 8 1 = some .encode ∧ decodeTableWord 8 2 = some .decode ∧ decodeTableWord 8 3 = some .serialize ∧
      decodeTableWord 8 4 = some .parse ∧ decodeTableWord 8 9 = none := by decide

/-! ### ENCODE -/

/-- V6 and the worked example of R100: "AABBBAC". -/
theorem test_encode_example :
    endsIn (exec .encode (withChunk [0x41#8, 0x41#8, 0x42#8, 0x42#8, 0x42#8, 0x41#8, 0x43#8]))
      (fun t => t.rcount == 4#10 && t.validRuns == [⟨2#8, 0x41#8⟩, ⟨3#8, 0x42#8⟩, ⟨1#8, 0x41#8⟩, ⟨1#8, 0x43#8⟩]) = true := by
  decide

/-- ENC13: `NARG` below `ILEN`; ENC12: above it. -/
theorem test_encode_clamp :
    endsIn (exec .encode { withChunk [0x41#8, 0x41#8, 0x41#8, 0x42#8] with narg := 2#16 })
      (fun t => t.validRuns == [⟨2#8, 0x41#8⟩]) = true ∧
    endsIn (exec .encode { withChunk [0x41#8, 0x41#8, 0x41#8, 0x42#8] with narg := 1000#16 })
      (fun t => t.validRuns == [⟨3#8, 0x41#8⟩, ⟨1#8, 0x42#8⟩]) = true := by
  decide

/-- ENC5 (R104): the run of the last of 256 equal bytes is a new one; here from a run with 254 bytes open. -/
theorem test_encode_limit : rleFrom 254#8 0x11#8 [0x11#8, 0x11#8] = [⟨255#8, 0x11#8⟩, ⟨1#8, 0x11#8⟩] := by decide

/-- R112: the first beat opens a run, and a beat on another byte closes it without consuming that byte. -/
theorem test_beat_encode :
    endsIn (blockBeat (inFlight .encode [0x41#8, 0x42#8])) (fun t => t.scanner.cnt == 1#8 && t.scanner.pos == 1#10) = true ∧
    endsIn (beats 2 (inFlight .encode [0x41#8, 0x42#8]))
      (fun t => t.scanner.pos == 1#10 && t.scanner.k == 1#10 && t.runbuf == [(0, ⟨1#8, 0x41#8⟩)] && t.busy) = true := by
  decide

/-! ### DECODE -/

/-- DEC4. -/
theorem test_decode_example :
    endsIn (exec .decode (withRuns [⟨2#8, 0x41#8⟩, ⟨3#8, 0x42#8⟩, ⟨1#8, 0x41#8⟩, ⟨1#8, 0x43#8⟩]))
      (fun t => t.olen == 7#16 && t.validOut == [0x41#8, 0x41#8, 0x42#8, 0x42#8, 0x42#8, 0x41#8, 0x43#8]) = true := by
  decide

/-- R133: a run is loaded, then its bytes are emitted. -/
theorem test_beat_decode :
    endsIn (beats 2 ((withRuns [⟨2#8, 0x41#8⟩]).accept (.running .decode)))
      (fun t => t.expander.rem == 1#8 && t.expander.opos == 1#16 && t.obuf == [(0, 0x41#8)]) = true := by
  decide

/-! ### SERIALIZE -/

/-- SER3. -/
theorem test_serialize_example :
    endsIn (exec .serialize (withRuns [⟨2#8, 0x41#8⟩, ⟨3#8, 0x42#8⟩, ⟨1#8, 0x41#8⟩, ⟨1#8, 0x43#8⟩]))
      (fun t => t.olen == 8#16 &&
        t.validOut == [0x02#8, 0x41#8, 0x03#8, 0x42#8, 0x01#8, 0x41#8, 0x01#8, 0x43#8]) = true := by
  decide

/-- SER2: a count of 255 is the byte 0xFF, a byte value 0 is 0x00; in two beats (R152). -/
theorem test_beat_serialize :
    endsIn (beats 2 ((withRuns [⟨255#8, 0x00#8⟩]).accept (.running .serialize)))
      (fun t => t.obuf == [(0, 0xFF#8), (1, 0x00#8)] && t.serializer.idx == 1#10 && !t.serializer.half) = true := by
  decide

/-! ### PARSE -/

/-- PAR7: the lowest offset wins; PAR6: within a frame the missing byte wins (R177). -/
theorem test_parse_first_failure :
    endsIn (exec .parse (withChunk [0x00#8, 0x41#8, 0x05#8]))
      (fun t => t.err == 1#3 && t.errOff == 0#9 && t.errZero && t.rcount == 0#10) = true ∧
    endsIn (exec .parse (withChunk [0x00#8]))
      (fun t => t.err == 1#3 && t.errOff == 0#9 && !t.errZero && t.rcount == 0#10) = true := by
  decide

/-- PAR9 and PAR10: oddness is judged on `min(NARG, ILEN)` (R179). -/
theorem test_parse_effective_length :
    endsIn (exec .parse { withChunk [0x01#8, 0x41#8, 0x01#8, 0x42#8] with narg := 3#16 })
      (fun t => t.err == 1#3 && t.errOff == 2#9 && !t.errZero) = true ∧
    endsIn (exec .parse { withChunk [0x01#8, 0x41#8, 0x01#8] with narg := 2#16 })
      (fun t => t.err == 0#3 && t.validRuns == [⟨1#8, 0x41#8⟩]) = true := by
  decide

/-- R176: PAR5 in beats fails at the fourth. -/
theorem test_beat_parse :
    endsIn (beats 4 (inFlight .parse [0x01#8, 0x41#8, 0x00#8, 0x42#8]))
      (fun t => t.err == 1#3 && t.errOff == 2#9 && t.errZero && !t.busy && t.runbuf == []) = true := by
  decide

/-! ### The host and the step -/

/-- CMD3: from ENC10's end state, 0x09 runs no `ENCODE`. -/
theorem test_illegal_word :
    endsIn (hostCommand 0x09#8 (withRuns [⟨1#8, 0x41#8⟩, ⟨1#8, 0x42#8⟩, ⟨1#8, 0x41#8⟩]))
      (fun t => t.err == 2#3 && t.rcount == 3#10) = true := by
  decide

/-- CMD5: after CMD1, `ENCODE` on `41 41` is ignored. -/
theorem test_error_sticky :
    endsIn (hostCommand 0x01#8 { withChunk [0x41#8, 0x41#8] with err := 2#3 }) (fun t => t.rcount == 0#10 && t.err == 2#3) = true := by
  decide

/-- CMD7. -/
theorem test_write_while_busy :
    hostOp (.writeIn 0 0x41#8) (State.reset.accept (activityOf 0x01#8)) = .fault (.hostWriteWhileBusy (.writeIn 0 0x41#8)) := rfl

/-- CMD8 and CMD9. -/
theorem test_host_bounds :
    hostOp (.setLen 513) State.reset = .fault (.hostLenTooLarge (.setLen 513)) ∧
      hostOp (.writeIn 512 0#8) State.reset = .fault (.hostIndexOutOfRange (.writeIn 512 0#8)) := ⟨rfl, rfl⟩

/-- R23: `BUSY` bit 0, `ERR` bits 3:1, `ERR_OFF` bits 12:4, `ERR_ZERO` bit 13. -/
theorem test_status_word :
    ({ State.reset with err := 1#3, errOff := 2#9, errZero := true } : State).statusWord = 0b10000000100010#14 := by decide

/-- The first command after reset runs (R261, R262). -/
theorem test_first_step :
    step (State.reset.withFetchWord 8 1) = .next State.reset ∧ step (State.reset.withFetchWord 8 2) = .next State.reset ∧
      step (State.reset.withFetchWord 8 3) = .next State.reset ∧ step (State.reset.withFetchWord 8 4) = .next State.reset := ⟨rfl, rfl, rfl, rfl⟩

/-- R90: the `LOAD` of a list. -/
theorem test_load :
    endsIn (loadChunk [0x41#8, 0x42#8] State.reset)
      (fun t => t.ibuf == [(0, 0x41#8), (1, 0x42#8)] && t.ilen == 2#10 && t.narg == 2#16) = true := by
  decide

/-- DRV6: `03 78 04` ends in MalformedFrame with nothing written (R206). -/
theorem test_driver_malformed :
    endsIn (step (driving (.working .decoding [0x03#8, 0x78#8, 0x04#8])))
      (fun t => t.driver == .finished .malformedFrame && t.sink == [] && t.errOff == 2#9) = true := by
  decide

/-- DRV8: the first read fails; DRV9: a failed write leaves a prefix of the bytes. -/
theorem test_driver_stream_failures :
    endsIn (step { driving (.reading .encoding) with readFails := [true] })
      (fun t => t.driver == .finished .inputStreamError && t.sink == []) = true ∧
    endsIn (step { driving (.writing .encoding) with
        obuf := [(0, 0x02#8), (1, 0x5A#8)], olen := 2#16, writeFails := [some 1] })
      (fun t => t.driver == .finished .outputStreamError && t.sink == [0x02#8]) = true := by
  decide

/-- R10, R200: with `CHUNK = 4` a driver reads four bytes of six, and a length of five is too large (R42). -/
theorem test_chunk_parameter :
    (match stepAt { (State.powerOn (cfg := small)).withDriver (.reading .encoding) with
        source := [1#8, 2#8, 3#8, 4#8, 5#8, 6#8] } with
      | .next t => t.driver == .working .encoding [1#8, 2#8, 3#8, 4#8] && t.sourcePos == 4
      | .fault _ => false
      | .refused _ => false) = true ∧
    hostOp (.setLen 5) (State.powerOn (cfg := small)) = .fault (.hostLenTooLarge (.setLen 5)) :=
  ⟨by decide, rfl⟩

/-! ### Witnesses: the hypotheses of each obligation can be met, and each of its clauses is reached -/

/-- An invocation of a driver at the head of the program, with streams that do not fail. -/
def invoking (d : Direction) (source : List Byte) : State :=
  { withProg [.perform d] with source := source }

/-- ResetStateValues. -/
theorem wit_ResetStateValues : State.reset = State.reset ∨ ∃ s, State.reset = State.resetBlock s := .inl rfl

/-- CommandWordDecoding: each branch of the decoder, at its lowest and highest word. -/
theorem wit_CommandWordDecoding :
    (0x08#8).extractLsb' 3 5 ≠ 0b00000#5 ∧ (0xFF#8).extractLsb' 3 5 ≠ 0b00000#5 ∧ (0x01#8).extractLsb' 0 3 = 0b001#3 ∧
      (0x02#8).extractLsb' 0 3 = 0b010#3 ∧ (0x03#8).extractLsb' 0 3 = 0b011#3 ∧ (0x04#8).extractLsb' 0 3 = 0b100#3 ∧
      (0x07#8).extractLsb' 3 5 = 0b00000#5 := by
  decide

/-- OpcodeMapWords: a word next to the commands. -/
theorem wit_OpcodeMapWords : (0x05#8 : Byte) ≠ 0x01#8 ∧ (0x05#8 : Byte) ≠ 0x02#8 ∧ (0x05#8 : Byte) ≠ 0x03#8 ∧ (0x05#8 : Byte) ≠ 0x04#8 := by
  decide

/-- CommandEncodingRoundTrip. -/
theorem wit_CommandEncodingRoundTrip : Instr.wf .parse = true ∧ decodeWord 0x04#8 = .ok .parse := ⟨rfl, rfl⟩

/-- StepRunsDecodedCommand. -/
theorem wit_StepRunsDecodedCommand :
    (withProg [.command 0x03#8]).driver.running = false ∧ (withProg [.command 0x03#8]).program = .command 0x03#8 :: [] ∧
      decodeWord 0x03#8 = .ok .serialize ∧ Instr.wf .serialize = true ∧ Ready (withProg [.command 0x03#8]) :=
  ⟨rfl, rfl, rfl, rfl, rfl, rfl⟩

/-- IssueAndCompletion: busy; an error set; ready with an illegal word and with a command. -/
theorem wit_IssueAndCompletion :
    (inFlight .encode []).busy = true ∧ inError.busy = false ∧ inError.err ≠ errNone ∧ Ready State.reset ∧
      decodeWord 0x05#8 = .error .reservedOpcode ∧ decodeWord 0x02#8 = .ok .decode :=
  ⟨rfl, rfl, by decide, ⟨rfl, rfl⟩, rfl, rfl⟩

/-- IssueThenCompleteIsOneCommandLine. -/
theorem wit_IssueThenCompleteIsOneCommandLine : State.reset.driver.running = false := rfl

/-- IllegalWordSetsOnlyError. -/
theorem wit_IllegalWordSetsOnlyError :
    decodeWord 0x00#8 = .error .reservedOpcode ∧ decodeWord 0xFF#8 = .error .reservedBits ∧ Ready State.reset :=
  ⟨rfl, rfl, rfl, rfl⟩

theorem inError_legal : StatusLegal inError := ⟨by decide, by decide, by decide, by decide⟩

/-- ErrorStaysUntilReset: a step that is no reset, and one that is. -/
theorem wit_ErrorStaysUntilReset :
    StatusLegal inError ∧ inError.err ≠ errNone ∧ step inError = .next inError ∧
      step (inError.withProgram [.host .reset]) = .next inError.resetBlock :=
  ⟨inError_legal, by decide, rfl, rfl⟩

/-- HostWriteInEffect: busy, the first index outside, the last inside. -/
theorem wit_HostWriteInEffect :
    (inFlight .encode []).busy = true ∧ (State.reset.busy = false ∧ Config.hardware.chunk ≤ 512) ∧
      State.reset.busy = false ∧ 511 < Config.hardware.chunk ∧ 0 ≠ 511 := by
  decide

/-- HostSetLenEffect: busy, the first length too large, the last that fits. -/
theorem wit_HostSetLenEffect :
    (inFlight .encode []).busy = true ∧ (State.reset.busy = false ∧ Config.hardware.chunk < 513) ∧
      State.reset.busy = false ∧ 512 ≤ Config.hardware.chunk := by
  decide

/-- HostSetNEffect. -/
theorem wit_HostSetNEffect : (inFlight .parse []).busy = true ∧ State.reset.busy = false := ⟨rfl, rfl⟩

/-- HostAccessWhileBusy. -/
theorem wit_HostAccessWhileBusy : (inFlight .decode []).busy = true := rfl

/-- HostReadsReturnCurrentValues: the last byte, run and output byte that are valid. -/
theorem wit_HostReadsReturnCurrentValues :
    HostOp.isRead (cfg := .hardware) .readOLen = true ∧ (withChunk [0x41#8]).busy = false ∧
      Memory.get? (withChunk [0x41#8]).ibuf 0 = some 0x41#8 ∧ 0 < (withRuns [⟨2#8, 0x41#8⟩]).rcount.toNat ∧
      0 < ({ State.reset with olen := 1#16 } : State).olen.toNat := by
  decide

/-- UnspecifiedReadsDraw: the first index that is not valid. -/
theorem wit_UnspecifiedReadsDraw :
    ({ State.reset with olen := 1#16 } : State).olen.toNat ≤ 1 ∧ (withRuns [⟨2#8, 0x41#8⟩]).rcount.toNat ≤ 1 ∧
      Memory.get? (withChunk [0x41#8]).ibuf 1 = none := by
  decide

/-- EncodeWritesRunsOfChunk and EncodeBeatsReachCommandResult, with the largest `ILEN`. -/
theorem wit_EncodeWritesRunsOfChunk :
    ({ State.reset with ilen := 512#10 } : State).ilen.toNat ≤ Config.hardware.chunk ∧ Memory.wf (withRuns [⟨2#8, 0x41#8⟩]).runbuf := by
  decide

/-- EncodeScanEquation: a run that ends at another byte. -/
theorem wit_EncodeScanEquation :
    2 = min 255 (1 + ([0x41#8, 0x42#8].takeWhile (fun x => x == 0x41#8)).length) := by
  decide

/-- EncodeSegmentLaw: a segment of one byte between two others. -/
theorem wit_EncodeSegmentLaw :
    1 ≤ 1 ∧ [0x01#8].getLast? ≠ some 0x07#8 ∧ [0x02#8].head? ≠ some 0x07#8 := by
  decide

/-- ChunkCommandsReadOnlyChunk: two states that differ in `RUNBUF` and in the bytes past the chunk. -/
theorem wit_ChunkCommandsReadOnlyChunk :
    (Instr.parse = .encode ∨ Instr.parse = .parse) ∧ (withChunk [0x02#8, 0x41#8]).ilen.toNat ≤ Config.hardware.chunk ∧
      ({ withChunk [0x02#8, 0x41#8, 0x00#8] with narg := 2#16, runbuf := [(0, ⟨1#8, 0x00#8⟩)] } : State).ilen.toNat ≤ Config.hardware.chunk ∧
      SameError (withChunk [0x02#8, 0x41#8])
        { withChunk [0x02#8, 0x41#8, 0x00#8] with narg := 2#16, runbuf := [(0, ⟨1#8, 0x00#8⟩)] } ∧
      (withChunk [0x02#8, 0x41#8]).effLen =
        ({ withChunk [0x02#8, 0x41#8, 0x00#8] with narg := 2#16, runbuf := [(0, ⟨1#8, 0x00#8⟩)] } : State).effLen ∧
      ∀ k < (withChunk [0x02#8, 0x41#8]).effLen, (withChunk [0x02#8, 0x41#8]).inByte k =
        ({ withChunk [0x02#8, 0x41#8, 0x00#8] with narg := 2#16, runbuf := [(0, ⟨1#8, 0x00#8⟩)] } : State).inByte k := by
  refine ⟨.inr rfl, by decide, by decide, ⟨rfl, rfl, rfl⟩, by decide, by decide⟩

/-- DecodeWritesExpansion and DecodeBeatsReachCommandResult. -/
theorem wit_DecodeWritesExpansion :
    (withRuns [⟨255#8, 0x7E#8⟩]).rcount.toNat ≤ Config.hardware.runCap ∧ runSum (withRuns [⟨255#8, 0x7E#8⟩]).validRuns ≤ Config.hardware.obufCap ∧
      (∀ r ∈ (withRuns [⟨255#8, 0x7E#8⟩]).validRuns, r.wf = true) ∧ Memory.wf (withRuns [⟨255#8, 0x7E#8⟩]).obuf := by
  decide

/-- DecodeInverseAndSizes. -/
theorem wit_DecodeInverseAndSizes :
    (withChunk [0x02#8, 0x41#8]).ilen.toNat ≤ Config.hardware.chunk ∧
      framesParse ((withChunk [0x02#8, 0x41#8]).inBytes (withChunk [0x02#8, 0x41#8]).effLen) = .ok [⟨2#8, 0x41#8⟩] :=
  ⟨by decide, rfl⟩

/-- SerializeWritesFrames and SerializeBeatsReachCommandResult, with the largest `RCOUNT`. -/
theorem wit_SerializeWritesFrames :
    ({ State.reset with rcount := 512#10 } : State).rcount.toNat ≤ Config.hardware.runCap ∧ Memory.wf State.reset.obuf ∧
      511 < ({ State.reset with rcount := 512#10 } : State).rcount.toNat := by
  decide

/-- FrameInverseLaw: the smallest and the largest count. -/
theorem wit_FrameInverseLaw :
    ∀ r ∈ [(⟨1#8, 0x00#8⟩ : Run), ⟨255#8, 0xFF#8⟩], 1 ≤ r.count.toNat ∧ r.count.toNat ≤ 255 := by
  decide

/-- ParseWritesRunsOrFails and ParseBeatsReachCommandResult: PAR2 succeeds, PAR3 fails. -/
theorem wit_ParseWritesRunsOrFails :
    (withChunk [0x02#8, 0x41#8]).ilen.toNat ≤ Config.hardware.chunk ∧
      framesParse ((withChunk [0x02#8, 0x41#8]).inBytes 2) = .ok [⟨2#8, 0x41#8⟩] ∧
      framesParse ((withChunk [0x03#8, 0x78#8, 0x04#8]).inBytes 3) = .error { off := 2, zero := false } ∧
      Memory.wf (withChunk [0x02#8, 0x41#8]).runbuf :=
  ⟨by decide, rfl, rfl, by decide⟩

/-- ParseSuccessProperties. -/
theorem wit_ParseSuccessProperties :
    [0x01#8, 0x00#8].length ≤ Config.hardware.chunk ∧ framesParse [0x01#8, 0x00#8] = .ok [⟨1#8, 0x00#8⟩] ∧
      [(⟨1#8, 0x00#8⟩ : Run)][0]? = some ⟨1#8, 0x00#8⟩ :=
  ⟨by decide, rfl, rfl⟩

/-- ParseReportsFirstBadFrame: PAR5 and PAR6, a zero count and a missing byte. -/
theorem wit_ParseReportsFirstBadFrame :
    framesParse [0x01#8, 0x41#8, 0x00#8, 0x42#8] = .error { off := 2, zero := true } ∧
      framesParse [0x00#8] = .error { off := 0, zero := false } := ⟨rfl, rfl⟩

/-- ParseJudgesEffectiveLength: PAR9, odd; PAR10, even; no zero count in either. -/
theorem wit_ParseJudgesEffectiveLength :
    (withChunk [0x01#8, 0x41#8, 0x01#8]).ilen.toNat ≤ Config.hardware.chunk ∧ (withChunk [0x01#8, 0x41#8, 0x01#8]).effLen % 2 = 1 ∧
      (∀ k, 2 * k + 1 < (withChunk [0x01#8, 0x41#8, 0x01#8]).effLen → (withChunk [0x01#8, 0x41#8, 0x01#8]).inByte (2 * k) ≠ 0#8) ∧
      ({ withChunk [0x01#8, 0x41#8, 0x01#8] with narg := 2#16 } : State).effLen % 2 = 0 ∧
      (∀ k, 2 * k + 1 < ({ withChunk [0x01#8, 0x41#8, 0x01#8] with narg := 2#16 } : State).effLen →
        ({ withChunk [0x01#8, 0x41#8, 0x01#8] with narg := 2#16 } : State).inByte (2 * k) ≠ 0#8) := by
  refine ⟨by decide, by decide, fun k h => ?_, by decide, fun k h => ?_⟩
  · rw [show (withChunk [0x01#8, 0x41#8, 0x01#8]).effLen = 3 by decide] at h
    obtain rfl : k = 0 := by omega
    decide
  · rw [show ({ withChunk [0x01#8, 0x41#8, 0x01#8] with narg := 2#16 } : State).effLen = 2 by decide] at h
    obtain rfl : k = 0 := by omega
    decide

/-- EmptyInputGivesEmptyOutput. -/
theorem wit_EmptyInputGivesEmptyOutput : State.reset.effLen = 0 ∧ State.reset.rcount = 0#10 := ⟨rfl, rfl⟩

/-- CommandTwiceIsOnce: a command that changes the state. -/
theorem wit_CommandTwiceIsOnce :
    hostCommand 0x01#8 (withChunk [0x41#8]) =
      .next { withChunk [0x41#8] with runbuf := [(0, ⟨1#8, 0x41#8⟩)], rcount := 1#10 } := rfl

/-- CommandsWriteOnlyTheirBuffers: a beat in mid-command, and a completion. -/
theorem wit_CommandsWriteOnlyTheirBuffers :
    (endsIn (blockBeat (inFlight .encode [0x41#8])) fun t => t.busy && t.scanner.cnt == 1#8) = true ∧
      (endsIn (completeCommand (inFlight .parse [0x02#8, 0x41#8])) fun t => t.rcount == 1#10) = true ∧
      (inFlight .parse [0x41#8]).activity ≠ .running .decode ∧ (inFlight .parse [0x41#8]).activity ≠ .running .serialize ∧
      (inFlight .decode [0x41#8]).activity ≠ .running .encode ∧ (inFlight .decode [0x41#8]).activity ≠ .running .parse := by
  decide

/-- StepKeepsInvariant, OnlyTheHostCausesFaults: a command in flight meets the invariant. -/
theorem inFlight_inv : Inv (inFlight .encode [0x41#8]) where
  registers := ⟨by decide, by decide, by decide⟩
  status := ⟨by decide, by decide, by decide, by decide⟩
  buffers := ⟨by decide, by decide, by decide, by decide, by decide, by decide⟩
  contents := ⟨by decide, by decide, by decide, by decide⟩
  units :=
    { busy_iff := by decide
      scanner := by
        rw [if_pos (by decide)]
        exact ⟨by decide, by decide, by decide, by decide, by decide⟩
      expander := by rw [if_neg (by decide)]; rfl
      serializer := by rw [if_neg (by decide)]; rfl
      deserializer := by rw [if_neg (by decide)]; rfl }
  driver := ⟨by decide, by decide, by intro d c h; cases h⟩

/-- PowerOnStateIsLegal: the smallest `CHUNK`, and one past it that has no configuration. -/
theorem wit_PowerOnStateIsLegal : (2 ≤ 2 ∧ 2 % 2 = 0) ∧ ¬ (2 ≤ 3 ∧ 3 % 2 = 0) ∧ small.chunk = 4 := by decide

/-- HostWriteInEffect, HostSetLenEffect, LoadPlacesChunk, LoadWritesInAnyOrder with another `CHUNK`, at its bounds. -/
theorem wit_everyChunk :
    3 < small.chunk ∧ small.chunk ≤ 4 ∧ 4 ≤ small.chunk ∧ small.chunk < 5 ∧ (State.powerOn (cfg := small)).busy = false := by
  decide

theorem wit_StepKeepsInvariant :
    Inv (inFlight .encode [0x41#8]) ∧ (endsIn (step (inFlight .encode [0x41#8])) fun t => t.rcount == 1#10) = true :=
  ⟨inFlight_inv, by decide⟩

/-- StepKeepsBufferForm. -/
theorem wit_StepKeepsBufferForm :
    BuffersLegal (inFlight .encode [0x41#8]) ∧ (endsIn (step (inFlight .encode [0x41#8])) fun t => t.rcount == 1#10) = true :=
  ⟨inFlight_inv.buffers, by decide⟩

/-- StepKeepsRunCounts. -/
theorem wit_StepKeepsRunCounts :
    (∀ c ∈ (withRuns [⟨1#8, 0x41#8⟩]).runbuf, c.2.wf = true) ∧ step (withRuns [⟨1#8, 0x41#8⟩]) = .next (withRuns [⟨1#8, 0x41#8⟩]) :=
  ⟨by decide, rfl⟩

/-- ObeyingHostMeetsNoFault: with a command in flight, a host that waits. -/
theorem wit_ObeyingHostMeetsNoFault :
    Inv (inFlight .encode [0x41#8]) ∧ HostObeys (inFlight .encode [0x41#8]) ∧
      HostObeys (withProg [.host (.writeIn 511 0#8), .wait]) := by
  refine ⟨inFlight_inv, fun _ e rest h => ?_, fun _ e rest h => ?_⟩
  · cases h
  · cases h; decide

/-- LoadPlacesChunk, with the longest chunk. -/
theorem wit_LoadPlacesChunk : (List.replicate 512 0x41#8).length ≤ Config.hardware.chunk ∧ State.reset.busy = false := by
  rw [List.length_replicate]; decide

/-- LoadWritesInAnyOrder, at the bounds. -/
theorem wit_LoadWritesInAnyOrder : 511 < Config.hardware.chunk ∧ 512 ≤ Config.hardware.chunk ∧ State.reset.busy = false := by decide

/-- PseudoInstructionsExpand, IdleBlockKeepsItsState with `BUSY = 0` and with `BUSY = 1`. -/
theorem wit_PseudoInstructionsExpand :
    State.reset.driver.running = false ∧ State.reset.program = [] ∧ State.reset.busy = false ∧
      (inFlight .encode []).driver.running = false ∧ (inFlight .encode []).program = [] ∧ (inFlight .encode []).busy = true :=
  ⟨rfl, rfl, rfl, rfl, rfl, rfl⟩

/-- FailedDecompressKeepsOutput: PAR3. -/
theorem wit_FailedDecompressKeepsOutput :
    (withChunk [0x03#8, 0x78#8, 0x04#8]).driver.running = false ∧ Ready (withChunk [0x03#8, 0x78#8, 0x04#8]) ∧
      (withChunk [0x03#8, 0x78#8, 0x04#8]).ilen.toNat ≤ Config.hardware.chunk ∧
      framesParse ((withChunk [0x03#8, 0x78#8, 0x04#8]).inBytes (withChunk [0x03#8, 0x78#8, 0x04#8]).effLen) =
        .error { off := 2, zero := false } :=
  ⟨rfl, ⟨rfl, rfl⟩, by decide, rfl⟩

/-- WaitLineEndsNotBusy: both clauses. -/
theorem wit_WaitLineEndsNotBusy :
    (withProg [.wait]).driver.running = false ∧ (withProg [.wait]).program = .wait :: [] ∧ (withProg [.wait]).busy = false ∧
      ((withProg [.wait]).accept (.running .decode)).program = .wait :: [] ∧
      ((withProg [.wait]).accept (.running .decode)).busy = true :=
  ⟨rfl, rfl, rfl, rfl, rfl⟩

/-- DriverStartsWithReset. -/
theorem wit_DriverStartsWithReset :
    (invoking .decoding []).driver.running = false ∧ (invoking .decoding []).program = .perform .decoding :: [] := ⟨rfl, rfl⟩

/-- DriverIterationSteps: a read at the end of data and one byte before it, the two command sequences, and a write. -/
theorem wit_DriverIterationSteps :
    (driving (.reading .encoding)).readFails.head? ≠ some true ∧
      (driving (.reading .encoding)).source.length ≤ (driving (.reading .encoding)).sourcePos ∧
      ({ driving (.reading .encoding) with source := [0x41#8] } : State).sourcePos <
        ({ driving (.reading .encoding) with source := [0x41#8] } : State).source.length ∧
      (endsIn (loadChunk [0x41#8] (driving (.working .encoding [0x41#8]))) fun _ => true) = true ∧
      (endsIn (andThen (loadChunk [0x02#8, 0x41#8] (driving (.working .decoding [0x02#8, 0x41#8]))) (hostCommand 0x04#8))
        fun u => u.err != errMalformedFrame) = true ∧
      (driving (.writing .encoding)).writeFails.head? = none := by
  decide

/-- StreamFailuresEndDriver: a read that fails, and a write that fails after 1 byte. -/
theorem wit_StreamFailuresEndDriver :
    ({ driving (.reading .encoding) with readFails := [true] } : State).readFails = true :: [] ∧
      ({ driving (.writing .encoding) with writeFails := [some 1] } : State).writeFails = some 1 :: [] := ⟨rfl, rfl⟩

/-- MalformedFrameEndsDecoding: DRV6. -/
theorem wit_MalformedFrameEndsDecoding :
    (driving (.working .decoding [0x03#8, 0x78#8, 0x04#8])).driver = .working .decoding [0x03#8, 0x78#8, 0x04#8] ∧
      Ready (driving (.working .decoding [0x03#8, 0x78#8, 0x04#8])) ∧ [0x03#8, 0x78#8, 0x04#8].length ≤ Config.hardware.chunk ∧
      framesParse [0x03#8, 0x78#8, 0x04#8] = .error { off := 2, zero := false } :=
  ⟨rfl, ⟨rfl, rfl⟩, by decide, rfl⟩

/-- DriverStateMachine, SinkOnlyGrows: a step from each state of the driver. -/
theorem wit_DriverStateMachine :
    step (driving (.finished .ok)) = .next (driving (.finished .ok)) ∧
      (endsIn (step { driving (.reading .encoding) with source := [0x41#8] }) fun t => t.driver == .working .encoding [0x41#8]) = true ∧
      (endsIn (step (driving (.working .encoding [0x41#8]))) fun t => t.driver == .writing .encoding) = true ∧
      (endsIn (step (driving (.writing .encoding))) fun t => t.driver == .reading .encoding) = true :=
  ⟨rfl, by decide, by decide, by decide⟩

/-- EncodingDriverOutput, StreamRoundTrip. -/
theorem wit_EncodingDriverOutput :
    (invoking .encoding [0x41#8]).driver.running = false ∧
      (invoking .encoding [0x41#8]).program = .perform .encoding :: [] ∧ (invoking .encoding [0x41#8]).sourcePos = 0 ∧
      (invoking .encoding [0x41#8]).sink = [] ∧ NoStreamFailure (invoking .encoding [0x41#8]) :=
  ⟨rfl, rfl, rfl, rfl, by decide, by decide⟩

/-- WholeFramesDecode, and the second half of StreamRoundTrip. -/
theorem wit_WholeFramesDecode :
    (invoking .decoding [0x02#8, 0x41#8]).driver.running = false ∧
      (invoking .decoding [0x02#8, 0x41#8]).program = .perform .decoding :: [] ∧
      (invoking .decoding [0x02#8, 0x41#8]).sourcePos = 0 ∧ NoStreamFailure (invoking .decoding [0x02#8, 0x41#8]) ∧
      (∀ r ∈ [(⟨2#8, 0x41#8⟩ : Run)], r.wf = true) ∧
      (invoking .decoding [0x02#8, 0x41#8]).source = framesSerialize [⟨2#8, 0x41#8⟩] :=
  ⟨rfl, rfl, rfl, ⟨by decide, by decide⟩, by decide, rfl⟩

/-- DriverReturns: a driver at work on a chunk meets the invariant. -/
theorem wit_DriverReturns :
    Inv (driving (.working .encoding [0x41#8])) ∧ (driving (.working .encoding [0x41#8])).driver.running = true := by
  refine ⟨⟨⟨by decide, by decide, by decide⟩, ⟨by decide, by decide, by decide, by decide⟩,
    ⟨by decide, by decide, by decide, by decide, by decide, by decide⟩, ⟨by decide, by decide, by decide, by decide⟩,
    ⟨by decide, rfl, rfl, rfl, rfl⟩, ⟨by decide, by decide, ?_⟩⟩, rfl⟩
  intro d c h
  cases h
  decide

end Sys2Proof.Tests
end

/-! ## Proofs of the family 00_scope: the invariant

SUPPORT for O40 and O43. The invariant `Inv` is the legal block, `BlockLegal`, and the legal driver. The block part is kept by
every single move of `KeptByMoves`; the driver part is not (a command line of a driver passes through a state with `BUSY = 1`),
so it is shown of whole steps. -/

namespace Sys2Proof.Machine

section

variable {cfg : Config} {s t : State cfg}

/-! ### Filled buffers -/

/-- A buffer of `cap` entries in canonical form whose first `n` entries have been written. -/
structure Memory.Filled {α : Type} (cap : Nat) (m : Memory α) (n : Nat) : Prop where
  wf : Memory.wf m
  lt : ∀ c ∈ m, c.1 < cap
  le : n ≤ cap
  listed : ∀ i < n, (Memory.get? m i).isSome = true

section

variable {α : Type} {cap n k : Nat} {m : Memory α}

theorem Memory.Filled.nil : Memory.Filled cap ([] : Memory α) 0 :=
  ⟨List.Pairwise.nil, by simp, Nat.zero_le _, by simp⟩

/-- How far a buffer is filled is told by any number of first entries that have been written. -/
theorem Memory.Filled.of_listed (h : Memory.Filled cap m n) (hk : k ≤ cap)
    (hl : ∀ i < k, (Memory.get? m i).isSome = true) : Memory.Filled cap m k :=
  ⟨h.wf, h.lt, hk, hl⟩

theorem Memory.isSome_get?_set {i j : Nat} {v : α} (h : (Memory.get? m j).isSome = true) :
    (Memory.get? (Memory.set m i v) j).isSome = true := by
  rw [Memory.get?_set]
  split <;> simp [h]

/-- A write inside the buffer forgets no entry. -/
theorem Memory.Filled.set (h : Memory.Filled cap m n) {i : Nat} (hi : i < cap) (v : α) :
    Memory.Filled cap (Memory.set m i v) n where
  wf := Memory.set_wf h.wf i v
  lt c hc := by
    rcases Memory.mem_set hc with rfl | hc
    · exact hi
    · exact h.lt c hc
  le := h.le
  listed j hj := Memory.isSome_get?_set (h.listed j hj)

/-- A write right after the first `n` written entries makes it `n + 1`. -/
theorem Memory.listed_set_succ (h : ∀ i < n, (Memory.get? m i).isSome = true) (v : α) :
    ∀ i < n + 1, (Memory.get? (Memory.set m n v) i).isSome = true := by
  intro i hi
  rcases Nat.lt_succ_iff_lt_or_eq.mp hi with hi | rfl
  · exact Memory.isSome_get?_set (h i hi)
  · simp

/-- A result that fits is written from index 0 on. -/
theorem Memory.Filled.overwrite (h : Memory.Filled cap m n) {vs : List α} (hv : vs.length ≤ cap) :
    Memory.Filled cap (Memory.overwrite m vs) vs.length where
  wf := Memory.overwrite_wf h.wf vs
  lt c hc := by
    rcases Memory.mem_overwrite hc with ⟨hc, -⟩ | hc
    · omega
    · exact h.lt c hc
  le := hv
  listed i hi := by rw [Memory.get?_overwrite, if_pos hi]; simp [hi]

end

/-- Storing a run with a count keeps the counts of `RUNBUF` (10_state.md R33). -/
theorem counts_set {m : Memory Run} (h : ∀ c ∈ m, c.2.wf = true) {k : Nat} {r : Run} (hr : r.wf = true) :
    ∀ c ∈ Memory.set m k r, c.2.wf = true := by
  intro c hc
  rcases Memory.mem_set hc with rfl | hc
  · exact hr
  · exact h c hc

/-- Writing runs with counts keeps the counts of `RUNBUF` (10_state.md R33). -/
theorem counts_overwrite {m : Memory Run} (h : ∀ c ∈ m, c.2.wf = true) {rs : List Run} (hr : ∀ r ∈ rs, r.wf = true) :
    ∀ c ∈ Memory.overwrite m rs, c.2.wf = true := by
  intro c hc
  rcases Memory.mem_overwrite hc with ⟨-, hc⟩ | hc
  · exact hr _ hc
  · exact h c hc

/-- A run that has been written has a count when every written run has. -/
theorem runAt_count_ne_zero (h : ∀ c ∈ s.runbuf, c.2.wf = true) {k : Nat}
    (hk : (Memory.get? s.runbuf k).isSome = true) : (s.runAt k).count ≠ 0#8 := by
  obtain ⟨r, hr⟩ := Option.isSome_iff_exists.mp hk
  rw [State.runAt_of_get? hr]
  simpa [Run.wf] using h _ (Memory.mem_of_get? hr)

/-! ### The legal block -/

/-- The registers are in range, and the buffers are filled up to them. -/
structure StoresLegal (s : State cfg) : Prop where
  ilen_le : s.ilen.toNat ≤ cfg.chunk
  ibuf : Memory.Filled cfg.chunk s.ibuf 0
  runbuf : Memory.Filled cfg.runCap s.runbuf s.rcount.toNat
  counts : ∀ c ∈ s.runbuf, c.2.wf = true
  obuf : Memory.Filled cfg.obufCap s.obuf s.olen.toNat

/-- The part of the invariant that speaks of the block alone. -/
structure BlockLegal (s : State cfg) : Prop where
  stores : StoresLegal s
  status : StatusLegal s
  sum_le : s.activity ≠ .running .encode → s.activity ≠ .running .parse → runSum s.validRuns ≤ cfg.obufCap
  units : UnitsLegal s

/-- The invariant of the machine is that of the block and that of the driver. -/
theorem inv_iff : Inv s ↔ BlockLegal s ∧ DriverLegal s := by
  constructor
  · rintro ⟨hr, hst, hb, hc, hu, hd⟩
    exact ⟨⟨⟨hr.ilen_le, ⟨hb.ibuf_wf, hb.ibuf_lt, Nat.zero_le _, by simp⟩,
      ⟨hb.runbuf_wf, hb.runbuf_lt, hr.rcount_le, hc.runs_listed⟩, hc.counts,
      ⟨hb.obuf_wf, hb.obuf_lt, hr.olen_le, hc.out_listed⟩⟩, hst, hc.sum_le, hu⟩, hd⟩
  · rintro ⟨⟨hs, hst, hsum, hu⟩, hd⟩
    exact ⟨⟨hs.ilen_le, hs.runbuf.le, hs.obuf.le⟩, hst,
      ⟨hs.ibuf.wf, hs.runbuf.wf, hs.obuf.wf, hs.ibuf.lt, hs.runbuf.lt, hs.obuf.lt⟩,
      ⟨hs.counts, hs.runbuf.listed, hs.obuf.listed, hsum⟩, hu, hd⟩

/-! ### The state of the units -/

theorem UnitsIdle.legal (h : UnitsIdle s) : UnitsLegal s := by
  obtain ⟨hb, ha, hsc, hex, hse, hde⟩ := h
  constructor <;> simp [*]

theorem UnitsLegal.idle (h : UnitsLegal s) (hb : s.busy = false) : UnitsIdle s := by
  obtain ⟨hiff, hsc, hex, hse, hde⟩ := h
  have ha : s.activity = .idle := by simpa [hb] using hiff
  simp only [ha, reduceCtorEq, if_false] at hsc hex hse hde
  exact ⟨hb, ha, hsc, hex, hse, hde⟩

theorem State.retire_unitsIdle (s : State cfg) : UnitsIdle s.retire := ⟨rfl, rfl, rfl, rfl, rfl, rfl⟩

theorem unitsLegal_iff_of_encode (ha : s.activity = .running .encode) :
    UnitsLegal s ↔ s.busy = true ∧ ScannerLegal s ∧ s.expander = {} ∧ s.serializer = {} ∧ s.deserializer = {} := by
  constructor
  · rintro ⟨hiff, hsc, hex, hse, hde⟩
    simp_all
  · rintro ⟨hb, hsc, hex, hse, hde⟩
    constructor <;> simp [*]

theorem unitsLegal_iff_of_decode (ha : s.activity = .running .decode) :
    UnitsLegal s ↔ s.busy = true ∧ s.scanner = {} ∧ ExpanderLegal s ∧ s.serializer = {} ∧ s.deserializer = {} := by
  constructor
  · rintro ⟨hiff, hsc, hex, hse, hde⟩
    simp_all
  · rintro ⟨hb, hsc, hex, hse, hde⟩
    constructor <;> simp [*]

theorem unitsLegal_iff_of_serialize (ha : s.activity = .running .serialize) :
    UnitsLegal s ↔ s.busy = true ∧ s.scanner = {} ∧ s.expander = {} ∧ SerializerLegal s ∧ s.deserializer = {} := by
  constructor
  · rintro ⟨hiff, hsc, hex, hse, hde⟩
    simp_all
  · rintro ⟨hb, hsc, hex, hse, hde⟩
    constructor <;> simp [*]

theorem unitsLegal_iff_of_parse (ha : s.activity = .running .parse) :
    UnitsLegal s ↔ s.busy = true ∧ s.scanner = {} ∧ s.expander = {} ∧ s.serializer = {} ∧ DeserializerLegal s := by
  constructor
  · rintro ⟨hiff, hsc, hex, hse, hde⟩
    simp_all
  · rintro ⟨hb, hsc, hex, hse, hde⟩
    constructor <;> simp [*]

theorem unitsLegal_iff_of_illegal (ha : s.activity = .illegal) :
    UnitsLegal s ↔ s.busy = true ∧ s.scanner = {} ∧ s.expander = {} ∧ s.serializer = {} ∧ s.deserializer = {} := by
  constructor
  · rintro ⟨hiff, hsc, hex, hse, hde⟩
    simp_all
  · rintro ⟨hb, hsc, hex, hse, hde⟩
    constructor <;> simp [*]

/-! ### The block does not see the host -/

theorem SameBlock.effLen_eq (h : SameBlock s t) : t.effLen = s.effLen := by
  obtain ⟨⟨-, hl, hn, -⟩, -⟩ := h
  rw [State.effLen, State.effLen, hl, hn]

theorem SameBlock.runs_eq (h : SameBlock s t) (n : Nat) : t.runs n = s.runs n := by
  obtain ⟨⟨-, -, -, he⟩, ⟨hr, -⟩, -⟩ := h
  refine State.runs_congr fun k _ => ?_
  rw [State.runAt, State.runAt, hr, he]

theorem SameBlock.validRuns_eq (h : SameBlock s t) : t.validRuns = s.validRuns := by
  obtain ⟨-, ⟨-, hc⟩, -⟩ := id h
  rw [State.validRuns, State.validRuns, h.runs_eq, hc]

theorem ScannerLegal.congr (h : SameBlock s t) (hs : ScannerLegal s) : ScannerLegal t := by
  obtain ⟨-, ⟨hr, -⟩, -, -, -, -, hu, -⟩ := id h
  exact ⟨by rw [hu, h.effLen_eq]; exact hs.n_eq, by rw [hu, h.effLen_eq]; exact hs.pos_le, by rw [hu]; exact hs.k_le,
    by rw [hu, hr]; exact hs.listed, by rw [hu, h.runs_eq]; exact hs.sum_eq⟩

theorem ExpanderLegal.congr (h : SameBlock s t) (hs : ExpanderLegal s) : ExpanderLegal t := by
  obtain ⟨-, ⟨-, hc⟩, ⟨ho, -⟩, -, -, -, -, hu, -⟩ := id h
  exact ⟨by rw [hu, hc]; exact hs.idx_le, by rw [hu, hc]; exact hs.open_lt,
    by rw [hu, h.validRuns_eq]; exact hs.sum_eq, by rw [hu, ho]; exact hs.listed⟩

theorem SerializerLegal.congr (h : SameBlock s t) (hs : SerializerLegal s) : SerializerLegal t := by
  obtain ⟨-, ⟨-, hc⟩, ⟨ho, -⟩, -, -, -, -, -, hu, -⟩ := id h
  exact ⟨by rw [hu, hc]; exact hs.idx_le, by rw [hu, hc]; exact hs.half_lt, by rw [hu, ho]; exact hs.listed⟩

theorem DeserializerLegal.congr (h : SameBlock s t) (hs : DeserializerLegal s) : DeserializerLegal t := by
  obtain ⟨-, ⟨hr, -⟩, -, -, -, -, -, -, -, hu⟩ := id h
  exact ⟨by rw [hu, h.effLen_eq]; exact hs.n_eq, by rw [hu, h.effLen_eq]; exact hs.pos_le, by rw [hu]; exact hs.pos_eq,
    by rw [hu, hr]; exact hs.listed⟩

theorem UnitsLegal.congr (h : SameBlock s t) (hs : UnitsLegal s) : UnitsLegal t := by
  obtain ⟨hiff, hsc, hex, hse, hde⟩ := hs
  obtain ⟨-, -, -, -, hb, ha, hu1, hu2, hu3, hu4⟩ := id h
  refine ⟨by rw [hb, ha]; exact hiff, ?_, ?_, ?_, ?_⟩
  · rw [ha, hu1]; split_ifs at hsc ⊢; exacts [hsc.congr h, hsc]
  · rw [ha, hu2]; split_ifs at hex ⊢; exacts [hex.congr h, hex]
  · rw [ha, hu3]; split_ifs at hse ⊢; exacts [hse.congr h, hse]
  · rw [ha, hu4]; split_ifs at hde ⊢; exacts [hde.congr h, hde]

theorem BlockLegal.congr (h : SameBlock s t) (hs : BlockLegal s) : BlockLegal t := by
  obtain ⟨⟨hi, hl, -, -⟩, ⟨hr, hc⟩, ⟨ho, hol⟩, ⟨he, hoff, hz⟩, hb, ha, -⟩ := id h
  obtain ⟨⟨h1, h2, h3, h4, h5⟩, ⟨h6, h7, h8, h9⟩, h10, h11⟩ := hs
  exact ⟨⟨by rwa [hl], by rwa [hi], by rwa [hr, hc], by rwa [hr], by rwa [ho, hol]⟩,
    ⟨by rwa [he], by rwa [he, hoff, hz], by rwa [hoff], by rwa [hb, he]⟩,
    by rwa [ha, h.validRuns_eq], h11.congr h⟩

end

end Sys2Proof.Machine

/-! ## The invariant: single updates of a legal block

SUPPORT for O40. What a reset, a failed parse, the acceptance of a command and its completion leave is a legal block. -/

namespace Sys2Proof.Machine

section

variable {cfg : Config} {s t : State cfg}

/-! ### What the transforms give the buffers -/

theorem Config.chunk_le_obufCap (cfg : Config) : cfg.chunk ≤ cfg.obufCap := by
  have := cfg.two_mul_chunk_le_obufCap
  omega

/-- The runs of a chunk expand to the chunk (40_encoder.md R110). -/
theorem runSum_rleEncode (xs : List Byte) : runSum (rleEncode xs) = xs.length := by
  cases xs with
  | nil => rfl
  | cons x xs => rw [rleEncode_cons, ← length_rleDecode, rleDecode_rleFrom]; rfl

/-- The runs of half as many frames as `IBUF` has bytes expand to no more than `OBUF` holds (10_state.md R35). -/
theorem runSum_le_obufCap {rs : List Run} (h : 2 * rs.length ≤ cfg.chunk) : runSum rs ≤ cfg.obufCap := by
  have := runSum_le rs
  rw [cfg.obufCap_eq]
  omega

/-- The failing frame starts at an even distance from where the parse starts (20_memory.md R62). -/
theorem off_even_of_parse_error {off : Nat} {xs : List Byte} {e : FrameError}
    (h : framesParseFrom off xs = .error e) : e.off % 2 = off % 2 := by
  induction off, xs using framesParseFrom.induct with
  | case1 off => simp [framesParseFrom] at h
  | case2 off c => simp [framesParseFrom] at h; subst h; rfl
  | case3 off b xs => simp [framesParseFrom] at h; subst h; rfl
  | case4 off c b xs hc runs hr ih => rw [framesParseFrom_frame off hc, hr] at h; cases h
  | case5 off c b xs hc e' hr ih =>
    rw [framesParseFrom_frame off hc, hr] at h
    cases h
    have := ih hr
    omega

/-! ### Single updates of a legal block -/

theorem StatusLegal.of_sameError (h : StatusLegal s) (he : SameError s t) (hb : t.busy = true → s.busy = true) :
    StatusLegal t := by
  obtain ⟨h1, h2, h3⟩ := he
  exact ⟨by rw [h1]; exact h.err_le, by rw [h1, h2, h3]; exact h.info, by rw [h2]; exact h.off_even,
    fun hbt => by rw [h1]; exact h.busy_err (hb hbt)⟩

/-- A failed parse reports the offset of a frame. -/
theorem StatusLegal.failParse {off : Nat} (ho : off < cfg.chunk) (he : off % 2 = 0) (zero : Bool) :
    StatusLegal (s.failParse off zero) where
  err_le := by rw [State.failParse_err]; decide
  info h := absurd rfl h
  off_even := by rw [State.failParse_errOff, cfg.toNat_off ho, he]
  busy_err h := by simp at h

theorem StoresLegal.retire (h : StoresLegal s) : StoresLegal s.retire :=
  ⟨h.ilen_le, h.ibuf, h.runbuf, h.counts, h.obuf⟩

/-- Writing runs that fit and have counts (40_encoder.md R108, 43_parser.md R170). -/
theorem StoresLegal.writeRuns (h : StoresLegal s) {rs : List Run} (hl : rs.length ≤ cfg.runCap)
    (hr : ∀ r ∈ rs, r.wf = true) :
    StoresLegal { s with runbuf := Memory.overwrite s.runbuf rs, rcount := BitVec.ofNat cfg.lenBits rs.length } :=
  { h with
    runbuf := by rw [cfg.toNat_len hl]; exact h.runbuf.overwrite hl
    counts := counts_overwrite h.counts hr }

/-- Writing output that fits (41_decoder.md R136, 42_serializer.md R155). -/
theorem StoresLegal.writeOut (h : StoresLegal s) {out : List Byte} (hl : out.length ≤ cfg.obufCap) :
    StoresLegal { s with obuf := Memory.overwrite s.obuf out, olen := BitVec.ofNat cfg.olenBits out.length } :=
  { h with obuf := by rw [cfg.toNat_olen hl]; exact h.obuf.overwrite hl }

/-- One beat's store of a run with a count. -/
theorem StoresLegal.storeRun (h : StoresLegal s) {k : Nat} (hk : k < cfg.runCap) {r : Run} (hr : r.wf = true) :
    StoresLegal { s with runbuf := Memory.set s.runbuf k r } :=
  { h with runbuf := h.runbuf.set hk r, counts := counts_set h.counts hr }

/-- One beat's store of a byte of output. -/
theorem StoresLegal.storeOut (h : StoresLegal s) {i : Nat} (hi : i < cfg.obufCap) (v : Byte) :
    StoresLegal { s with obuf := Memory.set s.obuf i v } :=
  { h with obuf := h.obuf.set hi v }

theorem BlockLegal.of_unitsIdle (hu : UnitsIdle s) (hs : StoresLegal s) (hst : StatusLegal s)
    (hsum : runSum s.validRuns ≤ cfg.obufCap) : BlockLegal s :=
  ⟨hs, hst, fun _ _ => hsum, hu.legal⟩

/-- Completion of a command whose results are legal. -/
theorem BlockLegal.retire (hs : StoresLegal s) (hst : StatusLegal s) (hsum : runSum s.validRuns ≤ cfg.obufCap) :
    BlockLegal s.retire :=
  .of_unitsIdle s.retire_unitsIdle hs.retire (hst.of_sameError ⟨rfl, rfl, rfl⟩ (by simp)) hsum

/-- Without a command in flight the runs fit `OBUF` when they are expanded. -/
theorem BlockLegal.sum_le_of_idle (h : BlockLegal s) (hb : s.busy = false) : runSum s.validRuns ≤ cfg.obufCap := by
  obtain ⟨-, ha, -⟩ := h.units.idle hb
  exact h.sum_le (by simp [ha]) (by simp [ha])

theorem BlockLegal.failParse (h : BlockLegal s) {off : Nat} (ho : off < cfg.chunk) (he : off % 2 = 0) (zero : Bool) :
    BlockLegal (s.failParse off zero) := by
  refine .of_unitsIdle ⟨rfl, rfl, rfl, rfl, rfl, rfl⟩ ?_ (.failParse ho he zero) (Nat.zero_le _)
  exact ⟨h.stores.ilen_le, h.stores.ibuf, Memory.Filled.nil, by simp, h.stores.obuf⟩

theorem BlockLegal.resetBlock (s : State cfg) : BlockLegal s.resetBlock := by
  refine .of_unitsIdle ⟨rfl, rfl, rfl, rfl, rfl, rfl⟩ ?_ ?_ (Nat.zero_le _)
  · exact ⟨Nat.zero_le _, .nil, .nil, by simp, .nil⟩
  · exact ⟨Nat.zero_le _, fun _ => ⟨rfl, rfl⟩, rfl, fun _ => rfl⟩

/-! ### Acceptance and completion -/

/-- The unit that will run is set up, and the others are idle (10_state.md R44). -/
theorem UnitsLegal.accept (hl : s.ilen.toNat ≤ cfg.chunk) {a : Activity} (ha : a ≠ .idle) : UnitsLegal (s.accept a) := by
  have hn := cfg.toNat_len (State.effLen_le hl)
  cases a with
  | idle => exact absurd rfl ha
  | illegal => exact (unitsLegal_iff_of_illegal rfl).mpr ⟨rfl, rfl, rfl, rfl, rfl⟩
  | running i =>
    cases i with
    | encode =>
      exact (unitsLegal_iff_of_encode rfl).mpr
        ⟨rfl, ⟨hn, Nat.zero_le _, Nat.le_refl 0, fun k hk => absurd hk (Nat.not_lt_zero k), rfl⟩, rfl, rfl, rfl⟩
    | decode =>
      refine (unitsLegal_iff_of_decode rfl).mpr ⟨rfl, rfl, ⟨Nat.zero_le _, fun h => absurd rfl h, ?_,
        fun k hk => absurd hk (Nat.not_lt_zero k)⟩, rfl, rfl⟩
      simp
    | serialize =>
      exact (unitsLegal_iff_of_serialize rfl).mpr
        ⟨rfl, rfl, rfl, ⟨Nat.zero_le _, fun h => by simp at h, fun k hk => absurd hk (Nat.not_lt_zero k)⟩, rfl⟩
    | parse =>
      exact (unitsLegal_iff_of_parse rfl).mpr
        ⟨rfl, rfl, rfl, rfl, hn, Nat.zero_le _, rfl, fun k hk => absurd hk (Nat.not_lt_zero k)⟩

theorem BlockLegal.accept (h : BlockLegal s) (hb : s.busy = false) (he : s.err = errNone) {a : Activity} (ha : a ≠ .idle) :
    BlockLegal (s.accept a) where
  stores := ⟨h.stores.ilen_le, h.stores.ibuf, h.stores.runbuf, h.stores.counts, h.stores.obuf⟩
  status := ⟨h.status.err_le, h.status.info, h.status.off_even, fun _ => he⟩
  sum_le _ _ := h.sum_le_of_idle hb
  units := .accept h.stores.ilen_le ha

/-- A command in flight leaves a legal block. -/
theorem BlockLegal.of_execAt (h : BlockLegal s) {i : Instr} (ha : s.activity = .running i) (he : execAt i s = .next t) :
    BlockLegal t := by
  cases i with
  | encode =>
    obtain ⟨hl, rfl⟩ := execEncode_eq_next.mp he
    have hlen : (rleEncode (s.inBytes s.effLen)).length ≤ cfg.chunk := Nat.le_trans s.length_encoded_le hl
    refine .retire (h.stores.writeRuns hlen (rleEncode_counts _)) (h.status.of_sameError ⟨rfl, rfl, rfl⟩ id) ?_
    rw [State.validRuns_of_overwrite rfl (cfg.toNat_len hlen), runSum_rleEncode, State.length_inBytes]
    exact Nat.le_trans hl (Config.chunk_le_obufCap cfg)
  | decode =>
    obtain ⟨-, hsum, rfl⟩ := execDecode_eq_next.mp he
    exact .retire (h.stores.writeOut (by rwa [length_rleDecode])) (h.status.of_sameError ⟨rfl, rfl, rfl⟩ id) hsum
  | serialize =>
    obtain ⟨hc, rfl⟩ := execSerialize_eq_next.mp he
    have hcap := cfg.two_mul_chunk_le_obufCap
    rw [cfg.runCap_eq_chunk] at hc
    refine .retire (h.stores.writeOut ?_) (h.status.of_sameError ⟨rfl, rfl, rfl⟩ id)
      (h.sum_le (by simp [ha]) (by simp [ha]))
    rw [length_framesSerialize, State.length_validRuns]
    omega
  | parse =>
    obtain ⟨hl, ⟨rs, hp, rfl⟩ | ⟨e, hp, rfl⟩⟩ := execParse_eq_next.mp he
    · have hlen := length_of_parse hp
      rw [State.length_inBytes] at hlen
      have hcap : rs.length ≤ cfg.chunk := by omega
      refine .retire (h.stores.writeRuns hcap (framesSerialize_of_parse hp).2)
        (h.status.of_sameError ⟨rfl, rfl, rfl⟩ id) ?_
      rw [State.validRuns_of_overwrite rfl (cfg.toNat_len hcap)]
      exact runSum_le_obufCap (by omega)
    · have hoff := off_of_parse_error hp
      rw [State.length_inBytes] at hoff
      exact h.failParse (by omega) (off_even_of_parse_error hp) e.zero

theorem BlockLegal.of_completeCommand (h : BlockLegal s) (hb : s.busy = true) (hc : completeCommand s = .next t) :
    BlockLegal t := by
  rcases completeCommand_eq_next.mp hc with ⟨i, ha, he⟩ | ⟨ha, rfl⟩ | ⟨ha, -⟩
  · exact h.of_execAt ha he
  · exact .of_unitsIdle ⟨rfl, rfl, rfl, rfl, rfl, rfl⟩
      ⟨h.stores.ilen_le, h.stores.ibuf, h.stores.runbuf, h.stores.counts, h.stores.obuf⟩
      ⟨by rw [State.raise_err]; decide, fun _ => ⟨rfl, rfl⟩, rfl, fun h => by simp at h⟩
      (h.sum_le (by simp [ha]) (by simp [ha]))
  · exact absurd ha (h.units.busy_iff.mp hb)

end

end Sys2Proof.Machine

/-! ## The invariant: the beats of the units

SUPPORT for O40. Each numbered case of a realisation keeps what its unit holds in mid-command, and its last case completes with
legal results; with the moves of the host this makes `KeptByMoves BlockLegal`. -/

namespace Sys2Proof.Machine

section

variable {cfg : Config} {s t : State cfg}

/-! ### A block in mid-command -/

theorem BlockLegal.of_encode (ha : s.activity = .running .encode) (hs : StoresLegal s) (hst : StatusLegal s)
    (hu : s.busy = true ∧ ScannerLegal s ∧ s.expander = {} ∧ s.serializer = {} ∧ s.deserializer = {}) : BlockLegal s :=
  ⟨hs, hst, fun hne => absurd ha hne, (unitsLegal_iff_of_encode ha).mpr hu⟩

theorem BlockLegal.of_decode (ha : s.activity = .running .decode) (hs : StoresLegal s) (hst : StatusLegal s)
    (hsum : runSum s.validRuns ≤ cfg.obufCap)
    (hu : s.busy = true ∧ s.scanner = {} ∧ ExpanderLegal s ∧ s.serializer = {} ∧ s.deserializer = {}) : BlockLegal s :=
  ⟨hs, hst, fun _ _ => hsum, (unitsLegal_iff_of_decode ha).mpr hu⟩

theorem BlockLegal.of_serialize (ha : s.activity = .running .serialize) (hs : StoresLegal s) (hst : StatusLegal s)
    (hsum : runSum s.validRuns ≤ cfg.obufCap)
    (hu : s.busy = true ∧ s.scanner = {} ∧ s.expander = {} ∧ SerializerLegal s ∧ s.deserializer = {}) : BlockLegal s :=
  ⟨hs, hst, fun _ _ => hsum, (unitsLegal_iff_of_serialize ha).mpr hu⟩

theorem BlockLegal.of_parse (ha : s.activity = .running .parse) (hs : StoresLegal s) (hst : StatusLegal s)
    (hu : s.busy = true ∧ s.scanner = {} ∧ s.expander = {} ∧ s.serializer = {} ∧ DeserializerLegal s) : BlockLegal s :=
  ⟨hs, hst, fun _ hne => absurd ha hne, (unitsLegal_iff_of_parse ha).mpr hu⟩

/-! ### Reads after a beat -/

/-- The runs written so far and the one stored after them. -/
theorem State.runs_succ_of_set {k : Nat} {r : Run} (hr : t.runbuf = Memory.set s.runbuf k r) (he : t.epoch = s.epoch) :
    t.runs (k + 1) = s.runs k ++ [r] := by
  rw [State.runs_succ, State.runAt_of_get? (k := k) (r := r) (by rw [hr]; simp)]
  refine congrArg (· ++ [r]) (State.runs_congr fun i hi => ?_)
  rw [State.runAt, State.runAt, hr, he, Memory.get?_set_ne _ (by omega)]

/-- The next run to expand, and those after it. -/
theorem State.drop_validRuns {i : Nat} (hi : i < s.rcount.toNat) :
    s.validRuns.drop i = s.runAt i :: s.validRuns.drop (i + 1) := by
  have hi' : i < s.validRuns.length := by rwa [State.length_validRuns]
  rw [List.drop_eq_getElem_cons hi']
  simp [State.validRuns, State.runs]

/-! ### The run scanner -/

theorem toNat_count_succ {c : BitVec 8} (h : c < 255#8) : (c + 1#8).toNat = c.toNat + 1 := by
  bv_omega

/-- Case (1) of 40_encoder.md R112. -/
theorem ScannerLegal.openRun (h : ScannerLegal s) (hp : s.scanner.pos.toNat < s.effLen)
    (hp' : s.scanner.pos.toNat < cfg.chunk) (hc : s.scanner.cnt = 0#8) (b : Byte) :
    ScannerLegal { s with scanner := { s.scanner with byte := b, cnt := 1#8, pos := s.scanner.pos + 1#cfg.lenBits } } := by
  obtain ⟨hn, -, hk, hl, hs⟩ := h
  have hpos := cfg.toNat_len_succ hp'
  rw [if_pos hc] at hk
  rw [hc] at hs
  refine ⟨hn, ?_, ?_, hl, ?_⟩
  · show (s.scanner.pos + 1#cfg.lenBits).toNat ≤ s.effLen
    omega
  · show s.scanner.k.toNat + 1 ≤ (s.scanner.pos + 1#cfg.lenBits).toNat
    omega
  · show runSum (s.runs s.scanner.k.toNat) + 1 = (s.scanner.pos + 1#cfg.lenBits).toNat
    rw [hpos, ← hs]
    rfl

/-- Case (2) of 40_encoder.md R112. -/
theorem ScannerLegal.extendRun (h : ScannerLegal s) (hp : s.scanner.pos.toNat < s.effLen)
    (hp' : s.scanner.pos.toNat < cfg.chunk) (hc : s.scanner.cnt ≠ 0#8) (hc' : s.scanner.cnt < 255#8) :
    ScannerLegal
      { s with scanner := { s.scanner with cnt := s.scanner.cnt + 1#8, pos := s.scanner.pos + 1#cfg.lenBits } } := by
  obtain ⟨hn, -, hk, hl, hs⟩ := h
  have hpos := cfg.toNat_len_succ hp'
  rw [if_neg hc] at hk
  refine ⟨hn, ?_, ?_, hl, ?_⟩
  · show (s.scanner.pos + 1#cfg.lenBits).toNat ≤ s.effLen
    omega
  · show s.scanner.k.toNat + (if s.scanner.cnt + 1#8 = 0#8 then 0 else 1) ≤ (s.scanner.pos + 1#cfg.lenBits).toNat
    rw [if_neg (ne_zero_of_succ hc')]
    omega
  · show runSum (s.runs s.scanner.k.toNat) + (s.scanner.cnt + 1#8).toNat = (s.scanner.pos + 1#cfg.lenBits).toNat
    rw [hpos, toNat_count_succ hc', ← hs, Nat.add_assoc]

/-- The open run of the scanner stored in its place. -/
def State.withOpenRun (s : State cfg) : State cfg :=
  { s with runbuf := Memory.set s.runbuf s.scanner.k.toNat s.scanner.run }

/-- The open run has its place in `RUNBUF`, and with it the runs sum up to the bytes that were read. -/
theorem ScannerLegal.withOpenRun (h : ScannerLegal s) (hcap : s.effLen ≤ cfg.chunk) (hc : s.scanner.cnt ≠ 0#8) :
    (s.scanner.k + 1#cfg.lenBits).toNat = s.scanner.k.toNat + 1 ∧ s.scanner.k.toNat + 1 ≤ s.scanner.pos.toNat ∧
      (∀ i < s.scanner.k.toNat + 1, (Memory.get? s.withOpenRun.runbuf i).isSome = true) ∧
      runSum (s.withOpenRun.runs (s.scanner.k.toNat + 1)) = s.scanner.pos.toNat := by
  obtain ⟨-, hp, hk, hl, hs⟩ := h
  rw [if_neg hc] at hk
  refine ⟨cfg.toNat_len_succ (by omega), hk, Memory.listed_set_succ hl _, ?_⟩
  rw [State.runs_succ_of_set (s := s) (t := s.withOpenRun) rfl rfl, runSum_append, ← hs]
  rfl

theorem Scanner.run_wf {u : Scanner cfg} (h : u.cnt ≠ 0#8) : u.run.wf = true := by
  simp [Scanner.run, Run.wf, h]

/-- Case (3) of 40_encoder.md R112. -/
theorem ScannerLegal.closeRun (h : ScannerLegal s) (hcap : s.effLen ≤ cfg.chunk) (hc : s.scanner.cnt ≠ 0#8) :
    ScannerLegal { s with
      runbuf := Memory.set s.runbuf s.scanner.k.toNat s.scanner.run
      scanner := { s.scanner with k := s.scanner.k + 1#cfg.lenBits, cnt := 0#8 } } := by
  obtain ⟨hk, hle, hl, hs⟩ := h.withOpenRun hcap hc
  refine ⟨h.n_eq, h.pos_le, ?_, by simp only [hk]; exact hl, ?_⟩
  · simpa [hk] using hle
  · show runSum (s.withOpenRun.runs (s.scanner.k + 1#cfg.lenBits).toNat) + 0 = s.scanner.pos.toNat
    rw [hk, hs, Nat.add_zero]

/-- With its last byte read, the runs of the scanner sum up to the chunk. -/
theorem ScannerLegal.pos_eq (h : ScannerLegal s) (hp : ¬ s.scanner.pos < s.scanner.n) : s.scanner.pos.toNat = s.effLen := by
  have := h.n_eq
  have := h.pos_le
  rw [BitVec.lt_def] at hp
  omega

/-- A beat of the scanner leaves a legal block. -/
theorem BlockLegal.of_beatEncode (h : BlockLegal s) (ha : s.activity = .running .encode) (hbeat : beatEncode s = .next t) :
    BlockLegal t := by
  obtain ⟨hb, hu, hex, hse, hde⟩ := (unitsLegal_iff_of_encode ha).mp h.units
  have hst := h.stores
  have hcap := State.effLen_le hst.ilen_le
  have hstat := h.status
  have hcap' := Config.chunk_le_obufCap cfg
  rcases beatEncode_eq_next.mp hbeat with
    ⟨hp, hp', ⟨hc, rfl⟩ | ⟨hc, ⟨-, hc'⟩, rfl⟩ | ⟨hc, -, hk, rfl⟩⟩ | ⟨hp, ⟨hc, rfl⟩ | ⟨hc, hk, rfl⟩⟩
  · have hpn : s.scanner.pos.toNat < s.effLen := by rw [← hu.n_eq]; exact hp
    exact .of_encode ha { hst with } (hstat.of_sameError ⟨rfl, rfl, rfl⟩ id)
      ⟨hb, hu.openRun hpn hp' hc _, hex, hse, hde⟩
  · have hpn : s.scanner.pos.toNat < s.effLen := by rw [← hu.n_eq]; exact hp
    exact .of_encode ha { hst with } (hstat.of_sameError ⟨rfl, rfl, rfl⟩ id)
      ⟨hb, hu.extendRun hpn hp' hc hc', hex, hse, hde⟩
  · exact .of_encode ha { hst.storeRun hk (Scanner.run_wf hc) with } (hstat.of_sameError ⟨rfl, rfl, rfl⟩ id)
      ⟨hb, hu.closeRun hcap hc, hex, hse, hde⟩
  · have hsum := hu.sum_eq
    have hle := hu.k_le
    rw [hc, hu.pos_eq hp] at hsum
    rw [if_pos hc, hu.pos_eq hp] at hle
    refine .retire { hst with runbuf := hst.runbuf.of_listed (Nat.le_trans hle hcap) hu.listed }
      (hstat.of_sameError ⟨rfl, rfl, rfl⟩ id) ?_
    show runSum (s.runs s.scanner.k.toNat) ≤ cfg.obufCap
    exact Nat.le_trans (Nat.le.intro hsum) (Nat.le_trans hcap hcap')
  · obtain ⟨hk1, hle, hl, hsum⟩ := hu.withOpenRun hcap hc
    rw [hu.pos_eq hp] at hsum hle
    have hst' := hst.storeRun hk (Scanner.run_wf hc)
    refine .retire { hst' with runbuf := ?_ } (hstat.of_sameError ⟨rfl, rfl, rfl⟩ id) ?_
    · exact hst'.runbuf.of_listed (by rw [hk1]; exact Nat.le_trans hle hcap) (by rw [hk1]; exact hl)
    · show runSum (s.withOpenRun.runs (s.scanner.k + 1#cfg.lenBits).toNat) ≤ cfg.obufCap
      rw [hk1, hsum]
      exact Nat.le_trans hcap hcap'

/-! ### The run expander -/

/-- With a run open the position is inside `OBUF`, and so is the byte that the next beat emits (20_memory.md R68). -/
theorem ExpanderLegal.opos_lt (h : ExpanderLegal s) (hr : s.expander.rem ≠ 0#8) :
    s.expander.opos.toNat < runSum s.validRuns := by
  have hsum := h.sum_eq
  have : s.expander.rem.toNat ≠ 0 := fun h0 => hr (BitVec.eq_of_toNat_eq h0)
  omega

/-- Case (1) of 41_decoder.md R133. -/
theorem ExpanderLegal.load (h : ExpanderLegal s) (hr : s.expander.rem = 0#8) (hi : s.expander.idx.toNat < s.rcount.toNat)
    (hc : (s.runAt s.expander.idx.toNat).count ≠ 0#8) :
    ExpanderLegal { s with expander := { s.expander with rem := (s.runAt s.expander.idx.toNat).count } } := by
  obtain ⟨hle, -, hsum, hl⟩ := h
  refine ⟨hle, fun _ => hi, ?_, hl⟩
  rw [hr, if_pos rfl, Nat.add_zero, State.drop_validRuns hi, runSum_cons] at hsum
  show s.expander.opos.toNat + (s.runAt s.expander.idx.toNat).count.toNat
      + runSum (s.validRuns.drop
        (s.expander.idx.toNat + if (s.runAt s.expander.idx.toNat).count = 0#8 then 0 else 1)) = runSum s.validRuns
  rw [if_neg hc, ← hsum]
  simp only [BitVec.toNat_ofNat, Nat.zero_mod]
  omega

/-- What the expander holds after it emitted a copy. -/
def Expander.emitted (u : Expander cfg) : Expander cfg where
  idx := if u.rem = 1#8 then u.idx + 1#cfg.lenBits else u.idx
  rem := u.rem - 1#8
  opos := u.opos + 1#cfg.olenBits

/-- Whether or not the run is used up, the runs after it are the same ones. -/
theorem Expander.emitted_next {u : Expander cfg} (hi : u.idx.toNat < cfg.chunk) :
    u.emitted.idx.toNat + (if u.emitted.rem = 0#8 then 0 else 1) = u.idx.toNat + 1 := by
  show (if u.rem = 1#8 then u.idx + 1#cfg.lenBits else u.idx).toNat + (if u.rem - 1#8 = 0#8 then 0 else 1)
    = u.idx.toNat + 1
  by_cases h1 : u.rem = 1#8
  · rw [if_pos h1, cfg.toNat_len_succ hi, if_pos (by rw [h1]; rfl)]
  · rw [if_neg h1, if_neg (by bv_omega)]

/-- Case (2) of 41_decoder.md R133. -/
theorem ExpanderLegal.emit (h : ExpanderLegal s) (hcap : s.rcount.toNat ≤ cfg.runCap) (hr : s.expander.rem ≠ 0#8)
    (ho : s.expander.opos.toNat < cfg.obufCap) (v : Byte) :
    ExpanderLegal { s with
      obuf := Memory.set s.obuf s.expander.opos.toNat v
      expander := s.expander.emitted } := by
  obtain ⟨-, hopen, hsum, hl⟩ := h
  have hi := hopen hr
  have hnext := Expander.emitted_next (Nat.lt_of_lt_of_le hi hcap)
  have hopos : s.expander.emitted.opos.toNat = s.expander.opos.toNat + 1 := cfg.toNat_olen_succ ho
  have hrem : s.expander.emitted.rem.toNat + 1 = s.expander.rem.toNat := by
    simp only [Expander.emitted]
    bv_omega
  rw [if_neg hr] at hsum
  refine ⟨?_, fun hne => ?_, ?_, ?_⟩
  · show s.expander.emitted.idx.toNat ≤ s.rcount.toNat
    omega
  · show s.expander.emitted.idx.toNat < s.rcount.toNat
    rw [if_neg hne] at hnext
    omega
  · show s.expander.emitted.opos.toNat + s.expander.emitted.rem.toNat + runSum (s.validRuns.drop
      (s.expander.emitted.idx.toNat + if s.expander.emitted.rem = 0#8 then 0 else 1)) = runSum s.validRuns
    rw [hnext]
    omega
  · simp only [hopos]
    exact Memory.listed_set_succ hl v

/-- A beat of the expander leaves a legal block. -/
theorem BlockLegal.of_beatDecode (h : BlockLegal s) (ha : s.activity = .running .decode) (hbeat : beatDecode s = .next t) :
    BlockLegal t := by
  obtain ⟨hb, hsc, hu, hse, hde⟩ := (unitsLegal_iff_of_decode ha).mp h.units
  have hst := h.stores
  have hstat := h.status
  have hsum : runSum s.validRuns ≤ cfg.obufCap := h.sum_le (by simp [ha]) (by simp [ha])
  rcases beatDecode_eq_next.mp hbeat with ⟨hr, hi, -, rfl⟩ | ⟨hr, -, ho, rfl⟩ | ⟨hr, hi, rfl⟩
  · have hc := runAt_count_ne_zero hst.counts (hst.runbuf.listed _ hi)
    exact .of_decode ha { hst with } (hstat.of_sameError ⟨rfl, rfl, rfl⟩ id) hsum
      ⟨hb, hsc, hu.load hr hi hc, hse, hde⟩
  · exact .of_decode ha { hst.storeOut ho _ with } (hstat.of_sameError ⟨rfl, rfl, rfl⟩ id) hsum
      ⟨hb, hsc, hu.emit hst.runbuf.le hr ho _, hse, hde⟩
  · have hopos : s.expander.opos.toNat ≤ cfg.obufCap := by
      have := hu.sum_eq
      omega
    exact .retire { hst with obuf := hst.obuf.of_listed hopos hu.listed } (hstat.of_sameError ⟨rfl, rfl, rfl⟩ id) hsum

/-! ### The frame serializer -/

/-- Case (1) of 42_serializer.md R152. -/
theorem SerializerLegal.count (h : SerializerLegal s) (hi : s.serializer.idx.toNat < s.rcount.toNat)
    (hh : s.serializer.half = false) (v : Byte) :
    SerializerLegal { s with
      obuf := Memory.set s.obuf (2 * s.serializer.idx.toNat) v
      serializer := { s.serializer with half := true } } := by
  obtain ⟨hle, -, hl⟩ := h
  rw [hh] at hl
  exact ⟨hle, fun _ => hi, Memory.listed_set_succ hl v⟩

/-- Case (2) of 42_serializer.md R152. -/
theorem SerializerLegal.byte (h : SerializerLegal s) (hcap : s.rcount.toNat ≤ cfg.runCap)
    (hi : s.serializer.idx.toNat < s.rcount.toNat) (hh : s.serializer.half = true) (v : Byte) :
    SerializerLegal { s with
      obuf := Memory.set s.obuf (2 * s.serializer.idx.toNat + 1) v
      serializer := { idx := s.serializer.idx + 1#cfg.lenBits, half := false } } := by
  obtain ⟨-, -, hl⟩ := h
  have hidx : (s.serializer.idx + 1#cfg.lenBits).toNat = s.serializer.idx.toNat + 1 :=
    cfg.toNat_len_succ (Nat.lt_of_lt_of_le hi hcap)
  rw [hh] at hl
  refine ⟨by simp only [hidx]; exact hi, fun hf => by simp at hf, fun i hlt => ?_⟩
  refine Memory.listed_set_succ hl v i ?_
  simp only [hidx, Bool.toNat_false] at hlt
  simp only [Bool.toNat_true]
  omega

/-- A beat of the serializer leaves a legal block. -/
theorem BlockLegal.of_beatSerialize (h : BlockLegal s) (ha : s.activity = .running .serialize)
    (hbeat : beatSerialize s = .next t) : BlockLegal t := by
  obtain ⟨hb, hsc, hex, hu, hde⟩ := (unitsLegal_iff_of_serialize ha).mp h.units
  have hst := h.stores
  have hstat := h.status
  have hsum : runSum s.validRuns ≤ cfg.obufCap := h.sum_le (by simp [ha]) (by simp [ha])
  rcases beatSerialize_eq_next.mp hbeat with ⟨hi, -, ⟨hh, ho, rfl⟩ | ⟨hh, ho, rfl⟩⟩ | ⟨hi, rfl⟩
  · exact .of_serialize ha { hst.storeOut ho _ with } (hstat.of_sameError ⟨rfl, rfl, rfl⟩ id) hsum
      ⟨hb, hsc, hex, hu.count hi hh _, hde⟩
  · exact .of_serialize ha { hst.storeOut ho _ with } (hstat.of_sameError ⟨rfl, rfl, rfl⟩ id) hsum
      ⟨hb, hsc, hex, hu.byte hst.runbuf.le hi hh _, hde⟩
  · have hidx : s.serializer.idx.toNat = s.rcount.toNat :=
      Nat.le_antisymm hu.idx_le (Nat.le_of_not_lt hi)
    have hfit : 2 * s.rcount.toNat ≤ cfg.obufCap :=
      Nat.le_trans (Nat.mul_le_mul_left 2 hst.runbuf.le) cfg.two_mul_chunk_le_obufCap
    refine .retire { hst with obuf := ?_ } (hstat.of_sameError ⟨rfl, rfl, rfl⟩ id) hsum
    rw [cfg.toNat_olen hfit]
    refine hst.obuf.of_listed hfit fun i hlt => hu.listed i ?_
    omega

/-! ### The frame deserializer -/

/-- Case (1) of 43_parser.md R176. -/
theorem DeserializerLegal.count (h : DeserializerLegal s) (hp : s.deserializer.pos.toNat < s.effLen)
    (hp' : s.deserializer.pos.toNat < cfg.chunk) (hh : s.deserializer.half = false) (v : Byte) :
    DeserializerLegal { s with deserializer :=
      { s.deserializer with cnt := v, pos := s.deserializer.pos + 1#cfg.lenBits, half := true } } := by
  obtain ⟨hn, -, heq, hl⟩ := h
  have hpos := cfg.toNat_len_succ hp'
  rw [hh] at heq
  refine ⟨hn, ?_, ?_, hl⟩
  · show (s.deserializer.pos + 1#cfg.lenBits).toNat ≤ s.effLen
    omega
  · show (s.deserializer.pos + 1#cfg.lenBits).toNat = 2 * s.deserializer.k.toNat + 1
    rw [hpos, heq]
    rfl

/-- Case (2) of 43_parser.md R176 with a count that is not 0. -/
theorem DeserializerLegal.byte (h : DeserializerLegal s) (hp : s.deserializer.pos.toNat < s.effLen)
    (hp' : s.deserializer.pos.toNat < cfg.chunk) (hh : s.deserializer.half = true) (r : Run) :
    DeserializerLegal { s with
      runbuf := Memory.set s.runbuf s.deserializer.k.toNat r
      deserializer :=
        { s.deserializer with
          k := s.deserializer.k + 1#cfg.lenBits, pos := s.deserializer.pos + 1#cfg.lenBits, half := false } } := by
  obtain ⟨hn, -, heq, hl⟩ := h
  have hpos := cfg.toNat_len_succ hp'
  rw [hh, Bool.toNat_true] at heq
  have hk : (s.deserializer.k + 1#cfg.lenBits).toNat = s.deserializer.k.toNat + 1 := cfg.toNat_len_succ (by omega)
  refine ⟨hn, ?_, ?_, ?_⟩
  · show (s.deserializer.pos + 1#cfg.lenBits).toNat ≤ s.effLen
    omega
  · show (s.deserializer.pos + 1#cfg.lenBits).toNat = 2 * (s.deserializer.k + 1#cfg.lenBits).toNat + 0
    omega
  · simp only [hk]
    exact Memory.listed_set_succ hl r

/-- In the middle of a frame the position is one past the even offset of its count byte. -/
theorem DeserializerLegal.frame_off (h : DeserializerLegal s) (hcap : s.effLen ≤ cfg.chunk)
    (hh : s.deserializer.half = true) :
    s.deserializer.pos.toNat - 1 < cfg.chunk ∧ (s.deserializer.pos.toNat - 1) % 2 = 0 := by
  have heq := h.pos_eq
  have hle := h.pos_le
  rw [hh, Bool.toNat_true] at heq
  omega

/-- A beat of the deserializer leaves a legal block. -/
theorem BlockLegal.of_beatParse (h : BlockLegal s) (ha : s.activity = .running .parse) (hbeat : beatParse s = .next t) :
    BlockLegal t := by
  obtain ⟨hb, hsc, hex, hse, hu⟩ := (unitsLegal_iff_of_parse ha).mp h.units
  have hst := h.stores
  have hcap := State.effLen_le hst.ilen_le
  have hstat := h.status
  have hpn : s.deserializer.pos < s.deserializer.n → s.deserializer.pos.toNat < s.effLen := by
    intro hp
    rw [← hu.n_eq]
    exact hp
  rcases beatParse_eq_next.mp hbeat with
    ⟨hp, hp', ⟨hh, rfl⟩ | ⟨hh, -, rfl⟩ | ⟨hh, hc, hk, rfl⟩⟩ | ⟨-, ⟨hh, rfl⟩ | ⟨hh, rfl⟩⟩
  · exact .of_parse ha { hst with } (hstat.of_sameError ⟨rfl, rfl, rfl⟩ id)
      ⟨hb, hsc, hex, hse, hu.count (hpn hp) hp' hh _⟩
  · exact h.failParse (hu.frame_off hcap hh).1 (hu.frame_off hcap hh).2 true
  · exact .of_parse ha { hst.storeRun hk (by simp [Run.wf, hc]) with } (hstat.of_sameError ⟨rfl, rfl, rfl⟩ id)
      ⟨hb, hsc, hex, hse, hu.byte (hpn hp) hp' hh _⟩
  · exact h.failParse (hu.frame_off hcap hh).1 (hu.frame_off hcap hh).2 false
  · have hk : 2 * s.deserializer.k.toNat ≤ cfg.chunk := by
      have := hu.pos_eq
      have := hu.pos_le
      omega
    refine .retire
      { hst with runbuf := hst.runbuf.of_listed (show s.deserializer.k.toNat ≤ cfg.chunk by omega) hu.listed }
      (hstat.of_sameError ⟨rfl, rfl, rfl⟩ id) (runSum_le_obufCap ?_)
    rwa [State.length_validRuns]

/-! ### Every move keeps the block legal -/

theorem BlockLegal.of_blockBeat (h : BlockLegal s) (hb : s.busy = true) (hbeat : blockBeat s = .next t) : BlockLegal t := by
  rcases blockBeat_eq_next.mp hbeat with ⟨hb', -⟩ | ⟨-, ⟨ha, hs⟩ | ⟨ha, hs⟩ | ⟨ha, hs⟩ | ⟨ha, hs⟩ | ⟨-, hs⟩⟩
  · simp [hb] at hb'
  · exact h.of_beatEncode ha hs
  · exact h.of_beatDecode ha hs
  · exact h.of_beatSerialize ha hs
  · exact h.of_beatParse ha hs
  · exact h.of_completeCommand hb hs

/-- With `BUSY = 0` the units stay idle under a write of the host. -/
theorem BlockLegal.of_hostWrite (h : BlockLegal s) (hb : s.busy = false) (hu : SameUnits s t) (he : SameError s t)
    (hs : StoresLegal t) (hv : t.validRuns = s.validRuns) : BlockLegal t := by
  obtain ⟨hb', ha', hsc', hex', hse', hde'⟩ := hu
  obtain ⟨-, ha, hsc, hex, hse, hde⟩ := h.units.idle hb
  exact .of_unitsIdle
    ⟨hb'.trans hb, ha'.trans ha, hsc'.trans hsc, hex'.trans hex, hse'.trans hse, hde'.trans hde⟩ hs
    (h.status.of_sameError he (by rw [hb']; exact id)) (by rw [hv]; exact h.sum_le_of_idle hb)

/-- Every single move of the host and of the block keeps the block legal. -/
theorem blockLegal_keptByMoves : KeptByMoves (BlockLegal (cfg := cfg)) where
  host s p d pos sink rf wf r n h := by
    refine h.congr ?_
    exact ⟨⟨rfl, rfl, rfl, rfl⟩, ⟨rfl, rfl⟩, ⟨rfl, rfl⟩, ⟨rfl, rfl, rfl⟩, rfl, rfl, rfl, rfl, rfl, rfl⟩
  reset s _ := .resetBlock s
  writeIn s i v h hb hi :=
    h.of_hostWrite hb ⟨rfl, rfl, rfl, rfl, rfl, rfl⟩ ⟨rfl, rfl, rfl⟩
      { h.stores with ibuf := h.stores.ibuf.set hi v } rfl
  setLen s len h hb hl :=
    h.of_hostWrite hb ⟨rfl, rfl, rfl, rfl, rfl, rfl⟩ ⟨rfl, rfl, rfl⟩
      { h.stores with ilen_le := by rw [cfg.toNat_len hl]; exact hl } rfl
  setN s n h hb :=
    h.of_hostWrite hb ⟨rfl, rfl, rfl, rfl, rfl, rfl⟩ ⟨rfl, rfl, rfl⟩ { h.stores with } rfl
  accept s a h hb he ha := h.accept hb he ha
  complete s t h hb hc := h.of_completeCommand hb hc
  beat s t h hb hbeat := h.of_blockBeat hb hbeat

end

end Sys2Proof.Machine

/-! ## The invariant: the driver, and whole steps -/

namespace Sys2Proof.Machine

section

variable {cfg : Config} {s t : State cfg}

/-! ### What a step leaves of the driver -/

/-- A beat changes nothing of the host (10_state.md R44). -/
theorem blockBeat_sameHost (h : blockBeat s = .next t) : SameHost s t := by
  rcases blockBeat_eq_next.mp h with ⟨-, rfl⟩ | ⟨-, ⟨-, h⟩ | ⟨-, h⟩ | ⟨-, h⟩ | ⟨-, h⟩ | ⟨-, h⟩⟩
  · exact ⟨rfl, rfl, rfl, rfl, rfl, rfl, rfl⟩
  · rcases beatEncode_eq_next.mp h with
      ⟨-, -, ⟨-, rfl⟩ | ⟨-, -, rfl⟩ | ⟨-, -, -, rfl⟩⟩ | ⟨-, ⟨-, rfl⟩ | ⟨-, -, rfl⟩⟩ <;>
      exact ⟨rfl, rfl, rfl, rfl, rfl, rfl, rfl⟩
  · rcases beatDecode_eq_next.mp h with ⟨-, -, -, rfl⟩ | ⟨-, -, -, rfl⟩ | ⟨-, -, rfl⟩ <;>
      exact ⟨rfl, rfl, rfl, rfl, rfl, rfl, rfl⟩
  · rcases beatSerialize_eq_next.mp h with ⟨-, -, ⟨-, -, rfl⟩ | ⟨-, -, rfl⟩⟩ | ⟨-, rfl⟩ <;>
      exact ⟨rfl, rfl, rfl, rfl, rfl, rfl, rfl⟩
  · rcases beatParse_eq_next.mp h with
      ⟨-, -, ⟨-, rfl⟩ | ⟨-, -, rfl⟩ | ⟨-, -, -, rfl⟩⟩ | ⟨-, ⟨-, rfl⟩ | ⟨-, rfl⟩⟩ <;>
      exact ⟨rfl, rfl, rfl, rfl, rfl, rfl, rfl⟩
  · obtain ⟨-, hh, -⟩ := completeCommand_frame h
    exact hh

theorem completeCommand_driver (h : completeCommand s = .next t) : t.driver = s.driver := by
  obtain ⟨-, ⟨-, hd, -⟩, -⟩ := completeCommand_frame h
  exact hd

theorem blockComplete_driver (h : blockComplete s = .next t) : t.driver = s.driver := by
  rcases blockComplete_eq_next.mp h with ⟨-, rfl⟩ | ⟨-, h⟩
  · rfl
  · exact completeCommand_driver h

theorem hostIssue_driver {w : Byte} (h : hostIssue w s = .next t) : t.driver = s.driver := by
  obtain ⟨-, ⟨-, rfl⟩ | ⟨-, rfl⟩⟩ := hostIssue_eq_next.mp h <;> rfl

theorem hostCommand_driver {w : Byte} (h : hostCommand w s = .next t) : t.driver = s.driver := by
  obtain ⟨-, ⟨-, rfl⟩ | ⟨-, h⟩⟩ := hostCommand_eq_next.mp h
  · rfl
  · exact (completeCommand_driver h).trans (State.accept_driver s _)

theorem hostOp_driver {op : HostOp cfg} (h : hostOp op s = .next t) : t.driver = s.driver := by
  rcases hostOp_cases h with ⟨-, _, _, rfl⟩ | ⟨-, rfl⟩ | ⟨_, _, -, -, -, rfl⟩ | ⟨_, -, -, -, rfl⟩ | ⟨_, -, -, rfl⟩ |
    ⟨w, -, h⟩
  · rfl
  · rfl
  · rfl
  · rfl
  · rfl
  · exact hostIssue_driver h

/-- Only an invocation changes the driver from the program (44_stream_drivers.md R204, R212). -/
theorem runEvent_driver {e : Event cfg} (h : runEvent e s = .next t) :
    t.driver = s.driver ∨ ∃ d, t = s.resetBlock.withDriver (.reading d) := by
  cases e with
  | host op => exact .inl (hostOp_driver h)
  | command w => exact .inl (hostCommand_driver h)
  | wait =>
    simp only [runEvent] at h
    split at h
    · exact .inl ((completeCommand_driver h).trans (State.withProgram_driver s _))
    · exact .inl (hostOp_driver (op := .readStatus) h)
  | load bs => obtain ⟨m, rfl, -⟩ := loadChunk_frame h; exact .inl rfl
  | compress => cases h; exact .inl rfl
  | decompress => cases h; exact .inl rfl
  | perform d => cases h; exact .inr ⟨d, rfl⟩
  | beat =>
    obtain ⟨-, hd, -⟩ := blockBeat_sameHost h
    exact .inl hd
  | complete => exact .inl (blockComplete_driver h)

/-! ### A driver finds and leaves the block ready -/

theorem DriverLegal.ready (h : DriverLegal s) (hd : s.driver.running = true) : Ready s :=
  ⟨h.not_busy hd, h.no_error hd⟩

theorem DriverLegal.of_not_running (hd : s.driver.running = false) : DriverLegal s where
  not_busy h := by simp [hd] at h
  no_error h := by simp [hd] at h
  chunk_le d chunk h := by simp [h, Driver.running] at hd

theorem DriverLegal.of_reading (hr : Ready s) {d : Direction} (hd : s.driver = .reading d) : DriverLegal s :=
  ⟨fun _ => hr.1, fun _ => hr.2, fun d' chunk h => by simp [hd] at h⟩

theorem DriverLegal.of_working (hr : Ready s) {d : Direction} {c : List Byte} (hd : s.driver = .working d c)
    (hc : c.length ≤ cfg.chunk) : DriverLegal s :=
  ⟨fun _ => hr.1, fun _ => hr.2, fun d' chunk h => by cases hd.symm.trans h; exact hc⟩

theorem DriverLegal.of_writing (hr : Ready s) {d : Direction} (hd : s.driver = .writing d) : DriverLegal s :=
  ⟨fun _ => hr.1, fun _ => hr.2, fun d' chunk h => by simp [hd] at h⟩

theorem Ready.load (h : Ready s) {bs : List Byte} (hl : loadChunk bs s = .next t) : Ready t := by
  obtain ⟨m, rfl, -⟩ := loadChunk_frame hl
  exact h

/-- A command leaves the block ready, unless it is a `PARSE` that fails. -/
theorem Ready.command (h : Ready s) {i : Instr} (hc : hostCommand (encode i) s = .next t)
    (hp : i = .parse → t.err ≠ errMalformedFrame) : Ready t := by
  obtain ⟨-, ⟨he, -⟩ | ⟨-, hx⟩⟩ := hostCommand_encode_eq_next.mp hc
  · exact absurd h.2 he
  refine ⟨(execAt_idle hx).1, ?_⟩
  by_cases hi : i = .parse
  · subst hi
    obtain ⟨-, ⟨_, -, rfl⟩ | ⟨_, -, rfl⟩⟩ := execParse_eq_next.mp hx
    · exact h.2
    · exact absurd rfl (hp rfl)
  · rw [(execAt_error hx hi).1]
    exact h.2

theorem State.length_nextChunk_le (s : State cfg) : s.nextChunk.length ≤ cfg.chunk := List.length_take_le _ _

/-- The work on a chunk ends with the block ready, or with the driver returned (44_stream_drivers.md R206). -/
theorem DriverLegal.work {d : Direction} {c : List Byte} (hr : Ready s) (h : driverWork d c s = .next t) :
    DriverLegal t := by
  obtain ⟨u, h1, ⟨rfl, v, w, h2, h3, rfl⟩ | ⟨rfl, v, h2, ⟨-, rfl⟩ | ⟨he, w, h3, rfl⟩⟩⟩ := driverWork_cases h
  · have hv := (hr.load h1).command h2 (by simp)
    have hw := hv.command h3 (by simp)
    exact .of_writing (s := w.withDriver (.writing .encoding)) hw rfl
  · exact .of_not_running rfl
  · have hv := (hr.load h1).command h2 fun _ => he
    have hw := hv.command h3 (by simp)
    exact .of_writing (s := w.withDriver (.writing .decoding)) hw rfl

/-- Every step leaves a legal driver. -/
theorem DriverLegal.step (hd : DriverLegal s) (h : stepAt s = .next t) : DriverLegal t := by
  rcases stepAt_cases h with ⟨hrun, ⟨d, -, h⟩ | ⟨d, c, -, h⟩ | ⟨d, -, h⟩⟩ | ⟨hrun, ⟨-, h⟩ | ⟨e, rest, -, h⟩⟩
  · obtain ⟨f, rfl | ⟨-, rfl⟩ | ⟨-, rfl⟩⟩ := driverRead_cases h
    · exact .of_not_running rfl
    · exact .of_not_running rfl
    · exact .of_working (hd.ready hrun) rfl s.length_nextChunk_le
  · exact .work (hd.ready hrun) h
  · obtain ⟨f, k, rfl | rfl⟩ := driverWrite_cases h
    · exact .of_not_running rfl
    · exact .of_reading (hd.ready hrun) rfl
  · exact .of_not_running (by rw [blockComplete_driver h, hrun])
  · obtain hsame | ⟨d, rfl⟩ := runEvent_driver h
    · exact .of_not_running (by rw [hsame]; exact hrun)
    · exact .of_reading ⟨rfl, rfl⟩ (d := d) rfl

/-- Every step keeps the invariant of the machine, whatever its configuration. -/
theorem Inv.step (hi : Inv s) (h : stepAt s = .next t) : Inv t := by
  obtain ⟨hb, hd⟩ := inv_iff.mp hi
  exact inv_iff.mpr ⟨blockLegal_keptByMoves.step hb h, hd.step h⟩

end

/-- Settles O40: the block part of the invariant is kept by every single move, the driver part by every whole step. -/
theorem stepKeepsInvariant : Obligations.StepKeepsInvariant :=
  ⟨fun _ _ hi h => hi.step h, fun _ _ _ hi h => hi.step h⟩

end Sys2Proof.Machine

/-! ## No fault but the host's

SUPPORT for O43. The block's own moves end in a state, and the host's moves in a state or in a fault of the host. -/

namespace Sys2Proof.Machine

section

variable {cfg : Config} {s t : State cfg}

/-- A state, or one of the four model faults of the host's protocol (60_exceptions.md R230). -/
def HostSafe (r : Result cfg) : Prop := (∃ t, r = .next t) ∨ ∃ f, r = .fault f ∧ f.byHost = true

theorem HostSafe.next (s : State cfg) : HostSafe (.next s) := .inl ⟨s, rfl⟩

theorem HostSafe.fault {f : Fault cfg} (h : f.byHost = true) : HostSafe (.fault f) := .inr ⟨f, rfl, h⟩

theorem HostSafe.of_next {r : Result cfg} (h : ∃ t, r = .next t) : HostSafe r := .inl h

theorem HostSafe.andThen {r : Result cfg} {k : State cfg → Result cfg} (hr : HostSafe r)
    (hk : ∀ t, r = .next t → HostSafe (k t)) : HostSafe (andThen r k) := by
  obtain ⟨t, rfl⟩ | ⟨f, rfl, hf⟩ := hr
  · exact hk t rfl
  · exact .fault hf

/-! ### The block's own moves -/

/-- A command in flight completes (20_memory.md R68). -/
theorem BlockLegal.exists_execAt (h : BlockLegal s) {i : Instr} (ha : s.activity = .running i) :
    ∃ t, execAt i s = .next t := by
  have hcap := State.effLen_le h.stores.ilen_le
  have hrc := h.stores.runbuf.le
  cases i with
  | encode => exact ⟨_, execEncode_eq_next.mpr ⟨hcap, rfl⟩⟩
  | decode => exact ⟨_, execDecode_eq_next.mpr ⟨hrc, h.sum_le (by simp [ha]) (by simp [ha]), rfl⟩⟩
  | serialize => exact ⟨_, execSerialize_eq_next.mpr ⟨hrc, rfl⟩⟩
  | parse =>
    cases hp : framesParse (s.inBytes s.effLen) with
    | ok runs => exact ⟨_, execParse_eq_next.mpr ⟨hcap, .inl ⟨runs, hp, rfl⟩⟩⟩
    | error e => exact ⟨_, execParse_eq_next.mpr ⟨hcap, .inr ⟨e, hp, rfl⟩⟩⟩

theorem BlockLegal.exists_completeCommand (h : BlockLegal s) : ∃ t, completeCommand s = .next t := by
  cases ha : s.activity with
  | idle => exact ⟨_, completeCommand_eq_next.mpr (.inr (.inr ⟨ha, rfl⟩))⟩
  | illegal => exact ⟨_, completeCommand_eq_next.mpr (.inr (.inl ⟨ha, rfl⟩))⟩
  | running i =>
    obtain ⟨t, ht⟩ := h.exists_execAt ha
    exact ⟨t, completeCommand_eq_next.mpr (.inl ⟨i, ha, ht⟩)⟩

/-- The scanner reads inside `IBUF` and stores inside `RUNBUF`. -/
theorem BlockLegal.exists_beatEncode (h : BlockLegal s) (ha : s.activity = .running .encode) :
    ∃ t, beatEncode s = .next t := by
  obtain ⟨-, hu, -⟩ := (unitsLegal_iff_of_encode ha).mp h.units
  have hcap := State.effLen_le h.stores.ilen_le
  have hpos := hu.pos_le
  have hk : s.scanner.cnt ≠ 0#8 → s.scanner.k.toNat < cfg.runCap := by
    intro hc
    have hle := hu.k_le
    rw [if_neg hc] at hle
    rw [cfg.runCap_eq_chunk]
    omega
  by_cases hp : s.scanner.pos < s.scanner.n
  · have hp' : s.scanner.pos.toNat < cfg.chunk := by
      have hn := hu.n_eq
      rw [BitVec.lt_def] at hp
      omega
    by_cases hc : s.scanner.cnt = 0#8
    · exact ⟨_, beatEncode_eq_next.mpr (.inl ⟨hp, hp', .inl ⟨hc, rfl⟩⟩)⟩
    · by_cases he : s.inByte s.scanner.pos.toNat = s.scanner.byte ∧ s.scanner.cnt < 255#8
      · exact ⟨_, beatEncode_eq_next.mpr (.inl ⟨hp, hp', .inr (.inl ⟨hc, he, rfl⟩)⟩)⟩
      · exact ⟨_, beatEncode_eq_next.mpr (.inl ⟨hp, hp', .inr (.inr ⟨hc, he, hk hc, rfl⟩)⟩)⟩
  · by_cases hc : s.scanner.cnt = 0#8
    · exact ⟨_, beatEncode_eq_next.mpr (.inr ⟨hp, .inl ⟨hc, rfl⟩⟩)⟩
    · exact ⟨_, beatEncode_eq_next.mpr (.inr ⟨hp, .inr ⟨hc, hk hc, rfl⟩⟩)⟩

/-- The expander reads inside `RUNBUF` and stores inside `OBUF`. -/
theorem BlockLegal.exists_beatDecode (h : BlockLegal s) (ha : s.activity = .running .decode) :
    ∃ t, beatDecode s = .next t := by
  obtain ⟨-, -, hu, -⟩ := (unitsLegal_iff_of_decode ha).mp h.units
  have hrc := h.stores.runbuf.le
  have hsum : runSum s.validRuns ≤ cfg.obufCap := h.sum_le (by simp [ha]) (by simp [ha])
  by_cases hr : s.expander.rem = 0#8
  · by_cases hi : s.expander.idx < s.rcount
    · exact ⟨_, beatDecode_eq_next.mpr (.inl ⟨hr, hi, Nat.lt_of_lt_of_le hi hrc, rfl⟩)⟩
    · exact ⟨_, beatDecode_eq_next.mpr (.inr (.inr ⟨hr, hi, rfl⟩))⟩
  · exact ⟨_, beatDecode_eq_next.mpr (.inr (.inl
      ⟨hr, Nat.lt_of_lt_of_le (hu.open_lt hr) hrc, Nat.lt_of_lt_of_le (hu.opos_lt hr) hsum, rfl⟩))⟩

/-- The serializer reads inside `RUNBUF` and stores inside `OBUF`. -/
theorem BlockLegal.exists_beatSerialize (h : BlockLegal s) : ∃ t, beatSerialize s = .next t := by
  have hrc := h.stores.runbuf.le
  have hcap := cfg.two_mul_chunk_le_obufCap
  by_cases hi : s.serializer.idx < s.rcount
  · have hi' : s.serializer.idx.toNat < cfg.chunk := Nat.lt_of_lt_of_le hi hrc
    cases hh : s.serializer.half with
    | false => exact ⟨_, beatSerialize_eq_next.mpr (.inl ⟨hi, hi', .inl ⟨hh, by omega, rfl⟩⟩)⟩
    | true => exact ⟨_, beatSerialize_eq_next.mpr (.inl ⟨hi, hi', .inr ⟨hh, by omega, rfl⟩⟩)⟩
  · exact ⟨_, beatSerialize_eq_next.mpr (.inr ⟨hi, rfl⟩)⟩

/-- The deserializer reads inside `IBUF` and stores inside `RUNBUF`. -/
theorem BlockLegal.exists_beatParse (h : BlockLegal s) (ha : s.activity = .running .parse) :
    ∃ t, beatParse s = .next t := by
  obtain ⟨-, -, -, -, hu⟩ := (unitsLegal_iff_of_parse ha).mp h.units
  have hcap := State.effLen_le h.stores.ilen_le
  by_cases hp : s.deserializer.pos < s.deserializer.n
  · have hp' : s.deserializer.pos.toNat < cfg.chunk := by
      have hn := hu.n_eq
      rw [BitVec.lt_def] at hp
      omega
    have hk : s.deserializer.k.toNat < cfg.chunk := by
      have heq := hu.pos_eq
      omega
    cases hh : s.deserializer.half with
    | false => exact ⟨_, beatParse_eq_next.mpr (.inl ⟨hp, hp', .inl ⟨hh, rfl⟩⟩)⟩
    | true =>
      by_cases hc : s.deserializer.cnt = 0#8
      · exact ⟨_, beatParse_eq_next.mpr (.inl ⟨hp, hp', .inr (.inl ⟨hh, hc, rfl⟩)⟩)⟩
      · exact ⟨_, beatParse_eq_next.mpr (.inl ⟨hp, hp', .inr (.inr ⟨hh, hc, hk, rfl⟩)⟩)⟩
  · cases hh : s.deserializer.half with
    | false => exact ⟨_, beatParse_eq_next.mpr (.inr ⟨hp, .inr ⟨hh, rfl⟩⟩)⟩
    | true => exact ⟨_, beatParse_eq_next.mpr (.inr ⟨hp, .inl ⟨hh, rfl⟩⟩)⟩

theorem BlockLegal.exists_blockBeat (h : BlockLegal s) : ∃ t, blockBeat s = .next t := by
  unfold Machine.blockBeat
  split
  · split
    case h_1 ha => exact h.exists_beatEncode ha
    case h_2 ha => exact h.exists_beatDecode ha
    case h_3 => exact h.exists_beatSerialize
    case h_4 ha => exact h.exists_beatParse ha
    case h_5 => exact h.exists_completeCommand
    case h_6 => exact h.exists_completeCommand
  · exact ⟨s, rfl⟩

theorem BlockLegal.exists_blockComplete (h : BlockLegal s) : ∃ t, blockComplete s = .next t := by
  unfold Machine.blockComplete
  split
  · exact h.exists_completeCommand
  · exact ⟨s, rfl⟩

/-! ### The host's moves -/

theorem HostSafe.hostIssue (w : Byte) (s : State cfg) : HostSafe (hostIssue w s) := by
  unfold Machine.hostIssue
  split_ifs
  · exact .fault rfl
  · exact .next _
  · exact .next _

theorem HostSafe.hostWriteIn (i : Nat) (v : Byte) (s : State cfg) : HostSafe (hostWriteIn i v s) := by
  unfold Machine.hostWriteIn
  split_ifs
  · exact .fault rfl
  · exact .fault rfl
  · exact .next _

theorem HostSafe.hostSetLen (len : Nat) (s : State cfg) : HostSafe (hostSetLen len s) := by
  unfold Machine.hostSetLen
  split_ifs
  · exact .fault rfl
  · exact .fault rfl
  · exact .next _

theorem HostSafe.hostSetN (n : BitVec cfg.nargBits) (s : State cfg) : HostSafe (hostSetN n s) := by
  unfold Machine.hostSetN
  split_ifs
  · exact .fault rfl
  · exact .next _

theorem HostSafe.hostOp (op : HostOp cfg) (s : State cfg) : HostSafe (hostOp op s) := by
  cases op with
  | reset => exact .next _
  | writeIn i v => exact .hostWriteIn i v s
  | setLen len => exact .hostSetLen len s
  | setN n => exact .hostSetN n s
  | issue w => exact .hostIssue w s
  | readStatus => exact .next _
  | readIn i => exact .next _
  | readRun k => exact .next _
  | readOut i => exact .next _
  | readLen => exact .next _
  | readN => exact .next _
  | readRCount => exact .next _
  | readOLen => exact .next _

theorem HostSafe.writeBytes (bs : List Byte) (i : Nat) (s : State cfg) : HostSafe (writeBytes i bs s) := by
  induction bs generalizing i s with
  | nil => exact .next s
  | cons b bs ih => exact .andThen (.hostWriteIn i b s) fun t _ => ih (i + 1) t

theorem HostSafe.loadChunk (bs : List Byte) (s : State cfg) : HostSafe (loadChunk bs s) :=
  .andThen (.writeBytes bs 0 s) fun t _ => .andThen (.hostSetLen bs.length t) fun u _ => .hostSetN _ u

theorem BlockLegal.hostCommand_safe (h : BlockLegal s) (w : Byte) : HostSafe (hostCommand w s) := by
  refine .andThen (.hostIssue w s) fun t ht => ?_
  have htl : BlockLegal t := blockLegal_keptByMoves.hostOp (op := .issue w) h ht
  split_ifs
  · exact .of_next htl.exists_completeCommand
  · exact .next t

theorem BlockLegal.runEvent_safe (h : BlockLegal s) (e : Event cfg) : HostSafe (runEvent e s) := by
  cases e with
  | host op => exact .hostOp op s
  | command w => exact h.hostCommand_safe w
  | wait =>
    simp only [runEvent]
    split_ifs
    · exact .of_next (blockLegal_keptByMoves.withProgram h _).exists_completeCommand
    · exact .next _
  | load bs => exact .loadChunk bs s
  | compress => exact .next _
  | decompress => exact .next _
  | perform d => exact .next _
  | beat => exact .of_next h.exists_blockBeat
  | complete => exact .of_next h.exists_blockComplete

/-! ### The drivers -/

theorem HostSafe.driverRead (d : Direction) (s : State cfg) : HostSafe (driverRead d s) := by
  unfold Machine.driverRead
  split
  · exact .next _
  · split_ifs
    · exact .next _
    · exact .next _

theorem HostSafe.driverWrite (d : Direction) (s : State cfg) : HostSafe (driverWrite d s) := by
  unfold Machine.driverWrite
  split
  · exact .next _
  · exact .next _

theorem BlockLegal.driverWork_safe (h : BlockLegal s) (d : Direction) (c : List Byte) : HostSafe (driverWork d c s) := by
  refine .andThen (.loadChunk c s) fun t ht => ?_
  have htl := blockLegal_keptByMoves.load h ht
  cases d with
  | encoding =>
    refine .andThen (htl.hostCommand_safe _) fun u hu => ?_
    exact .andThen ((blockLegal_keptByMoves.command htl hu).hostCommand_safe _) fun v _ => .next _
  | decoding =>
    refine .andThen (htl.hostCommand_safe _) fun u hu => ?_
    split_ifs
    · exact .next _
    · exact .andThen ((blockLegal_keptByMoves.command htl hu).hostCommand_safe _) fun v _ => .next _

theorem BlockLegal.driverStep_safe (h : BlockLegal s) : HostSafe (driverStep s) := by
  unfold Machine.driverStep
  split
  · exact .driverRead _ s
  · exact h.driverWork_safe _ _
  · exact .driverWrite _ s
  · exact .next s
  · exact .next s

/-- A step from a legal block is safe from every fault but those of the host. -/
theorem BlockLegal.stepAt_safe (h : BlockLegal s) : HostSafe (stepAt s) := by
  unfold stepAt
  split_ifs
  · exact h.driverStep_safe
  · split
    · exact .of_next h.exists_blockComplete
    · exact (blockLegal_keptByMoves.withProgram h _).runEvent_safe _

end

/-- Settles O43: the block's own moves end in a state, since a legal block holds every index they make inside the buffers. -/
theorem onlyTheHostCausesFaults : Obligations.OnlyTheHostCausesFaults :=
  ⟨fun _ hi => (inv_iff.mp hi).1.stepAt_safe, fun _ _ hi => (inv_iff.mp hi).1.stepAt_safe⟩

end Sys2Proof.Machine

/-! ## Proofs of the family 00_scope: decoding a stream of whole frames

SUPPORT for O58. Every `CHUNK` is even, so each read of a stream of whole frames returns whole frames; one iteration of the
driver decodes those runs, and the iterations are an induction on the number of runs that are left. -/

namespace Sys2Proof.Machine

section

variable {cfg : Config} {s t : State cfg}

/-! ### Whole frames -/

/-- The frames of runs with counts parse to these runs (43_parser.md R172). -/
theorem framesParseFrom_framesSerialize (off : Nat) {rs : List Run} (h : ∀ r ∈ rs, r.wf = true) :
    framesParseFrom off (framesSerialize rs) = .ok rs := by
  induction rs generalizing off with
  | nil => exact framesParseFrom_nil off
  | cons r rs ih =>
    obtain ⟨hr, hrs⟩ := List.forall_mem_cons.mp h
    rw [framesSerialize_cons, framesParseFrom_frame off (by simpa [Run.wf] using hr), ih (off + 2) hrs]

theorem framesSerialize_take (rs : List Run) (n : Nat) :
    (framesSerialize rs).take (2 * n) = framesSerialize (rs.take n) := by
  induction rs generalizing n with
  | nil => simp
  | cons r rs ih =>
    cases n with
    | zero => simp
    | succ n => rw [framesSerialize_cons, List.take_succ_cons, framesSerialize_cons, ← ih]; rfl

theorem framesSerialize_eq_nil {rs : List Run} : framesSerialize rs = [] ↔ rs = [] := by
  rw [← List.length_eq_zero_iff, length_framesSerialize, ← List.length_eq_zero_iff]
  omega

/-! ### The moves of a driver whose streams do not fail -/

/-- A `LOAD` that fits places its chunk (30_encoding.md R90). -/
theorem loadChunk_of_fits {bytes : List Byte} (hb : s.busy = false) (hl : bytes.length ≤ cfg.chunk) :
    ∃ m, loadChunk bytes s = .next { s with
          ibuf := m, ilen := BitVec.ofNat cfg.lenBits bytes.length, narg := BitVec.ofNat cfg.nargBits bytes.length } ∧
      ∀ i, Memory.get? m i = if i < bytes.length then bytes[i]? else Memory.get? s.ibuf i := by
  obtain ⟨m, hw, hm⟩ := writeBytes_eq_next bytes 0 s hb (by omega)
  refine ⟨m, andThen_eq_next.mpr ⟨_, hw, andThen_eq_next.mpr ⟨_, hostSetLen_eq_next.mpr ⟨hb, hl, rfl⟩,
    hostSetN_eq_next.mpr ⟨hb, rfl⟩⟩⟩, fun i => ?_⟩
  simpa using hm i

/-- After a `LOAD` that fits, the chunk is what `ENCODE` and `PARSE` read. -/
theorem exists_loadChunk {bytes : List Byte} (hb : s.busy = false) (hl : bytes.length ≤ cfg.chunk) :
    ∃ t, loadChunk bytes s = .next t ∧ t.effLen = bytes.length ∧ t.inBytes bytes.length = bytes ∧
      SameError s t ∧ SameHost s t := by
  obtain ⟨m, hload, hm⟩ := loadChunk_of_fits hb hl
  refine ⟨_, hload, ?_, ?_, ⟨rfl, rfl, rfl⟩, ⟨rfl, rfl, rfl, rfl, rfl, rfl, rfl⟩⟩
  · rw [State.effLen, cfg.toNat_len hl, cfg.toNat_narg hl, Nat.min_self]
  · exact State.inBytes_eq fun i hi => by rw [hm, if_pos hi]

/-- A command line of a ready block is the command. -/
theorem Ready.hostCommand_eq (h : Ready s) {i : Instr} (hx : execAt i s = .next t) : hostCommand (encode i) s = .next t :=
  hostCommand_encode_eq_next.mpr ⟨h.1, .inr ⟨h.2, hx⟩⟩

theorem NoStreamFailure.mono (h : NoStreamFailure s) (hr : t.readFails ⊆ s.readFails)
    (hw : t.writeFails ⊆ s.writeFails) : NoStreamFailure t :=
  ⟨fun f hf => h.1 f (hr hf), fun f hf => h.2 f (hw hf)⟩

theorem stepAt_of_reading {d : Direction} (h : s.driver = .reading d) : stepAt s = driverRead d s := by
  rw [stepAt_of_running (by rw [h]; rfl), driverStep, h]

theorem stepAt_of_working {d : Direction} {c : List Byte} (h : s.driver = .working d c) :
    stepAt s = driverWork d c s := by
  rw [stepAt_of_running (by rw [h]; rfl), driverStep, h]

theorem stepAt_of_writing {d : Direction} (h : s.driver = .writing d) : stepAt s = driverWrite d s := by
  rw [stepAt_of_running (by rw [h]; rfl), driverStep, h]

/-- The state a read of at least one byte leaves. -/
def State.afterRead (s : State cfg) (d : Direction) : State cfg :=
  { s with
    readFails := s.readFails.tail
    sourcePos := s.sourcePos + s.nextChunk.length
    driver := .working d s.nextChunk }

theorem driverRead_of_noFailure (h : NoStreamFailure s) (d : Direction) :
    driverRead d s =
      if s.nextChunk = [] then .next { s with readFails := s.readFails.tail, driver := .finished .ok }
      else .next (s.afterRead d) := by
  unfold driverRead
  split
  case h_1 rest hf => exact absurd (h.1 true (by simp [hf])) (by decide)
  case h_2 => rfl

theorem driverWrite_of_noFailure (h : NoStreamFailure s) (d : Direction) :
    driverWrite d s =
      .next { s with writeFails := s.writeFails.tail, sink := s.sink ++ s.validOut, driver := .reading d } := by
  unfold driverWrite
  split
  case h_1 k rest hf => exact absurd (h.2 (some k) (by simp [hf])) (by simp)
  case h_2 => rfl

/-- The chunk of some whole frames goes through `PARSE` and `DECODE` and leaves their expansion in `OBUF`
(44_stream_drivers.md R203). -/
theorem driverWork_wholeFrames (hr : Ready s) {rs : List Run} (hwf : ∀ r ∈ rs, r.wf = true)
    (hl : 2 * rs.length ≤ cfg.chunk) :
    ∃ t, driverWork .decoding (framesSerialize rs) s = .next (t.withDriver (.writing .decoding)) ∧ Ready t ∧
      t.validOut = rleDecode rs ∧ SameHost s t := by
  have hlen := length_framesSerialize rs
  have hcap : rs.length ≤ cfg.chunk := by omega
  have hsum : runSum rs ≤ cfg.obufCap := runSum_le_obufCap hl
  obtain ⟨u, hload, heff, hin, -, hhost⟩ := exists_loadChunk hr.1 (bytes := framesSerialize rs) (by omega)
  have hu : Ready u := hr.load hload
  have hparse : execAt .parse u = .next (u.parsed rs) :=
    execParse_eq_next.mpr ⟨by omega, .inl ⟨rs, by rw [heff, hin]; exact framesParseFrom_framesSerialize 0 hwf, rfl⟩⟩
  have hruns : (u.parsed rs).validRuns = rs := State.validRuns_of_overwrite rfl (cfg.toNat_len hcap)
  have hv : Ready (u.parsed rs) := ⟨rfl, hu.2⟩
  have hdec : execAt .decode (u.parsed rs) = .next (u.parsed rs).decoded :=
    execDecode_eq_next.mpr ⟨(cfg.toNat_len hcap).trans_le hcap, by rwa [hruns], rfl⟩
  have hout : (u.parsed rs).decoded.olen.toNat = (rleDecode (u.parsed rs).validRuns).length :=
    cfg.toNat_olen (by rwa [hruns, length_rleDecode])
  refine ⟨(u.parsed rs).decoded, ?_, ⟨rfl, hu.2⟩, ?_, hhost⟩
  · have herr : (u.parsed rs).err ≠ errMalformedFrame := by rw [hv.2]; decide
    rw [driverWork, hload, andThen_next]
    simp only [hu.hostCommand_eq hparse, hv.hostCommand_eq hdec, andThen_next, if_neg herr]
  · rw [State.validOut_of_overwrite rfl hout, hruns]

/-! ### The iterations of performDecoding -/

/-- `performDecoding` is about to read, and the frames of `rs` are what is left of the source. -/
structure DecodingFrom (s : State cfg) (rs : List Run) : Prop where
  driver : s.driver = .reading .decoding
  ready : Ready s
  noFailure : NoStreamFailure s
  remaining : s.source.drop s.sourcePos = framesSerialize rs

variable {rs : List Run}

/-- A read returns the frames of the next `CHUNK / 2` runs, since `CHUNK` is even (00_scope.md R10). -/
theorem DecodingFrom.nextChunk_eq (h : DecodingFrom s rs) : s.nextChunk = framesSerialize (rs.take (cfg.chunk / 2)) := by
  have heven : cfg.chunk = 2 * (cfg.chunk / 2) := by
    have := cfg.chunk_even
    omega
  rw [State.nextChunk, h.remaining, ← framesSerialize_take, ← heven]

/-- The last read returns no bytes and ends the invocation (44_stream_drivers.md R203). -/
theorem DecodingFrom.finish (h : DecodingFrom s []) :
    stepAt s = .next { s with readFails := s.readFails.tail, driver := .finished .ok } := by
  rw [stepAt_of_reading h.driver, driverRead_of_noFailure h.noFailure, h.nextChunk_eq, List.take_nil,
    framesSerialize_nil, if_pos rfl]

/-- The runs that a read leaves for the next ones. -/
theorem DecodingFrom.remaining_drop (h : DecodingFrom s rs) :
    s.source.drop (s.sourcePos + s.nextChunk.length) = framesSerialize (rs.drop (cfg.chunk / 2)) := by
  have hsplit : framesSerialize rs = s.nextChunk ++ framesSerialize (rs.drop (cfg.chunk / 2)) := by
    rw [h.nextChunk_eq, ← framesSerialize_append, List.take_append_drop]
  rw [← List.drop_drop, h.remaining, hsplit, List.drop_left]

/-- One iteration: a read, the work and a write decode the next `CHUNK / 2` runs. -/
theorem DecodingFrom.iteration (h : DecodingFrom s rs) (hne : rs ≠ []) (hwf : ∀ r ∈ rs, r.wf = true) :
    ∃ t, (coreAt cfg).run 3 s = .next t ∧ DecodingFrom t (rs.drop (cfg.chunk / 2)) ∧ t.program = s.program ∧
      t.sink = s.sink ++ rleDecode (rs.take (cfg.chunk / 2)) := by
  have hchunk := cfg.two_le_chunk
  have hnil : s.nextChunk ≠ [] := by
    rw [h.nextChunk_eq, ne_eq, framesSerialize_eq_nil, List.take_eq_nil_iff]
    rintro (h0 | h0)
    · omega
    · exact hne h0
  have hread : stepAt s = .next (s.afterRead .decoding) := by
    rw [stepAt_of_reading h.driver, driverRead_of_noFailure h.noFailure, if_neg hnil]
  obtain ⟨u, hwork, hu, hout, hprog, -, hsrc, hpos, hsink, hrf, hwf'⟩ := driverWork_wholeFrames
    (s := s.afterRead .decoding) h.ready (rs := rs.take (cfg.chunk / 2)) (fun r hr => hwf r (List.mem_of_mem_take hr))
    (by have := List.length_take_le (cfg.chunk / 2) rs; omega)
  rw [← h.nextChunk_eq, ← stepAt_of_working (s := s.afterRead .decoding) rfl] at hwork
  have hnof : NoStreamFailure (u.withDriver (.writing .decoding)) :=
    h.noFailure.mono (by rw [State.withDriver_readFails, hrf]; exact List.tail_subset _)
      (by rw [State.withDriver_writeFails, hwf']; exact List.Subset.refl _)
  have hwrite := (stepAt_of_writing rfl).trans (driverWrite_of_noFailure hnof .decoding)
  refine ⟨_, (run_succ_of_next hread 2).trans ((run_succ_of_next hwork 1).trans ((run_one _).trans hwrite)),
    ⟨rfl, hu, ?_, ?_⟩, hprog, ?_⟩
  · exact hnof.mono (List.Subset.refl _) (List.tail_subset _)
  · show u.source.drop u.sourcePos = _
    rw [hsrc, hpos]
    exact h.remaining_drop
  · show u.sink ++ u.validOut = _
    rw [hsink, hout]
    rfl

/-- The whole run of an invocation, from its first read on. -/
theorem DecodingFrom.exists_run (h : DecodingFrom s rs) (hwf : ∀ r ∈ rs, r.wf = true) :
    ∃ k t, (coreAt cfg).run k s = .next t ∧ t.driver = .finished .ok ∧ t.program = s.program ∧
      t.sink = s.sink ++ rleDecode rs := by
  induction hn : rs.length using Nat.strong_induction_on generalizing s rs with
  | _ n ih =>
    subst hn
    by_cases hne : rs = []
    · subst hne
      exact ⟨1, _, (run_one s).trans h.finish, rfl, rfl, by simp⟩
    · obtain ⟨u, hrun, hu, hprog, hsink⟩ := h.iteration hne hwf
      have hshorter : (rs.drop (cfg.chunk / 2)).length < rs.length := by
        have := cfg.two_le_chunk
        have := List.length_pos_iff.mpr hne
        rw [List.length_drop]
        omega
      obtain ⟨k, t, hrun', hd, hp, hs⟩ := ih _ hshorter hu (fun r hr => hwf r (List.mem_of_mem_drop hr)) rfl
      refine ⟨3 + k, t, (run_add_of_next hrun k).trans hrun', hd, hp.trans hprog, ?_⟩
      rw [hs, hsink, List.append_assoc, ← rleDecode_append, List.take_append_drop]

end

/-- Settles O58, by induction on the runs that are left of the stream: each iteration decodes the next `CHUNK / 2`. -/
theorem wholeFramesDecode : Obligations.WholeFramesDecode := by
  intro cfg s rest runs hd hp hpos hnof hwf hsrc
  have hstart : stepAt s = .next ((s.withProgram rest).resetBlock.withDriver (.reading .decoding)) :=
    stepAt_of_event hd hp
  have hfrom : DecodingFrom ((s.withProgram rest).resetBlock.withDriver (.reading .decoding)) runs :=
    ⟨rfl, ⟨rfl, rfl⟩, hnof, by simp [hpos, hsrc]⟩
  obtain ⟨k, t, hrun, htd, htp, hts⟩ := hfrom.exists_run hwf
  exact ⟨k + 1, t, (run_succ_of_next hstart k).trans hrun, htd, htp, hts⟩

end Sys2Proof.Machine

/-! ## Proofs of the family 10_state: what the moves of a command write

SUPPORT for O38. Each unit's beat and each completion writes the buffer of its command alone (30_encoding.md R83). -/

namespace Sys2Proof.Machine

section

variable {cfg : Config} {s t : State cfg}

/-- What every move of a command keeps: the input, the host, and, while `BUSY` stays 1, the result registers
(10_state.md R24 to R31, R44). -/
def CommandFrame (s t : State cfg) : Prop :=
  SameInput s t ∧ SameHost s t ∧ SameAnswer s t ∧ (t.busy = true → t.rcount = s.rcount ∧ t.olen = s.olen ∧ SameError s t)

/-- A beat in mid-command stores entries and moves the hidden registers on. -/
theorem CommandFrame.store (s : State cfg) (runbuf : List (Nat × Run)) (obuf : List Host.Cell) (u : Scanner cfg)
    (v : Expander cfg) (w : Serializer cfg) (x : Deserializer cfg) :
    CommandFrame s
      { s with runbuf := runbuf, obuf := obuf, scanner := u, expander := v, serializer := w, deserializer := x } :=
  ⟨⟨rfl, rfl, rfl, rfl⟩, ⟨rfl, rfl, rfl, rfl, rfl, rfl, rfl⟩, ⟨rfl, rfl⟩, fun _ => ⟨rfl, rfl, rfl, rfl, rfl⟩⟩

/-- The last move of a command may write its results and the error. -/
theorem CommandFrame.retire (s : State cfg) (runbuf : List (Nat × Run)) (rcount : BitVec cfg.lenBits)
    (obuf : List Host.Cell) (olen : BitVec cfg.olenBits) (e : BitVec 3) (off : BitVec cfg.offBits) (zero : Bool) :
    CommandFrame s
      { s with
        runbuf := runbuf, rcount := rcount, obuf := obuf, olen := olen, err := e, errOff := off, errZero := zero }.retire :=
  ⟨⟨rfl, rfl, rfl, rfl⟩, ⟨rfl, rfl, rfl, rfl, rfl, rfl, rfl⟩, ⟨rfl, rfl⟩, fun hb => by simp at hb⟩

theorem CommandFrame.of_completeCommand (h : completeCommand s = .next t) : CommandFrame s t := by
  obtain ⟨hi, hh, ha, hb⟩ := completeCommand_frame h
  exact ⟨hi, hh, ha, fun hb' => by simp [hb] at hb'⟩

/-- The scanner writes runs alone. -/
theorem beatEncode_frame (h : beatEncode s = .next t) : CommandFrame s t ∧ SameOut s t := by
  rcases beatEncode_eq_next.mp h with
    ⟨-, -, ⟨-, rfl⟩ | ⟨-, -, rfl⟩ | ⟨-, -, -, rfl⟩⟩ | ⟨-, ⟨-, rfl⟩ | ⟨-, -, rfl⟩⟩
  · exact ⟨.store .., rfl, rfl⟩
  · exact ⟨.store .., rfl, rfl⟩
  · exact ⟨.store .., rfl, rfl⟩
  · exact ⟨.retire .., rfl, rfl⟩
  · exact ⟨.retire .., rfl, rfl⟩

/-- The expander writes output alone. -/
theorem beatDecode_frame (h : beatDecode s = .next t) : CommandFrame s t ∧ SameRuns s t := by
  rcases beatDecode_eq_next.mp h with ⟨-, -, -, rfl⟩ | ⟨-, -, -, rfl⟩ | ⟨-, -, rfl⟩
  · exact ⟨.store .., rfl, rfl⟩
  · exact ⟨.store .., rfl, rfl⟩
  · exact ⟨.retire .., rfl, rfl⟩

/-- The serializer writes output alone. -/
theorem beatSerialize_frame (h : beatSerialize s = .next t) : CommandFrame s t ∧ SameRuns s t := by
  rcases beatSerialize_eq_next.mp h with ⟨-, -, ⟨-, -, rfl⟩ | ⟨-, -, rfl⟩⟩ | ⟨-, rfl⟩
  · exact ⟨.store .., rfl, rfl⟩
  · exact ⟨.store .., rfl, rfl⟩
  · exact ⟨.retire .., rfl, rfl⟩

/-- The deserializer writes runs, and the error of a failure. -/
theorem beatParse_frame (h : beatParse s = .next t) : CommandFrame s t ∧ SameOut s t := by
  rcases beatParse_eq_next.mp h with
    ⟨-, -, ⟨-, rfl⟩ | ⟨-, -, rfl⟩ | ⟨-, -, -, rfl⟩⟩ | ⟨-, ⟨-, rfl⟩ | ⟨-, rfl⟩⟩
  · exact ⟨.store .., rfl, rfl⟩
  · exact ⟨.retire .., rfl, rfl⟩
  · exact ⟨.store .., rfl, rfl⟩
  · exact ⟨.retire .., rfl, rfl⟩
  · exact ⟨.retire .., rfl, rfl⟩

/-- Only `ENCODE` and `PARSE` write `RUNBUF` and `RCOUNT` at completion (30_encoding.md R83). -/
theorem completeCommand_sameRuns (h : completeCommand s = .next t) (he : s.activity ≠ .running .encode)
    (hp : s.activity ≠ .running .parse) : SameRuns s t := by
  rcases completeCommand_eq_next.mp h with ⟨i, ha, hx⟩ | ⟨-, rfl⟩ | ⟨-, rfl⟩
  · refine execAt_runs hx ?_
    cases i with
    | encode => exact absurd ha he
    | decode => exact .inl rfl
    | serialize => exact .inr rfl
    | parse => exact absurd ha hp
  · exact ⟨rfl, rfl⟩
  · exact ⟨rfl, rfl⟩

/-- Only `DECODE` and `SERIALIZE` write `OBUF` and `OLEN` at completion (30_encoding.md R83). -/
theorem completeCommand_sameOut (h : completeCommand s = .next t) (hd : s.activity ≠ .running .decode)
    (hs : s.activity ≠ .running .serialize) : SameOut s t := by
  rcases completeCommand_eq_next.mp h with ⟨i, ha, hx⟩ | ⟨-, rfl⟩ | ⟨-, rfl⟩
  · refine execAt_out hx ?_
    cases i with
    | encode => exact .inl rfl
    | decode => exact absurd ha hd
    | serialize => exact absurd ha hs
    | parse => exact .inr rfl
  · exact ⟨rfl, rfl⟩
  · exact ⟨rfl, rfl⟩

/-- The frame of one beat, by the unit that runs. -/
theorem blockBeat_frame (h : blockBeat s = .next t) :
    CommandFrame s t ∧
      (s.activity ≠ .running .encode → s.activity ≠ .running .parse → SameRuns s t) ∧
      (s.activity ≠ .running .decode → s.activity ≠ .running .serialize → SameOut s t) := by
  rcases blockBeat_eq_next.mp h with ⟨-, rfl⟩ | ⟨-, ⟨ha, h⟩ | ⟨ha, h⟩ | ⟨ha, h⟩ | ⟨ha, h⟩ | ⟨-, h⟩⟩
  · exact ⟨.store .., fun _ _ => ⟨rfl, rfl⟩, fun _ _ => ⟨rfl, rfl⟩⟩
  · obtain ⟨hf, ho⟩ := beatEncode_frame h
    exact ⟨hf, fun hne _ => absurd ha hne, fun _ _ => ho⟩
  · obtain ⟨hf, hr⟩ := beatDecode_frame h
    exact ⟨hf, fun _ _ => hr, fun hne _ => absurd ha hne⟩
  · obtain ⟨hf, hr⟩ := beatSerialize_frame h
    exact ⟨hf, fun _ _ => hr, fun _ hne => absurd ha hne⟩
  · obtain ⟨hf, ho⟩ := beatParse_frame h
    exact ⟨hf, fun _ hne => absurd ha hne, fun _ _ => ho⟩
  · exact ⟨.of_completeCommand h, completeCommand_sameRuns h, completeCommand_sameOut h⟩

end

/-- Settles O38, by the unit that takes the beat and by the command that completes. -/
theorem commandsWriteOnlyTheirBuffers : Obligations.CommandsWriteOnlyTheirBuffers := by
  rintro s t (h | h)
  · obtain ⟨⟨hi, hh, ha, hb⟩, hr, ho⟩ := blockBeat_frame h
    exact ⟨hi, hh, ha, hr, ho, hb⟩
  · obtain ⟨hi, hh, ha, hb⟩ := CommandFrame.of_completeCommand h
    exact ⟨hi, hh, ha, completeCommand_sameRuns h, completeCommand_sameOut h, hb⟩

end Sys2Proof.Machine

/-! ## Proofs of the family 10_state: the counts of RUNBUF

SUPPORT for O42. Each single move of the host and of the block keeps the counts of the written runs, so every step does. -/

namespace Sys2Proof.Machine

section

variable {cfg : Config} {s t : State cfg}

/-- Every run that was written since reset has a count of 1 to 255 (10_state.md R33). -/
def RunCountsLegal (s : State cfg) : Prop := ∀ c ∈ s.runbuf, c.2.wf = true

/-- A move that leaves `RUNBUF` as it was. -/
theorem RunCountsLegal.of_sameRuns (h : RunCountsLegal s) (hr : SameRuns s t) : RunCountsLegal t := by
  rw [RunCountsLegal, hr.1]
  exact h

/-- The runs of a chunk have counts, whether scanned or parsed (40_encoder.md R106, 43_parser.md R172). -/
theorem RunCountsLegal.of_execAt (h : RunCountsLegal s) {i : Instr} (he : execAt i s = .next t) : RunCountsLegal t := by
  cases i with
  | encode =>
    obtain ⟨-, rfl⟩ := execEncode_eq_next.mp he
    exact counts_overwrite h (rleEncode_counts _)
  | decode => exact h.of_sameRuns (execAt_runs he (.inl rfl))
  | serialize => exact h.of_sameRuns (execAt_runs he (.inr rfl))
  | parse =>
    obtain ⟨-, ⟨runs, hp, rfl⟩ | ⟨e, -, rfl⟩⟩ := execParse_eq_next.mp he
    · exact counts_overwrite h (framesSerialize_of_parse hp).2
    · exact List.forall_mem_nil _

theorem RunCountsLegal.of_completeCommand (h : RunCountsLegal s) (hc : completeCommand s = .next t) :
    RunCountsLegal t := by
  rcases completeCommand_eq_next.mp hc with ⟨i, -, he⟩ | ⟨-, rfl⟩ | ⟨-, rfl⟩
  · exact h.of_execAt he
  · exact h
  · exact h

/-- The scanner stores a run only while one is open, and then its count is not 0 (40_encoder.md R112). -/
theorem RunCountsLegal.of_beatEncode (h : RunCountsLegal s) (hbeat : beatEncode s = .next t) : RunCountsLegal t := by
  rcases beatEncode_eq_next.mp hbeat with
    ⟨-, -, ⟨-, rfl⟩ | ⟨-, -, rfl⟩ | ⟨hc, -, -, rfl⟩⟩ | ⟨-, ⟨-, rfl⟩ | ⟨hc, -, rfl⟩⟩
  · exact h
  · exact h
  · exact counts_set h (Scanner.run_wf hc)
  · exact h
  · exact counts_set h (Scanner.run_wf hc)

/-- The deserializer stores a run only with a count byte that is not 0 (43_parser.md R176). -/
theorem RunCountsLegal.of_beatParse (h : RunCountsLegal s) (hbeat : beatParse s = .next t) : RunCountsLegal t := by
  rcases beatParse_eq_next.mp hbeat with
    ⟨-, -, ⟨-, rfl⟩ | ⟨-, -, rfl⟩ | ⟨-, hc, -, rfl⟩⟩ | ⟨-, ⟨-, rfl⟩ | ⟨-, rfl⟩⟩
  · exact h
  · exact List.forall_mem_nil _
  · exact counts_set h (by simp [Run.wf, hc])
  · exact List.forall_mem_nil _
  · exact h

theorem RunCountsLegal.of_blockBeat (h : RunCountsLegal s) (hbeat : blockBeat s = .next t) : RunCountsLegal t := by
  rcases blockBeat_eq_next.mp hbeat with ⟨-, rfl⟩ | ⟨-, ⟨-, hs⟩ | ⟨-, hs⟩ | ⟨-, hs⟩ | ⟨-, hs⟩ | ⟨-, hs⟩⟩
  · exact h
  · exact h.of_beatEncode hs
  · exact h.of_sameRuns (beatDecode_frame hs).2
  · exact h.of_sameRuns (beatSerialize_frame hs).2
  · exact h.of_beatParse hs
  · exact h.of_completeCommand hs

/-- Every single move of the host and of the block keeps the counts: those of the host write no run, and a reset forgets
them all. -/
theorem runCountsLegal_keptByMoves : KeptByMoves (RunCountsLegal (cfg := cfg)) where
  host _ _ _ _ _ _ _ _ _ h := h
  reset _ _ := List.forall_mem_nil _
  writeIn _ _ _ h _ _ := h
  setLen _ _ h _ _ := h
  setN _ _ h _ := h
  accept _ _ h _ _ _ := h
  complete _ _ h _ hc := h.of_completeCommand hc
  beat _ _ h _ hbeat := h.of_blockBeat hbeat

end

/-- Settles O42: a run is stored by `ENCODE` and `PARSE` alone, and each stores none with count 0. -/
theorem stepKeepsRunCounts : Obligations.StepKeepsRunCounts :=
  fun _ _ hs h => runCountsLegal_keptByMoves.step hs h

end Sys2Proof.Machine

/-! ## Proofs of the family 10_state: issue and completion

SUPPORT for O7, O8 and O9. One equation per case of an issue and of a completion (10_state.md R44). -/

namespace Sys2Proof.Machine

section

variable {cfg : Config} {s : State cfg} {w : Byte} {i : Instr}

theorem hostIssue_of_busy (hb : s.busy = true) (w : Byte) :
    hostIssue w s = .fault (.hostIssueWhileBusy (.issue w)) := if_pos hb

theorem hostIssue_of_error (hb : s.busy = false) (he : s.err ≠ errNone) (w : Byte) : hostIssue w s = .next s :=
  hostIssue_eq_next.mpr ⟨hb, .inl ⟨he, rfl⟩⟩

theorem Ready.hostIssue_eq (h : Ready s) (w : Byte) : hostIssue w s = .next (s.accept (activityOf w)) :=
  hostIssue_eq_next.mpr ⟨h.1, .inr ⟨h.2, rfl⟩⟩

/-- A command line is the issue and the completion, one after the other (10_state.md R44). -/
theorem hostCommand_eq_andThen (w : Byte) (s : State cfg) : hostCommand w s = andThen (hostIssue w s) blockComplete := rfl

theorem activityOf_of_ok (h : decodeWord w = .ok i) : activityOf w = .running i := by rw [activityOf, h]

theorem activityOf_of_error {e : DecodeError} (h : decodeWord w = .error e) : activityOf w = .illegal := by
  rw [activityOf, h]

theorem completeCommand_of_running (h : s.activity = .running i) : completeCommand s = execAt i s := by
  rw [completeCommand, h]

theorem completeCommand_of_illegal (h : s.activity = .illegal) :
    completeCommand s = .next (s.raise errIllegalCommand 0#cfg.offBits false) := by
  rw [completeCommand, h]

/-- An accepted command completes with the effect it has on the state at issue. -/
theorem completeCommand_accept_running (i : Instr) (s : State cfg) :
    completeCommand (s.accept (.running i)) = execAt i s :=
  (completeCommand_of_running rfl).trans (execAt_accept i _ s)

/-- The command line of a legal word on a block that accepts it is its command. -/
theorem Ready.hostCommand_of_ok (h : Ready s) (hw : decodeWord w = .ok i) : hostCommand w s = execAt i s := by
  rw [hostCommand_eq_andThen, h.hostIssue_eq, activityOf_of_ok hw, andThen_next]
  exact completeCommand_accept_running i s

/-- A run of two steps is one step after another. -/
theorem run_two (s : State cfg) : (coreAt cfg).run 2 s = andThen (stepAt s) stepAt := by
  cases h : stepAt s with
  | next t => exact (run_succ_of_next h 1).trans (run_one t)
  | fault f => exact run_succ_of_fault h 1
  | refused e => simp only [Host.Core.run, show (coreAt cfg).step s = .refused e from h]; rfl

/-- A step takes the entry that was placed at the head of the program. -/
theorem stepAt_withProgram (hd : s.driver.running = false) (e : Event cfg) (rest : List (Event cfg)) :
    stepAt (s.withProgram (e :: rest)) = runEvent e (s.withProgram rest) := stepAt_of_event hd rfl

/-- An issue does not read the program. -/
theorem hostIssue_withProgram (w : Byte) (s : State cfg) (p : List (Event cfg)) :
    hostIssue w (s.withProgram p) = andThen (hostIssue w s) fun t => .next (t.withProgram p) := by
  cases hb : s.busy with
  | true => rw [hostIssue_of_busy hb, hostIssue_of_busy (s := s.withProgram p) hb]; rfl
  | false =>
    by_cases he : s.err = errNone
    · rw [Ready.hostIssue_eq ⟨hb, he⟩, Ready.hostIssue_eq (s := s.withProgram p) ⟨hb, he⟩]; rfl
    · rw [hostIssue_of_error hb he, hostIssue_of_error (s := s.withProgram p) hb he]; rfl

/-- A completion as the next entry of the program completes what was issued, faults included. -/
theorem hostIssue_then_complete (hd : s.driver.running = false) (w : Byte) (rest : List (Event cfg)) :
    andThen (hostIssue w (s.withProgram (.complete :: rest))) stepAt = hostCommand w (s.withProgram rest) := by
  rw [hostCommand_eq_andThen, hostIssue_withProgram, hostIssue_withProgram w s rest]
  cases h : hostIssue w s with
  | next t => exact stepAt_withProgram (by rwa [hostIssue_driver h]) .complete rest
  | fault f => rfl
  | refused e => rfl

end

/-- Settles O7: a ready block issues and completes the word of the line in one step. -/
theorem stepRunsDecodedCommand : Obligations.StepRunsDecodedCommand := by
  intro s w rest i hd hp hw _ hr
  have hstep : step s = execAt i (s.withProgram rest) :=
    (stepAt_of_event hd hp).trans (Ready.hostCommand_of_ok (s := s.withProgram rest) hr hw)
  rw [exec_eq_execAt, exec_eq_execAt, execAt_accept]
  exact ⟨hstep, hstep⟩

/-- Settles O8, by the three cases of an issue. -/
theorem issueAndCompletion : Obligations.IssueAndCompletion := by
  intro w s
  refine ⟨fun hb => hostIssue_of_busy hb w, fun hb he => hostIssue_of_error hb he w, fun hr =>
    ⟨s.accept (activityOf w), hr.hostIssue_eq w, rfl, ⟨rfl, rfl, rfl, rfl⟩, ⟨rfl, rfl⟩, ⟨rfl, rfl⟩, ⟨rfl, rfl, rfl⟩,
      ⟨rfl, rfl, rfl, rfl, rfl, rfl, rfl⟩, ⟨rfl, rfl⟩, fun e hw => ?_, fun i hw => ⟨?_, fun u hu => ?_⟩⟩⟩
  · exact ⟨_, completeCommand_of_illegal (activityOf_of_error hw), rfl, rfl⟩
  · rw [activityOf_of_ok hw, exec_eq_execAt, completeCommand_accept_running]
  · rw [exec_eq_execAt] at hu
    exact (execAt_idle hu).1

/-- Settles O9: the second step completes what the first one issued, which is what a command line does. -/
theorem issueThenCompleteIsOneCommandLine : Obligations.IssueThenCompleteIsOneCommandLine := by
  intro s w rest hd
  have hsteps : andThen (stepAt (s.withProgram (.host (.issue w) :: .complete :: rest))) stepAt =
      stepAt (s.withProgram (.command w :: rest)) :=
    calc andThen (stepAt (s.withProgram (.host (.issue w) :: .complete :: rest))) stepAt
        = andThen (hostIssue w (s.withProgram (.complete :: rest))) stepAt := by rw [stepAt_withProgram hd]; rfl
      _ = hostCommand w (s.withProgram rest) := hostIssue_then_complete hd w rest
      _ = stepAt (s.withProgram (.command w :: rest)) := (stepAt_withProgram hd (.command w) rest).symm
  exact (run_two _).trans (hsteps.trans (run_one _).symm)

end Sys2Proof.Machine

/-! ## Proofs of the family 10_state: host writes and host reads

SUPPORT for O1 and O12 to O17. One equation per case of each host operation (10_state.md R36, R41 to R47). -/

namespace Sys2Proof.Machine

section

variable {cfg : Config} {s : State cfg}

/-! ### Writes -/

theorem hostWriteIn_of_busy (hb : s.busy = true) (i : Nat) (v : Byte) :
    hostWriteIn i v s = .fault (.hostWriteWhileBusy (.writeIn i v)) := if_pos hb

theorem hostWriteIn_of_ge (hb : s.busy = false) {i : Nat} (hi : cfg.chunk ≤ i) (v : Byte) :
    hostWriteIn i v s = .fault (.hostIndexOutOfRange (.writeIn i v)) := by
  rw [hostWriteIn, if_neg (by simp [hb]), if_pos hi]

theorem hostSetLen_of_busy (hb : s.busy = true) (len : Nat) :
    hostSetLen len s = .fault (.hostWriteWhileBusy (.setLen len)) := if_pos hb

theorem hostSetLen_of_gt (hb : s.busy = false) {len : Nat} (hl : cfg.chunk < len) :
    hostSetLen len s = .fault (.hostLenTooLarge (.setLen len)) := by
  rw [hostSetLen, if_neg (by simp [hb]), if_pos hl]

theorem hostSetN_of_busy (hb : s.busy = true) (n : BitVec cfg.nargBits) :
    hostSetN n s = .fault (.hostWriteWhileBusy (.setN n)) := if_pos hb

/-! ### Reads of a register: a draw while `BUSY = 1`, else its value -/

theorem hostReadStatus_of_busy (hb : s.busy = true) :
    hostReadStatus s = s.answerDraw fun k =>
      .status true (Config.draw 3 k) (Config.draw cfg.offBits k) ((Config.draw 1 k).getLsbD 0) := if_pos hb

theorem hostReadStatus_of_not_busy (hb : s.busy = false) :
    hostReadStatus s = s.answer (.status false s.err s.errOff s.errZero) := if_neg (by simp [hb])

theorem hostReadLen_of_busy (hb : s.busy = true) :
    hostReadLen s = s.answerDraw fun k => .len (Config.draw cfg.lenBits k) := if_pos hb

theorem hostReadLen_of_not_busy (hb : s.busy = false) : hostReadLen s = s.answer (.len s.ilen) := if_neg (by simp [hb])

theorem hostReadN_of_busy (hb : s.busy = true) :
    hostReadN s = s.answerDraw fun k => .n (Config.draw cfg.nargBits k) := if_pos hb

theorem hostReadN_of_not_busy (hb : s.busy = false) : hostReadN s = s.answer (.n s.narg) := if_neg (by simp [hb])

theorem hostReadRCount_of_busy (hb : s.busy = true) :
    hostReadRCount s = s.answerDraw fun k => .rcount (Config.draw cfg.lenBits k) := if_pos hb

theorem hostReadRCount_of_not_busy (hb : s.busy = false) : hostReadRCount s = s.answer (.rcount s.rcount) :=
  if_neg (by simp [hb])

theorem hostReadOLen_of_busy (hb : s.busy = true) :
    hostReadOLen s = s.answerDraw fun k => .olen (Config.draw cfg.olenBits k) := if_pos hb

theorem hostReadOLen_of_not_busy (hb : s.busy = false) : hostReadOLen s = s.answer (.olen s.olen) :=
  if_neg (by simp [hb])

/-! ### Reads of a buffer: the entry inside the valid part with `BUSY = 0`, else a draw -/

theorem hostReadIn_of_written (hb : s.busy = false) {i : Nat} {v : Byte} (hv : Memory.get? s.ibuf i = some v) :
    hostReadIn i s = s.answer (.inByte v) := by
  rw [hostReadIn, hb, hv]

theorem hostReadIn_of_invalid {i : Nat} (h : s.busy = true ∨ Memory.get? s.ibuf i = none) :
    hostReadIn i s = s.answerDraw fun k => .inByte (Config.draw 8 k) := by
  unfold hostReadIn
  split
  case h_1 hb hv => simp [hb, hv] at h
  case h_2 => rfl

theorem hostReadRun_of_valid (hb : s.busy = false) {k : Nat} (hk : k < s.rcount.toNat) :
    hostReadRun k s = s.answer (.run (s.runAt k)) := if_pos ⟨hb, hk⟩

theorem hostReadRun_of_invalid {k : Nat} (h : s.busy = true ∨ s.rcount.toNat ≤ k) :
    hostReadRun k s = s.answerDraw fun n =>
      .run { count := (Config.draw 16 n).extractLsb' 8 8, byte := (Config.draw 16 n).extractLsb' 0 8 } :=
  if_neg fun ⟨hb, hk⟩ => by simp [hb, Nat.not_le.mpr hk] at h

theorem hostReadOut_of_valid (hb : s.busy = false) {i : Nat} (hi : i < s.olen.toNat) :
    hostReadOut i s = s.answer (.outByte (s.outByte i)) := if_pos ⟨hb, hi⟩

theorem hostReadOut_of_invalid {i : Nat} (h : s.busy = true ∨ s.olen.toNat ≤ i) :
    hostReadOut i s = s.answerDraw fun k => .outByte (Config.draw 8 k) :=
  if_neg fun ⟨hb, hi⟩ => by simp [hb, Nat.not_le.mpr hi] at h

end

/-- Settles O12, by the three cases of the write. -/
theorem hostWriteInEffect : Obligations.HostWriteInEffect := by
  intro cfg i v s
  refine ⟨fun hb => hostWriteIn_of_busy hb i v, fun hb hi => hostWriteIn_of_ge hb hi v, fun hb hi =>
    ⟨_, hostWriteIn_eq_next.mpr ⟨hb, hi, rfl⟩, Memory.get?_set_self _ i v,
      State.inByte_of_get? (Memory.get?_set_self _ i v), fun j hj => ?_, rfl, rfl, ⟨rfl, rfl⟩, ⟨rfl, rfl⟩, ⟨rfl, rfl, rfl⟩,
      ⟨rfl, rfl, rfl, rfl, rfl, rfl⟩, ⟨rfl, rfl, rfl, rfl, rfl, rfl, rfl⟩⟩⟩
  have hget : Memory.get? (Memory.set s.ibuf i v) j = Memory.get? s.ibuf j := Memory.get?_set_ne _ hj.symm v
  exact ⟨hget, by rw [State.inByte, State.inByte, hget]⟩

/-- Settles O13, by the three cases of the write: `ILEN` holds every length up to `CHUNK`. -/
theorem hostSetLenEffect : Obligations.HostSetLenEffect := by
  intro cfg len s
  exact ⟨fun hb => hostSetLen_of_busy hb len, fun hb hl => hostSetLen_of_gt hb hl, fun hb hl =>
    ⟨_, hostSetLen_eq_next.mpr ⟨hb, hl, rfl⟩, cfg.toNat_len hl, rfl, rfl, ⟨rfl, rfl⟩, ⟨rfl, rfl⟩, ⟨rfl, rfl, rfl⟩,
      ⟨rfl, rfl, rfl, rfl, rfl, rfl⟩, ⟨rfl, rfl, rfl, rfl, rfl, rfl, rfl⟩⟩⟩

/-- Settles O14, by the two cases of the write. -/
theorem hostSetNEffect : Obligations.HostSetNEffect := by
  intro n s
  exact ⟨fun hb => hostSetN_of_busy hb n, fun hb =>
    ⟨_, hostSetN_eq_next.mpr ⟨hb, rfl⟩, rfl, rfl, rfl, rfl, ⟨rfl, rfl⟩, ⟨rfl, rfl⟩, ⟨rfl, rfl, rfl⟩,
      ⟨rfl, rfl, rfl, rfl, rfl, rfl⟩, ⟨rfl, rfl, rfl, rfl, rfl, rfl, rfl⟩⟩⟩

/-- Settles O15, by the case `BUSY = 1` of each operation. -/
theorem hostAccessWhileBusy : Obligations.HostAccessWhileBusy := fun _ hb =>
  ⟨hostWriteIn_of_busy hb, hostSetLen_of_busy hb, hostSetN_of_busy hb, hostIssue_of_busy hb,
    fun _ k hf => run_succ_of_fault hf k,
    congrArg _ (hostReadStatus_of_busy hb),
    fun _ => congrArg _ (hostReadIn_of_invalid (.inl hb)),
    fun _ => congrArg _ (hostReadOut_of_invalid (.inl hb)),
    fun _ => congrArg _ (hostReadRun_of_invalid (.inl hb)),
    congrArg _ (hostReadLen_of_busy hb),
    congrArg _ (hostReadN_of_busy hb),
    congrArg _ (hostReadRCount_of_busy hb),
    congrArg _ (hostReadOLen_of_busy hb)⟩

/-- Settles O16: a read changes what the host was told and the number of draws alone, and with `BUSY = 0` it answers. -/
theorem hostReadsReturnCurrentValues : Obligations.HostReadsReturnCurrentValues := by
  refine ⟨fun op s hr => ?_, fun s hb =>
    ⟨congrArg _ (hostReadStatus_of_not_busy hb),
      fun _ _ hv => congrArg _ (hostReadIn_of_written hb hv),
      fun _ hk => congrArg _ (hostReadRun_of_valid hb hk),
      fun _ hi => congrArg _ (hostReadOut_of_valid hb hi),
      congrArg _ (hostReadLen_of_not_busy hb),
      congrArg _ (hostReadN_of_not_busy hb),
      congrArg _ (hostReadRCount_of_not_busy hb),
      congrArg _ (hostReadOLen_of_not_busy hb)⟩⟩
  obtain ⟨r, n, h⟩ := hostOp_read hr s
  exact ⟨_, h, ⟨⟨rfl, rfl, rfl, rfl⟩, ⟨rfl, rfl⟩, ⟨rfl, rfl⟩, ⟨rfl, rfl, rfl⟩, ⟨rfl, rfl, rfl, rfl, rfl, rfl⟩⟩,
    ⟨rfl, rfl, rfl, rfl, rfl, rfl, rfl⟩⟩

/-- Settles O17, by the case of each buffer read outside its valid part. -/
theorem unspecifiedReadsDraw : Obligations.UnspecifiedReadsDraw := fun _ =>
  ⟨fun _ hi => congrArg _ (hostReadOut_of_invalid (.inr hi)),
    fun _ hk => congrArg _ (hostReadRun_of_invalid (.inr hk)),
    fun _ hi => congrArg _ (hostReadIn_of_invalid (.inr hi))⟩

end Sys2Proof.Machine

/-! ## Proofs of the family 10_state: reset, the status word, and the state at power-on -/

namespace Sys2Proof.Machine

/-- What `HostReset` and power-on set (10_state.md R48). -/
structure BlockCleared {cfg : Config} (s : State cfg) : Prop where
  ilen : s.ilen = 0#cfg.lenBits
  narg : s.narg = 0#cfg.nargBits
  rcount : s.rcount = 0#cfg.lenBits
  olen : s.olen = 0#cfg.olenBits
  err : s.err = errNone
  errOff : s.errOff = 0#cfg.offBits
  errZero : s.errZero = false
  ibuf : s.ibuf = []
  runbuf : s.runbuf = []
  obuf : s.obuf = []
  units : UnitsIdle s

section

variable {cfg : Config} {s : State cfg}

theorem BlockCleared.powerOn : BlockCleared (State.powerOn (cfg := cfg)) :=
  ⟨rfl, rfl, rfl, rfl, rfl, rfl, rfl, rfl, rfl, rfl, rfl, rfl, rfl, rfl, rfl, rfl⟩

theorem BlockCleared.resetBlock (s : State cfg) : BlockCleared s.resetBlock :=
  ⟨rfl, rfl, rfl, rfl, rfl, rfl, rfl, rfl, rfl, rfl, rfl, rfl, rfl, rfl, rfl, rfl⟩

/-- A cleared block meets the part of the invariant that speaks of the block. -/
theorem BlockCleared.legal (h : BlockCleared s) : BlockLegal s := by
  obtain ⟨hl, -, hrc, hol, he, hoff, hz, hi, hr, ho, hu⟩ := h
  refine .of_unitsIdle hu ⟨?_, ?_, ?_, ?_, ?_⟩ ⟨?_, fun _ => ⟨hoff, hz⟩, ?_, fun _ => he⟩ ?_
  · simp [hl]
  · rw [hi]; exact .nil
  · rw [hr, hrc]; exact .nil
  · simp [hr]
  · rw [ho, hol]; exact .nil
  · rw [he]; decide
  · simp [hoff]
  · simp [State.validRuns, hrc, State.runs]

theorem Inv.powerOn : Inv (State.powerOn (cfg := cfg)) :=
  inv_iff.mpr ⟨BlockCleared.powerOn.legal, .of_not_running rfl⟩

end

/-- Settles O1: power-on and `HostReset` clear the block alike. -/
theorem resetStateValues : Obligations.ResetStateValues := by
  intro r hr
  have h : BlockCleared r := by
    obtain rfl | ⟨s, rfl⟩ := hr
    · exact .powerOn
    · exact .resetBlock s
  refine ⟨h.ilen, h.narg, h.rcount, h.olen, h.units.1, h.err, h.errOff, h.errZero, fun i => ?_, fun i => ?_, fun i => ?_,
    fun i => congrArg _ (hostReadIn_of_invalid (.inr ?_)), h.units⟩
  · rw [h.ibuf]; rfl
  · rw [h.runbuf]; rfl
  · rw [h.obuf]; rfl
  · rw [h.ibuf]; rfl

/-- Settles O2: the reset sets all that a command in progress holds, and nothing of the host. -/
theorem hostResetIsAlwaysLegal : Obligations.HostResetIsAlwaysLegal :=
  fun _ => ⟨rfl, ⟨rfl, rfl, rfl, rfl, rfl, rfl, rfl⟩, fun _ _ _ _ _ _ => rfl⟩

/-- Settles O18: each field is cut out of the concatenation between the widths of the fields below it. -/
theorem statusWordFields : Obligations.StatusWordFields := by
  intro s
  unfold State.statusWord
  refine ⟨?_, ?_, ?_, ?_⟩
  · rw [BitVec.getLsbD_append, if_pos Nat.one_pos, BitVec.getLsbD_ofBool]
    simp
  · rw [BitVec.extractLsb'_append_eq_of_le (le_refl 1)]
    exact BitVec.extractLsb'_append_eq_right
  · rw [BitVec.extractLsb'_append_eq_of_le (show 1 ≤ 4 by decide), BitVec.extractLsb'_append_eq_of_le (le_refl 3)]
    exact BitVec.extractLsb'_append_eq_right
  · rw [BitVec.getLsbD_append, BitVec.getLsbD_append, BitVec.getLsbD_append]
    simp

/-- A `CHUNK` that is even and at least 2 has registers wide enough: as many bits as the largest value. -/
theorem Config.exists_chunk {n : Nat} (h2 : 2 ≤ n) (heven : n % 2 = 0) : ∃ cfg : Config, cfg.chunk = n := by
  by_cases h512 : n = 512
  · exact ⟨Config.hardware, h512.symm⟩
  · refine ⟨⟨⟨n, n, 16 + n, n / 2 * 255, n⟩, ?_⟩, rfl⟩
    have hlen : n < 2 ^ n := Nat.lt_two_pow_self
    have hnarg : n < 2 ^ (16 + n) := Nat.lt_of_lt_of_le hlen (Nat.pow_le_pow_right (by decide) (by omega))
    have holen : n / 2 * 255 < 2 ^ (n / 2 * 255) := Nat.lt_two_pow_self
    simp [Params.wf, Config.maxRun, h2, heven, h512, hlen, hnarg, holen, hlen.le]

/-- Settles O39: the cleared block and the inactive driver meet the invariant, and a `CHUNK` needs only wide registers. -/
theorem powerOnStateIsLegal : Obligations.PowerOnStateIsLegal := by
  refine ⟨.powerOn, fun _ => .powerOn, fun n => ⟨?_, fun ⟨h2, heven⟩ => Config.exists_chunk h2 heven⟩⟩
  rintro ⟨cfg, rfl⟩
  exact ⟨cfg.two_le_chunk, cfg.chunk_even⟩

end Sys2Proof.Machine

/-! ## Proofs of the family 20_memory: the form of the buffers

SUPPORT for O41. A command writes the buffers of its results alone, entry by entry or as a whole, and each write that succeeds is
inside the buffer's index space (20_memory.md R67, R68); no register needs to be in range for it. -/

namespace Sys2Proof.Machine

section

variable {cfg : Config} {s t : State cfg}

/-- A buffer filled up to some index is one of the legal form, of which nothing need be written. -/
theorem Memory.Filled.zero {α : Type} {cap n : Nat} {m : Memory α} (h : Memory.Filled cap m n) : Memory.Filled cap m 0 :=
  h.of_listed (Nat.zero_le cap) fun _ hi => absurd hi (Nat.not_lt_zero _)

/-- The legal form, buffer by buffer. -/
theorem buffersLegal_iff :
    BuffersLegal s ↔
      Memory.Filled cfg.chunk s.ibuf 0 ∧ Memory.Filled cfg.runCap s.runbuf 0 ∧ Memory.Filled cfg.obufCap s.obuf 0 := by
  constructor
  · rintro ⟨hi, hr, ho, hi', hr', ho'⟩
    exact ⟨⟨hi, hi', Nat.zero_le _, by simp⟩, ⟨hr, hr', Nat.zero_le _, by simp⟩, ⟨ho, ho', Nat.zero_le _, by simp⟩⟩
  · rintro ⟨hi, hr, ho⟩
    exact ⟨hi.wf, hr.wf, ho.wf, hi.lt, hr.lt, ho.lt⟩

/-- `RUNBUF` as a buffer of the legal form. -/
theorem BuffersLegal.runs (h : BuffersLegal s) : Memory.Filled cfg.runCap s.runbuf 0 := (buffersLegal_iff.mp h).2.1

/-- `OBUF` as a buffer of the legal form. -/
theorem BuffersLegal.out (h : BuffersLegal s) : Memory.Filled cfg.obufCap s.obuf 0 := (buffersLegal_iff.mp h).2.2

/-- A move that changes no buffer. -/
theorem BuffersLegal.of_sameBuffers (h : BuffersLegal s) (hi : t.ibuf = s.ibuf) (hr : t.runbuf = s.runbuf)
    (ho : t.obuf = s.obuf) : BuffersLegal t := by
  rw [buffersLegal_iff, hi, hr, ho]
  exact buffersLegal_iff.mp h

/-- A move that writes `RUNBUF` alone keeps the form when it leaves `RUNBUF` in it. -/
theorem BuffersLegal.of_runs (h : BuffersLegal s) (hi : SameInput s t) (ho : SameOut s t) {n : Nat}
    (hr : Memory.Filled cfg.runCap t.runbuf n) : BuffersLegal t := by
  obtain ⟨hin, -, hout⟩ := buffersLegal_iff.mp h
  exact buffersLegal_iff.mpr ⟨by rwa [hi.1], hr.zero, by rwa [ho.1]⟩

/-- A move that writes `OBUF` alone keeps the form when it leaves `OBUF` in it. -/
theorem BuffersLegal.of_out (h : BuffersLegal s) (hi : SameInput s t) (hr : SameRuns s t) {n : Nat}
    (ho : Memory.Filled cfg.obufCap t.obuf n) : BuffersLegal t := by
  obtain ⟨hin, hruns, -⟩ := buffersLegal_iff.mp h
  exact buffersLegal_iff.mpr ⟨by rwa [hi.1], by rwa [hr.1], ho.zero⟩

/-! ### Completions -/

/-- The frames of as many runs as `RUNBUF` has fit `OBUF` (42_serializer.md R156). -/
theorem State.length_serialized_le (h : s.rcount.toNat ≤ cfg.runCap) :
    (framesSerialize s.validRuns).length ≤ cfg.obufCap := by
  have hcap := cfg.two_mul_chunk_le_obufCap
  rw [cfg.runCap_eq_chunk] at h
  rw [length_framesSerialize, State.length_validRuns]
  omega

/-- The runs of a chunk that parses fit `RUNBUF`. -/
theorem State.length_parsed_le (h : s.effLen ≤ cfg.chunk) {runs : List Run}
    (hp : framesParse (s.inBytes s.effLen) = .ok runs) : runs.length ≤ cfg.runCap := by
  have hlen := length_of_parse hp
  rw [State.length_inBytes] at hlen
  rw [cfg.runCap_eq_chunk]
  omega

/-- The result of a command fits its buffer (20_memory.md R68). -/
theorem BuffersLegal.of_execAt (h : BuffersLegal s) {i : Instr} (he : execAt i s = .next t) : BuffersLegal t := by
  obtain ⟨hi, -, -⟩ := execAt_frame he
  cases i with
  | encode =>
    have ho := execAt_out he (.inl rfl)
    obtain ⟨hl, rfl⟩ := execEncode_eq_next.mp he
    exact h.of_runs hi ho (h.runs.overwrite (Nat.le_trans s.length_encoded_le hl))
  | decode =>
    have hr := execAt_runs he (.inl rfl)
    obtain ⟨-, hsum, rfl⟩ := execDecode_eq_next.mp he
    exact h.of_out hi hr (h.out.overwrite (by rwa [length_rleDecode]))
  | serialize =>
    have hr := execAt_runs he (.inr rfl)
    obtain ⟨hc, rfl⟩ := execSerialize_eq_next.mp he
    exact h.of_out hi hr (h.out.overwrite (State.length_serialized_le hc))
  | parse =>
    have ho := execAt_out he (.inr rfl)
    obtain ⟨hl, ⟨runs, hp, rfl⟩ | ⟨e, -, rfl⟩⟩ := execParse_eq_next.mp he
    · exact h.of_runs hi ho (h.runs.overwrite (State.length_parsed_le hl hp))
    · exact h.of_runs hi ho .nil

theorem BuffersLegal.of_completeCommand (h : BuffersLegal s) (hc : completeCommand s = .next t) : BuffersLegal t := by
  rcases completeCommand_eq_next.mp hc with ⟨i, -, he⟩ | ⟨-, rfl⟩ | ⟨-, rfl⟩
  · exact h.of_execAt he
  · exact h.of_sameBuffers rfl rfl rfl
  · exact h.of_sameBuffers rfl rfl rfl

/-! ### Beats -/

/-- The scanner stores a run where `RUNBUF` has an entry (40_encoder.md R112). -/
theorem beatEncode_runbuf_filled (hr : Memory.Filled cfg.runCap s.runbuf 0) (h : beatEncode s = .next t) :
    Memory.Filled cfg.runCap t.runbuf 0 := by
  rcases beatEncode_eq_next.mp h with
    ⟨-, -, ⟨-, rfl⟩ | ⟨-, -, rfl⟩ | ⟨-, -, hk, rfl⟩⟩ | ⟨-, ⟨-, rfl⟩ | ⟨-, hk, rfl⟩⟩
  · exact hr
  · exact hr
  · exact hr.set hk _
  · exact hr
  · exact hr.set hk _

/-- The deserializer stores a run where `RUNBUF` has an entry, or forgets all runs in a failure (43_parser.md R175, R176). -/
theorem beatParse_runbuf_filled (hr : Memory.Filled cfg.runCap s.runbuf 0) (h : beatParse s = .next t) :
    Memory.Filled cfg.runCap t.runbuf 0 := by
  rcases beatParse_eq_next.mp h with
    ⟨-, -, ⟨-, rfl⟩ | ⟨-, -, rfl⟩ | ⟨-, -, hk, rfl⟩⟩ | ⟨-, ⟨-, rfl⟩ | ⟨-, rfl⟩⟩
  · exact hr
  · exact .nil
  · exact hr.set hk _
  · exact .nil
  · exact hr

/-- The expander stores a byte where `OBUF` has one (41_decoder.md R133). -/
theorem beatDecode_obuf_filled (ho : Memory.Filled cfg.obufCap s.obuf 0) (h : beatDecode s = .next t) :
    Memory.Filled cfg.obufCap t.obuf 0 := by
  rcases beatDecode_eq_next.mp h with ⟨-, -, -, rfl⟩ | ⟨-, -, hi, rfl⟩ | ⟨-, -, rfl⟩
  · exact ho
  · exact ho.set hi _
  · exact ho

/-- The serializer stores a byte where `OBUF` has one (42_serializer.md R152). -/
theorem beatSerialize_obuf_filled (ho : Memory.Filled cfg.obufCap s.obuf 0) (h : beatSerialize s = .next t) :
    Memory.Filled cfg.obufCap t.obuf 0 := by
  rcases beatSerialize_eq_next.mp h with ⟨-, -, ⟨-, hi, rfl⟩ | ⟨-, hi, rfl⟩⟩ | ⟨-, rfl⟩
  · exact ho.set hi _
  · exact ho.set hi _
  · exact ho

theorem BuffersLegal.of_blockBeat (h : BuffersLegal s) (hbeat : blockBeat s = .next t) : BuffersLegal t := by
  obtain ⟨⟨hi, -⟩, -⟩ := blockBeat_frame hbeat
  rcases blockBeat_eq_next.mp hbeat with ⟨-, rfl⟩ | ⟨-, ⟨-, hs⟩ | ⟨-, hs⟩ | ⟨-, hs⟩ | ⟨-, hs⟩ | ⟨-, hs⟩⟩
  · exact h
  · exact h.of_runs hi (beatEncode_frame hs).2 (beatEncode_runbuf_filled h.runs hs)
  · exact h.of_out hi (beatDecode_frame hs).2 (beatDecode_obuf_filled h.out hs)
  · exact h.of_out hi (beatSerialize_frame hs).2 (beatSerialize_obuf_filled h.out hs)
  · exact h.of_runs hi (beatParse_frame hs).2 (beatParse_runbuf_filled h.runs hs)
  · exact h.of_completeCommand hs

/-! ### Every move -/

/-- The host writes `IBUF` inside its index space (10_state.md R41). -/
theorem BuffersLegal.writeIn (h : BuffersLegal s) {i : Nat} (hi : i < cfg.chunk) (v : Byte) :
    BuffersLegal { s with ibuf := Memory.set s.ibuf i v } := by
  obtain ⟨hin, hr, ho⟩ := buffersLegal_iff.mp h
  exact buffersLegal_iff.mpr ⟨hin.set hi v, hr, ho⟩

/-- Every single move of the host and of the block keeps the form. -/
theorem buffersLegal_keptByMoves : KeptByMoves (BuffersLegal (cfg := cfg)) where
  host _ _ _ _ _ _ _ _ _ h := h.of_sameBuffers rfl rfl rfl
  reset _ _ := buffersLegal_iff.mpr ⟨.nil, .nil, .nil⟩
  writeIn _ _ v h _ hi := h.writeIn hi v
  setLen _ _ h _ _ := h.of_sameBuffers rfl rfl rfl
  setN _ _ h _ := h.of_sameBuffers rfl rfl rfl
  accept _ _ h _ _ _ := h.of_sameBuffers rfl rfl rfl
  complete _ _ h _ hc := h.of_completeCommand hc
  beat _ _ h _ hbeat := h.of_blockBeat hbeat

end

/-- Settles O41: a host write is range checked, and the results of the block fit their buffers. -/
theorem stepKeepsBufferForm : Obligations.StepKeepsBufferForm :=
  fun _ _ hs h => buffersLegal_keptByMoves.step hs h

end Sys2Proof.Machine

/-! ## Proofs of the family 20_memory: a command line repeated

SUPPORT for O37. A command writes none of its operands (30_encoding.md R83), so a second one computes the same result from them
and writes it over itself; after an error the second one is ignored (20_memory.md R66, 10_state.md R44). -/

namespace Sys2Proof.Machine

section

variable {cfg : Config} {s t : State cfg} {w : Byte} {i : Instr}

theorem State.encoded_encoded (s : State cfg) : s.encoded.encoded = s.encoded :=
  congrArg (fun m => ({ s.encoded with runbuf := m } : State cfg)) (Memory.overwrite_overwrite s.runbuf _)

theorem State.decoded_decoded (s : State cfg) : s.decoded.decoded = s.decoded :=
  congrArg (fun m => ({ s.decoded with obuf := m } : State cfg)) (Memory.overwrite_overwrite s.obuf _)

theorem State.serialized_serialized (s : State cfg) : s.serialized.serialized = s.serialized :=
  congrArg (fun m => ({ s.serialized with obuf := m } : State cfg)) (Memory.overwrite_overwrite s.obuf _)

theorem State.parsed_parsed (s : State cfg) (runs : List Run) : (s.parsed runs).parsed runs = s.parsed runs :=
  congrArg (fun m => ({ s.parsed runs with runbuf := m } : State cfg)) (Memory.overwrite_overwrite s.runbuf _)

/-- A command that ended without an error does nothing more when it is executed again. -/
theorem execAt_again (h : execAt i s = .next t) (he : t.err = errNone) : execAt i t = .next t := by
  cases i with
  | encode =>
    obtain ⟨hl, rfl⟩ := execEncode_eq_next.mp h
    exact execEncode_eq_next.mpr ⟨hl, s.encoded_encoded.symm⟩
  | decode =>
    obtain ⟨hc, hsum, rfl⟩ := execDecode_eq_next.mp h
    exact execDecode_eq_next.mpr ⟨hc, hsum, s.decoded_decoded.symm⟩
  | serialize =>
    obtain ⟨hc, rfl⟩ := execSerialize_eq_next.mp h
    exact execSerialize_eq_next.mpr ⟨hc, s.serialized_serialized.symm⟩
  | parse =>
    obtain ⟨hl, ⟨runs, hp, rfl⟩ | ⟨e, -, rfl⟩⟩ := execParse_eq_next.mp h
    · exact execParse_eq_next.mpr ⟨hl, .inl ⟨runs, hp, (s.parsed_parsed runs).symm⟩⟩
    · rw [State.failParse_err] at he
      exact absurd he (by decide)

/-- What an accepted word leaves is a block that ignores the word, or one on which its command does nothing more. -/
theorem hostCommand_again (h : hostCommand w s = .next t) : hostCommand w t = .next t := by
  obtain ⟨hb, ⟨he, rfl⟩ | ⟨-, hc⟩⟩ := hostCommand_eq_next.mp h
  · exact hostCommand_eq_next.mpr ⟨hb, .inl ⟨he, rfl⟩⟩
  · obtain ⟨-, -, -, hbt⟩ := completeCommand_frame hc
    refine hostCommand_eq_next.mpr ⟨hbt, ?_⟩
    by_cases het : t.err = errNone
    · refine .inr ⟨het, ?_⟩
      rcases completeCommand_eq_next.mp hc with ⟨i, ha, hx⟩ | ⟨-, rfl⟩ | ⟨ha, -⟩
      · rw [State.accept_activity] at ha
        rw [ha, completeCommand_accept_running]
        exact execAt_again (execAt_accept_eq_next.mp hx) het
      · rw [State.raise_err] at het
        exact absurd het (by decide)
      · exact absurd ha (activityOf_ne_idle w)
    · exact .inl ⟨het, rfl⟩

end

/-- Settles O37: the second line is ignored after an error, and otherwise writes again what stands there. -/
theorem commandTwiceIsOnce : Obligations.CommandTwiceIsOnce := fun _ _ _ h => hostCommand_again h

end Sys2Proof.Machine

/-! ## Proofs of the family 30_encoding: command words

SUPPORT for O4, O5, O6 and O10. A word is its reserved bits above its `OP` (30_encoding.md R81), so the decoder answers a
command on the word of that command and on no other. -/

namespace Sys2Proof

section

variable {w : Byte} {i : Instr}

/-- A word is its two fields, the reserved bits above the selector (30_encoding.md R81). -/
theorem rsvField_append_opField (w : Byte) : rsvField w ++ opField w = w := by
  ext k hk
  simp only [rsvField, opField, BitVec.getElem_append, BitVec.getElem_extractLsb', Nat.zero_add]
  split
  · exact BitVec.getLsbD_eq_getElem hk
  · rw [Nat.add_sub_cancel' (by omega)]
    exact BitVec.getLsbD_eq_getElem hk

/-- A word with the reserved bits 00000 is told by its selector. -/
theorem eq_append_opField (h : rsvField w = 0b00000#5) : w = 0b00000#5 ++ opField w := by
  rw [← h, rsvField_append_opField]

/-- The decoder answers a command exactly on the reserved bits 00000 and the command's `OP` (30_encoding.md R85). -/
theorem decodeWord_eq_ok_iff_fields : decodeWord w = .ok i ↔ rsvField w = 0b00000#5 ∧ opField w = opcode i := by
  unfold decodeWord
  by_cases hr : rsvField w = 0b00000#5
  · simp only [hr, ne_eq, not_true_eq_false, if_false, true_and]
    generalize opField w = op
    revert op
    cases i <;> decide
  · simp [hr]

/-- The decoder answers a command on its word and on no other (30_encoding.md R87). -/
theorem decodeWord_eq_ok : decodeWord w = .ok i ↔ w = encode i := by
  rw [decodeWord_eq_ok_iff_fields]
  constructor
  · rintro ⟨hr, ho⟩
    rw [eq_append_opField hr, ho, encode]
  · rintro rfl
    cases i <;> decide

/-- A word is illegal exactly when it is the word of no command (30_encoding.md R86). -/
theorem exists_decodeWord_eq_error : (∃ e, decodeWord w = .error e) ↔ ∀ i, w ≠ encode i := by
  simp only [ne_eq, ← decodeWord_eq_ok]
  cases decodeWord w <;> simp

/-- What holds of the four commands holds of every command. -/
theorem forall_instr {p : Instr → Prop} : (∀ i, p i) ↔ p .encode ∧ p .decode ∧ p .serialize ∧ p .parse :=
  ⟨fun h => ⟨h _, h _, h _, h _⟩, fun ⟨h1, h2, h3, h4⟩ i => by cases i <;> assumption⟩

/-- Among the words with the reserved bits 00000, all but four are the word of a command (30_encoding.md R87). -/
theorem ne_encode_of_append (op : BitVec 3) :
    (∀ i, 0b00000#5 ++ op ≠ encode i) ↔
      0b00000#5 ++ op = 0x00#8 ∨ 0b00000#5 ++ op = 0x05#8 ∨ 0b00000#5 ++ op = 0x06#8 ∨ 0b00000#5 ++ op = 0x07#8 := by
  rw [forall_instr]
  revert op
  decide

/-- The illegal words, listed (30_encoding.md R86). -/
theorem exists_decodeWord_eq_error_iff_listed :
    (∃ e, decodeWord w = .error e) ↔ rsvField w ≠ 0b00000#5 ∨ w = 0x00#8 ∨ w = 0x05#8 ∨ w = 0x06#8 ∨ w = 0x07#8 := by
  by_cases hr : rsvField w = 0b00000#5
  · rw [exists_decodeWord_eq_error, eq_append_opField hr, ne_encode_of_append]
    simp [← eq_append_opField hr, hr]
  · exact iff_of_true ⟨.reservedBits, if_pos hr⟩ (.inl hr)

end

/-- Settles O4: the decoder reads the two fields of R81, the extracts the statement writes out. -/
theorem commandWordDecoding : Obligations.CommandWordDecoding := fun _ => rfl

/-- Settles O5: the four words are those of the encoder. -/
theorem opcodeMapWords : Obligations.OpcodeMapWords := by
  refine ⟨decodeWord_eq_ok.mpr rfl, decodeWord_eq_ok.mpr rfl, decodeWord_eq_ok.mpr rfl, decodeWord_eq_ok.mpr rfl,
    fun w h1 h2 h3 h4 => exists_decodeWord_eq_error.mpr (forall_instr.mpr ⟨h1, h2, h3, h4⟩)⟩

/-- Settles O6: both halves are that the decoder answers a command exactly on its word. -/
theorem commandEncodingRoundTrip : Obligations.CommandEncodingRoundTrip :=
  ⟨fun _ _ _ => by rw [decode, decodeWord_eq_ok.mpr rfl], fun _ _ h => (decodeWord_eq_ok.mp h).symm⟩

end Sys2Proof

/-! ## Proofs of the family 30_encoding: the lines of the host's program

SUPPORT for O10, O45, O47, O48 and O49. What a command line does on a block that ignores it and on an illegal word, and the run
of a `DECOMPRESS` whose chunk does not parse (30_encoding.md R86, R89, R90). -/

namespace Sys2Proof.Machine

section

variable {cfg : Config} {s : State cfg} {w : Byte}

/-- While an error is set a command line is taken off the program and does nothing else (10_state.md R44). -/
theorem stepAt_command_of_error (hd : s.driver.running = false) (hb : s.busy = false) (he : s.err ≠ errNone) (w : Byte)
    (rest : List (Event cfg)) : stepAt (s.withProgram (.command w :: rest)) = .next (s.withProgram rest) :=
  (stepAt_withProgram hd (.command w) rest).trans (hostCommand_eq_next.mpr ⟨hb, .inl ⟨he, rfl⟩⟩)

/-- The command line of an illegal word on a block that accepts it raises the error, and leaves no trace of the issue. -/
theorem Ready.hostCommand_of_illegal (h : Ready s) {e : DecodeError} (hw : decodeWord w = .error e) :
    hostCommand w s = .next (s.raise errIllegalCommand 0#cfg.offBits false) := by
  rw [hostCommand_eq_andThen, h.hostIssue_eq, activityOf_of_error hw, andThen_next]
  exact completeCommand_of_illegal (s := s.accept .illegal) rfl

/-- The command line of `PARSE` on a chunk that does not parse (43_parser.md R175). -/
theorem Ready.hostCommand_parse_of_error (h : Ready s) (hl : s.ilen.toNat ≤ cfg.chunk) {e : FrameError}
    (hp : framesParse (s.inBytes s.effLen) = .error e) :
    hostCommand (encode .parse) s = .next (s.failParse e.off e.zero) :=
  h.hostCommand_eq (i := .parse) (execParse_eq_next.mpr ⟨State.effLen_le hl, .inr ⟨e, hp, rfl⟩⟩)

/-- A `DECOMPRESS` of a chunk that does not parse leaves what its failed `PARSE` leaves: the `DECODE` after it is ignored
(30_encoding.md R90, 70_reset_and_hazards.md R272). -/
theorem run_decompress_of_parse_error (hd : s.driver.running = false) (hr : Ready s) (hl : s.ilen.toNat ≤ cfg.chunk)
    {e : FrameError} (hp : framesParse (s.inBytes s.effLen) = .error e) (rest : List (Event cfg)) :
    (coreAt cfg).run 3 (s.withProgram (.decompress :: rest)) = .next ((s.withProgram rest).failParse e.off e.zero) := by
  have hexpand : stepAt (s.withProgram (.decompress :: rest)) =
      .next (s.withProgram (.command (encode .parse) :: .command (encode .decode) :: rest)) :=
    stepAt_withProgram hd .decompress rest
  have hparse : stepAt (s.withProgram (.command (encode .parse) :: .command (encode .decode) :: rest)) =
      .next ((s.withProgram (.command (encode .decode) :: rest)).failParse e.off e.zero) :=
    (stepAt_withProgram hd _ _).trans
      (Ready.hostCommand_parse_of_error (s := s.withProgram (.command (encode .decode) :: rest)) hr hl hp)
  have hdecode : stepAt ((s.withProgram (.command (encode .decode) :: rest)).failParse e.off e.zero) =
      .next ((s.withProgram rest).failParse e.off e.zero) :=
    stepAt_command_of_error (s := s.failParse e.off e.zero) hd rfl (by decide : errMalformedFrame ≠ errNone) _ rest
  rw [run_succ_of_next hexpand, run_succ_of_next hparse, run_one]
  exact hdecode

end

/-- Settles O10, by the list of the illegal words and the error that one of them raises. -/
theorem illegalWordSetsOnlyError : Obligations.IllegalWordSetsOnlyError :=
  ⟨fun _ => exists_decodeWord_eq_error_iff_listed, fun _ _ _ hw hr =>
    ⟨_, hr.hostCommand_of_illegal hw, rfl, rfl, rfl, ⟨rfl, rfl, rfl, rfl⟩, ⟨rfl, rfl⟩, ⟨rfl, rfl⟩,
      ⟨rfl, rfl, rfl, rfl, rfl, rfl, rfl⟩, ⟨rfl, rfl⟩, State.retire_unitsIdle _⟩⟩

/-- Settles O45: the writes of a `LOAD` that fits put the chunk into `IBUF`, and its length survives `ILEN` and `NARG`. -/
theorem loadPlacesChunk : Obligations.LoadPlacesChunk := by
  intro cfg bytes s hl hb
  obtain ⟨m, hload, hm⟩ := loadChunk_of_fits hb hl
  refine ⟨_, hload, cfg.toNat_len hl, cfg.toNat_narg hl, ?_, State.inBytes_eq fun i hi => ?_, fun i hi => ?_,
    ⟨rfl, rfl⟩, ⟨rfl, rfl⟩, ⟨rfl, rfl, rfl⟩, ⟨rfl, rfl, rfl, rfl, rfl, rfl⟩, ⟨rfl, rfl, rfl, rfl, rfl, rfl, rfl⟩, ⟨rfl, rfl⟩⟩
  · rw [State.effLen, cfg.toNat_len hl, cfg.toNat_narg hl, Nat.min_self]
  · rw [hm, if_pos hi]
  · rw [hm, if_neg (Nat.not_lt.mpr hi)]

/-- Settles O47: the step takes the pseudo-instruction, and the words of its lines are those of the opcode map. -/
theorem pseudoInstructionsExpand : Obligations.PseudoInstructionsExpand := fun _ rest hd =>
  ⟨stepAt_withProgram hd .compress rest, stepAt_withProgram hd .decompress rest,
    fun bytes => stepAt_withProgram hd (.load bytes) rest⟩

/-- Settles O48: a failed `PARSE` writes neither `OBUF` nor `OLEN`, and the offset it reports survives `ERR_OFF`. -/
theorem failedDecompressKeepsOutput : Obligations.FailedDecompressKeepsOutput := by
  intro s rest e hd hr hl hp
  refine ⟨_, run_decompress_of_parse_error hd hr hl hp rest, rfl, ⟨rfl, rfl⟩, rfl, ?_, rfl⟩
  have hlt : e.off < 0 + (s.inBytes s.effLen).length := (off_of_parse_error hp).2
  rw [State.length_inBytes, Nat.zero_add] at hlt
  exact Config.toNat_off (cfg := Config.hardware) (Nat.lt_of_lt_of_le hlt (State.effLen_le hl))

/-- Settles O49: with a command in flight the line is put back, so the completion is that of the state itself; without one the
read of the status is an answer. -/
theorem waitLineEndsNotBusy : Obligations.WaitLineEndsNotBusy := by
  intro s rest hd hp
  have hstep : step s =
      if s.busy then completeCommand ((s.withProgram rest).withProgram (.wait :: rest))
      else .next (hostReadStatus (s.withProgram rest)) := stepAt_of_event hd hp
  rw [State.withProgram_withProgram, State.withProgram_self hp] at hstep
  refine ⟨fun hb => hstep.trans (if_pos hb), fun hb => ?_⟩
  rw [hstep, if_neg (by simp [hb]), hostReadStatus_of_not_busy (s := s.withProgram rest) hb]
  rfl

end Sys2Proof.Machine

/-! ## Proofs of the family 40_encoder: the run scanner as a function on lists

SUPPORT for O20, O21 and O22. All three rest on one law: a run in front of bytes that cannot extend it is scanned first
(40_encoder.md R102 to R104). From it follows that a canonical list of runs is the encoding of its expansion, so an encoding is
recognised by being canonical and by what it expands to. -/

namespace Sys2Proof.Machine

section

variable {c : BitVec 8} {b : Byte} {r : Run} {xs ys : List Byte} {rs : List Run}

theorem wf_iff_count_pos : r.wf = true ↔ 0 < r.count.toNat := by
  rw [Run.wf, decide_eq_true_eq]
  bv_omega

/-! ### The first run -/

/-- An open run takes the bytes equal to its own, up to its limit or to a different byte (40_encoder.md R102, R103). -/
theorem rleFrom_replicate_append {k : Nat} (hk : c.toNat + k ≤ 255) (hend : c.toNat + k = 255 ∨ ys.head? ≠ some b) :
    rleFrom c b (List.replicate k b ++ ys) = { count := BitVec.ofNat 8 (c.toNat + k), byte := b } :: rleEncode ys := by
  induction k generalizing c with
  | zero =>
    rw [List.replicate_zero, List.nil_append, Nat.add_zero, BitVec.ofNat_toNat, BitVec.setWidth_eq]
    cases ys with
    | nil => rfl
    | cons y ys =>
      refine rleFrom_close ys fun ⟨hy, hc⟩ => ?_
      rcases hend with h | h
      · bv_omega
      · exact h (congrArg some hy)
  | succ k ih =>
    have hc : c < 255#8 := by bv_omega
    have hsum : (c + 1#8).toNat + k = c.toNat + (k + 1) := by rw [toNat_count_succ hc, Nat.succ_add_eq_add_succ]
    rw [List.replicate_succ, List.cons_append, rleFrom_extend _ ⟨rfl, hc⟩, ih (by rwa [hsum]) (by rwa [hsum]), hsum]

/-- A run in front of bytes that cannot extend it is scanned first, and the next run starts after it. -/
theorem rleEncode_replicate_append (hr : r.wf = true) (hend : r.count = 255#8 ∨ ys.head? ≠ some r.byte) :
    rleEncode (List.replicate r.count.toNat r.byte ++ ys) = r :: rleEncode ys := by
  obtain ⟨c, b⟩ := r
  obtain ⟨k, hk⟩ : ∃ k, c.toNat = 1 + k := Nat.exists_eq_add_of_le (wf_iff_count_pos.mp hr)
  have hlt := c.isLt
  have hfull : (1#8).toNat + k = 255 ∨ ys.head? ≠ some b :=
    hend.imp_left fun h : c = 255#8 => by rw [h] at hk; exact hk.symm
  rw [hk, Nat.add_comm, List.replicate_succ, List.cons_append, rleEncode_cons,
    rleFrom_replicate_append (show 1 + k ≤ 255 by omega) hfull, show (1#8).toNat + k = c.toNat from hk.symm,
    BitVec.ofNat_toNat, BitVec.setWidth_eq]

/-! ### Canonical lists of runs -/

/-- The next run could not have been part of this one: its byte differs, or this one is full. -/
def ClosedBy (r r' : Run) : Prop := r.byte ≠ r'.byte ∨ r.count = 255#8

/-- No run is empty, and none could have been longer (40_encoder.md R110, items 1 and 4). -/
def CanonicalRuns (rs : List Run) : Prop := (∀ r ∈ rs, r.wf = true) ∧ rs.IsChain ClosedBy

theorem CanonicalRuns.nil : CanonicalRuns [] := ⟨by simp, .nil⟩

theorem canonicalRuns_cons :
    CanonicalRuns (r :: rs) ↔ r.wf = true ∧ (∀ r' ∈ rs.head?, ClosedBy r r') ∧ CanonicalRuns rs := by
  simp only [CanonicalRuns, List.forall_mem_cons, List.isChain_cons]
  tauto

theorem canonicalRuns_append {rs' : List Run} :
    CanonicalRuns (rs ++ rs') ↔
      CanonicalRuns rs ∧ CanonicalRuns rs' ∧ ∀ r ∈ rs.getLast?, ∀ r' ∈ rs'.head?, ClosedBy r r' := by
  simp only [CanonicalRuns, List.forall_mem_append, List.isChain_append]
  tauto

/-- The first run of runs that are not empty gives the first byte of their expansion. -/
theorem head?_rleDecode (h : ∀ r ∈ rs, r.wf = true) : (rleDecode rs).head? = rs.head?.map Run.byte := by
  cases rs with
  | nil => rfl
  | cons r rs =>
    obtain ⟨k, hk⟩ := Nat.exists_eq_succ_of_ne_zero (wf_iff_count_pos.mp (h r (by simp))).ne'
    rw [rleDecode_cons, hk]
    rfl

/-- The last run of runs that are not empty gives the last byte of their expansion. -/
theorem getLast?_rleDecode (h : ∀ r ∈ rs, r.wf = true) : (rleDecode rs).getLast? = rs.getLast?.map Run.byte := by
  rcases List.eq_nil_or_concat rs with rfl | ⟨rs, r, rfl⟩
  · rfl
  · obtain ⟨k, hk⟩ := Nat.exists_eq_succ_of_ne_zero (wf_iff_count_pos.mp (h r (by simp))).ne'
    rw [List.concat_eq_append, rleDecode_append, rleDecode_cons, hk, List.replicate_succ']
    simp

/-- A canonical list of runs is the encoding of its expansion. -/
theorem CanonicalRuns.rleEncode_rleDecode (h : CanonicalRuns rs) : rleEncode (rleDecode rs) = rs := by
  induction rs with
  | nil => rfl
  | cons r rs ih =>
    obtain ⟨hr, hclosed, hrs⟩ := canonicalRuns_cons.mp h
    have hend : r.count = 255#8 ∨ (rleDecode rs).head? ≠ some r.byte := by
      rw [head?_rleDecode hrs.1]
      cases rs with
      | nil => exact .inr (by simp)
      | cons r' rs => exact (hclosed r' rfl).symm.imp_right fun hne heq => hne (Option.some.inj heq).symm
    rw [rleDecode_cons, rleEncode_replicate_append hr hend, ih hrs]

theorem rleDecode_rleEncode (xs : List Byte) : rleDecode (rleEncode xs) = xs := by
  cases xs with
  | nil => rfl
  | cons x xs => exact rleDecode_rleFrom 1#8 x xs

/-- The first run has the first byte. -/
theorem head?_of_mem_head?_rleEncode (h : r ∈ (rleEncode xs).head?) : xs.head? = some r.byte := by
  rw [← rleDecode_rleEncode xs, head?_rleDecode (rleEncode_counts xs), Option.mem_def.mp h, Option.map_some]

/-- The last run has the last byte. -/
theorem getLast?_of_mem_getLast?_rleEncode (h : r ∈ (rleEncode xs).getLast?) : xs.getLast? = some r.byte := by
  rw [← rleDecode_rleEncode xs, getLast?_rleDecode (rleEncode_counts xs), Option.mem_def.mp h, Option.map_some]

theorem isChain_rleFrom (c : BitVec 8) (b : Byte) (xs : List Byte) : (rleFrom c b xs).IsChain ClosedBy := by
  induction xs generalizing c b with
  | nil => exact .singleton _
  | cons x xs ih =>
    rw [rleFrom]
    split
    case isTrue => exact ih _ _
    case isFalse h =>
      refine List.isChain_cons.mpr ⟨fun r hr => ?_, ih _ _⟩
      obtain rfl : x = r.byte := Option.some.inj (head?_of_mem_head?_rleEncode (xs := x :: xs) hr)
      by_cases hx : r.byte = b
      · have hc : ¬ c < 255#8 := fun hc => h ⟨hx, hc⟩
        exact .inr (show c = 255#8 by bv_omega)
      · exact .inl (Ne.symm hx)

theorem canonicalRuns_rleEncode (xs : List Byte) : CanonicalRuns (rleEncode xs) := by
  refine ⟨rleEncode_counts xs, ?_⟩
  cases xs with
  | nil => exact .nil
  | cons x xs => exact isChain_rleFrom 1#8 x xs

/-- The encoding is the one canonical list of runs that expands to the bytes (40_encoder.md R110). -/
theorem eq_rleEncode_iff : rs = rleEncode xs ↔ CanonicalRuns rs ∧ rleDecode rs = xs := by
  constructor
  · rintro rfl
    exact ⟨canonicalRuns_rleEncode xs, rleDecode_rleEncode xs⟩
  · rintro ⟨h, rfl⟩
    exact h.rleEncode_rleDecode.symm

/-- The canonical form as 40_encoder.md R110 words it, by counts and by consecutive runs. -/
theorem canonicalRuns_iff :
    CanonicalRuns rs ↔ (∀ r ∈ rs, 1 ≤ r.count.toNat ∧ r.count.toNat ≤ 255) ∧
      ∀ (i : Nat) (r1 r2 : Run), rs[i]? = some r1 → rs[i + 1]? = some r2 → r1.byte ≠ r2.byte ∨ r1.count = 255#8 := by
  refine and_congr (forall₂_congr fun r _ => ?_) ?_
  · rw [wf_iff_count_pos]
    have := r.count.isLt
    omega
  · rw [List.isChain_iff_getElem]
    constructor
    · intro h i r1 r2 h1 h2
      obtain ⟨_, rfl⟩ := List.getElem?_eq_some_iff.mp h1
      obtain ⟨hi, rfl⟩ := List.getElem?_eq_some_iff.mp h2
      exact h i hi
    · intro h i hi
      exact h i _ _ (List.getElem?_eq_getElem _) (List.getElem?_eq_getElem hi)

/-! ### Encodings put together -/

/-- Two parts that meet in different bytes are encoded one after the other. -/
theorem rleEncode_append (h : ∀ x ∈ xs.getLast?, x ∉ ys.head?) : rleEncode (xs ++ ys) = rleEncode xs ++ rleEncode ys := by
  have hmeet : ∀ r ∈ (rleEncode xs).getLast?, ∀ r' ∈ (rleEncode ys).head?, ClosedBy r r' := by
    intro r hr r' hr'
    refine .inl fun heq => h r.byte (getLast?_of_mem_getLast?_rleEncode hr) ?_
    rw [heq]
    exact head?_of_mem_head?_rleEncode hr'
  have hcanonical := canonicalRuns_append.mpr ⟨canonicalRuns_rleEncode xs, canonicalRuns_rleEncode ys, hmeet⟩
  have hexpand : rleDecode (rleEncode xs ++ rleEncode ys) = xs ++ ys := by
    rw [rleDecode_append, rleDecode_rleEncode, rleDecode_rleEncode]
  exact (eq_rleEncode_iff.mpr ⟨hcanonical, hexpand⟩).symm

theorem rleDecode_replicate (n : Nat) (r : Run) :
    rleDecode (List.replicate n r) = List.replicate (n * r.count.toNat) r.byte := by
  induction n with
  | zero => simp
  | succ n ih => rw [List.replicate_succ, rleDecode_cons, ih, List.replicate_append_replicate, Nat.succ_mul, Nat.add_comm]

theorem rleDecode_segmentRuns (len : Nat) (b : Byte) : rleDecode (segmentRuns len b) = List.replicate len b := by
  have hrest : rleDecode (if len % 255 = 0 then [] else [{ count := BitVec.ofNat 8 (len % 255), byte := b }]) =
      List.replicate (len % 255) b := by
    split
    case isTrue h => rw [h]; rfl
    case isFalse =>
      rw [rleDecode_cons, rleDecode_nil, List.append_nil, BitVec.toNat_ofNat, Nat.mod_eq_of_lt (by omega)]
  rw [segmentRuns, rleDecode_append, rleDecode_replicate, hrest, List.replicate_append_replicate]
  exact congrArg (List.replicate · b) (Nat.div_add_mod' len 255)

theorem canonicalRuns_segmentRuns (len : Nat) (b : Byte) : CanonicalRuns (segmentRuns len b) := by
  refine canonicalRuns_append.mpr ⟨⟨fun r hr => ?_, List.isChain_replicate_of_rel _ (.inr rfl)⟩, ?_, fun r hr _ _ => .inr ?_⟩
  · rw [List.eq_of_mem_replicate hr]; rfl
  · split
    case isTrue => exact .nil
    case isFalse h =>
      refine canonicalRuns_cons.mpr ⟨wf_iff_count_pos.mpr ?_, by simp, .nil⟩
      rw [BitVec.toNat_ofNat]
      omega
  · rw [List.eq_of_mem_replicate (List.mem_of_mem_getLast? hr)]

/-- Equal bytes become full runs and the remainder (40_encoder.md R104). -/
theorem rleEncode_replicate (len : Nat) (b : Byte) : rleEncode (List.replicate len b) = segmentRuns len b :=
  (eq_rleEncode_iff.mpr ⟨canonicalRuns_segmentRuns len b, rleDecode_segmentRuns len b⟩).symm

/-- The bytes that a list starts with are equal as far as the first different one. -/
theorem take_eq_replicate {n : Nat} (hn : n ≤ (xs.takeWhile (· == b)).length) : xs.take n = List.replicate n b := by
  have htake : xs.take n = (xs.takeWhile (· == b)).take n := by
    conv_lhs => rw [← List.takeWhile_append_dropWhile (p := (· == b)) (l := xs)]
    exact List.take_append_of_le_length hn
  rw [htake]
  refine List.eq_replicate_iff.mpr ⟨List.length_take_of_le hn, fun x hx => ?_⟩
  exact eq_of_beq (List.mem_takeWhile_imp (p := (· == b)) (List.mem_of_mem_take hx))

/-- After them stands a different byte, or the list ends. -/
theorem head?_drop_takeWhile_ne : (xs.drop (xs.takeWhile (· == b)).length).head? ≠ some b := by
  have hdrop : xs.drop (xs.takeWhile (· == b)).length = xs.dropWhile (· == b) :=
    (congrArg _ List.takeWhile_append_dropWhile.symm).trans (List.drop_left' rfl)
  intro h
  have hne := List.head?_dropWhile_not (· == b) xs
  rw [← hdrop, h] at hne
  simp at hne

end

/-- Settles O22: the encoding is canonical and expands to its bytes, and a canonical list is the encoding of its expansion. -/
theorem encodeCanonicalForm : Obligations.EncodeCanonicalForm := by
  intro xs runs
  refine ⟨?_, runSum_rleEncode xs, rleEncode_length_le xs⟩
  rw [eq_rleEncode_iff, canonicalRuns_iff, and_assoc, and_comm (b := rleDecode runs = xs)]

/-- Settles O20: the leading bytes equal to the first one, at most 255 of them, are a run that the rest cannot extend. -/
theorem encodeScanEquation : Obligations.EncodeScanEquation := by
  refine ⟨rfl, fun b xs c hc => ?_⟩
  have hlead : ((b :: xs).takeWhile (· == b)).length = 1 + (xs.takeWhile (· == b)).length := by
    rw [List.takeWhile_cons_of_pos (p := (· == b)) (beq_self_eq_true b), List.length_cons, Nat.add_comm]
  have htake : (b :: xs).take c = List.replicate c b := take_eq_replicate (by omega)
  have hcount : (BitVec.ofNat 8 c).toNat = c := by rw [BitVec.toNat_ofNat]; omega
  have hend : BitVec.ofNat 8 c = 255#8 ∨ ((b :: xs).drop c).head? ≠ some b := by
    obtain rfl | rfl : c = 255 ∨ c = ((b :: xs).takeWhile (· == b)).length := by omega
    · exact .inl rfl
    · exact .inr head?_drop_takeWhile_ne
  calc rleEncode (b :: xs)
      = rleEncode (List.replicate (BitVec.ofNat 8 c).toNat b ++ (b :: xs).drop c) := by
        rw [hcount, ← htake, List.take_append_drop]
    _ = { count := BitVec.ofNat 8 c, byte := b } :: rleEncode ((b :: xs).drop c) :=
        rleEncode_replicate_append (r := ⟨_, b⟩) (wf_iff_count_pos.mpr (show 0 < (BitVec.ofNat 8 c).toNat by omega)) hend

/-- Settles O21: the segment differs from the parts it meets on both sides, so the three are encoded one after the other. -/
theorem encodeSegmentLaw : Obligations.EncodeSegmentLaw := by
  intro before after b len hlen hbefore hafter
  obtain ⟨len, rfl⟩ := Nat.exists_eq_add_of_le' hlen
  have hhead : (List.replicate (len + 1) b).head? = some b := by rw [List.replicate_succ, List.head?_cons]
  have hlast : (before ++ List.replicate (len + 1) b).getLast? = some b := by
    rw [List.replicate_succ', ← List.append_assoc, List.getLast?_concat]
  rw [rleEncode_append, rleEncode_append, rleEncode_replicate]
  · intro x hx hx'
    exact hbefore (Option.some.inj (hhead.symm.trans hx') ▸ hx)
  · intro x hx hx'
    exact hafter (Option.some.inj (hlast.symm.trans hx) ▸ hx')

end Sys2Proof.Machine

/-! ## Proofs of the family 40_encoder: the beats of the run scanner

SUPPORT for O24. In mid-command the runs written so far, the run that is open and the bytes not yet read make up the encoding of
the chunk (40_encoder.md R112). Each beat keeps this and brings the end one beat nearer. -/

namespace Sys2Proof.Machine

section

variable {cfg : Config}

/-! ### Beats that count down to a completion -/

/-- `P k` holds of the states in mid-command that `k` beats, and one more, separate from the result `r` of the command. -/
structure CountsDown (r : Result cfg) (P : Nat → State cfg → Prop) : Prop where
  busy : ∀ k s, P k s → s.busy = true
  complete : ∀ k s, P k s → completeCommand s = r
  next : ∀ k s, P (k + 1) s → ∃ t, blockBeat s = .next t ∧ P k t
  last : ∀ s, P 0 s → blockBeat s = r

theorem beats_one (s : State cfg) : beats 1 s = blockBeat s := by
  rw [beats]
  cases blockBeat s <;> rfl

/-- The beats end in the result, and completing the command after any number of them gives it too (10_state.md R44). -/
theorem CountsDown.beats_eq {r : Result cfg} {P : Nat → State cfg → Prop} (hP : CountsDown r P) {k : Nat} {s : State cfg}
    (h : P k s) :
    beats (k + 1) s = r ∧ ∀ j < k + 1, ∃ t, beats j s = .next t ∧ t.busy = true ∧ completeCommand t = r := by
  have hnow : ∃ t, beats 0 s = .next t ∧ t.busy = true ∧ completeCommand t = r :=
    ⟨s, rfl, hP.busy k s h, hP.complete k s h⟩
  induction k generalizing s with
  | zero => exact ⟨(beats_one s).trans (hP.last s h), fun j hj => by rwa [Nat.lt_one_iff.mp hj]⟩
  | succ k ih =>
    obtain ⟨t, hbeat, ht⟩ := hP.next k s h
    obtain ⟨hend, hmid⟩ := ih ht ⟨t, rfl, hP.busy k t ht, hP.complete k t ht⟩
    refine ⟨(beats_succ_of_next hbeat _).trans hend, fun j hj => ?_⟩
    cases j with
    | zero => exact hnow
    | succ j => rw [beats_succ_of_next hbeat]; exact hmid j (Nat.lt_of_succ_lt_succ hj)

/-! ### The scanner in mid-command -/

@[simp] theorem Memory.overwrite_nil {α : Type} (m : Memory α) : Memory.overwrite m [] = m := by
  simp [Memory.overwrite, Memory.cellsFrom]

/-- The runs that the scanner will still write when `rest` is left to read. -/
def Scanner.pending (u : Scanner cfg) (rest : List Byte) : List Run :=
  if u.cnt = 0#8 then rleEncode rest else rleFrom u.cnt u.byte rest

theorem Scanner.pending_of_closed {u : Scanner cfg} (hc : u.cnt = 0#8) (rest : List Byte) : u.pending rest = rleEncode rest :=
  if_pos hc

theorem Scanner.pending_of_open {u : Scanner cfg} (hc : u.cnt ≠ 0#8) (rest : List Byte) :
    u.pending rest = rleFrom u.cnt u.byte rest :=
  if_neg hc

/-- The bytes of the chunk that the scanner has not read. -/
def State.unread (s : State cfg) (u : Scanner cfg) : List Byte := (s.inBytes s.effLen).drop u.pos.toNat

/-- How many beats the scanner still takes: one for each byte, and one for each run, the last of them also for no run. -/
def State.scanBeats (s : State cfg) (u : Scanner cfg) : Nat := (s.unread u).length + max (u.pending (s.unread u)).length 1

/-- The state in the middle of the `ENCODE` that was issued in `s`, with the runs `done` written. -/
def State.scanning (s : State cfg) (done : List Run) (u : Scanner cfg) : State cfg :=
  { s.accept (.running .encode) with runbuf := Memory.overwrite s.runbuf done, scanner := u }

/-- The scanner stands in the chunk, and what is written and what is pending make up the encoding. -/
structure Scans (s : State cfg) (done : List Run) (u : Scanner cfg) : Prop where
  n_eq : u.n.toNat = s.effLen
  pos_le : u.pos.toNat ≤ s.effLen
  k_eq : u.k.toNat = done.length
  runs_eq : done ++ u.pending (s.unread u) = rleEncode (s.inBytes s.effLen)

section

variable {s : State cfg} {done : List Run} {u u' : Scanner cfg}

theorem State.drop_inBytes {i n : Nat} (hi : i < n) :
    (s.inBytes n).drop i = s.inByte i :: (s.inBytes n).drop (i + 1) := by
  rw [List.drop_eq_getElem?_toList_append, State.getElem?_inBytes s hi]
  rfl

theorem Scans.pos_lt_iff (h : Scans s done u) : u.pos < u.n ↔ u.pos.toNat < s.effLen := by
  rw [BitVec.lt_def, h.n_eq]

theorem Scans.length_le (h : Scans s done u) : done.length + (u.pending (s.unread u)).length ≤ s.effLen := by
  rw [← List.length_append, h.runs_eq]
  exact s.length_encoded_le

/-- Reading a byte keeps what is pending, when the byte goes into the open run. -/
theorem Scans.read (h : Scans s done u) (hp : u.pos.toNat < s.effLen) (hn : u'.n = u.n) (hk : u'.k = u.k)
    (hpos : u'.pos.toNat = u.pos.toNat + 1)
    (hpending : ∀ rest, u.pending (s.inByte u.pos.toNat :: rest) = u'.pending rest) :
    Scans s done u' ∧ s.scanBeats u = s.scanBeats u' + 1 := by
  have hunread : s.unread u = s.inByte u.pos.toNat :: s.unread u' := by
    rw [State.unread, State.unread, hpos, State.drop_inBytes hp]
  have hsame : u.pending (s.unread u) = u'.pending (s.unread u') := by rw [hunread, hpending]
  refine ⟨⟨by rw [hn, h.n_eq], by omega, by rw [hk, h.k_eq], by rw [← hsame, h.runs_eq]⟩, ?_⟩
  rw [State.scanBeats, State.scanBeats, hsame, hunread, List.length_cons, Nat.add_right_comm]

/-- The open run has a place in `RUNBUF`, after the runs that are written. -/
theorem Scans.storeRun (h : Scans s done u) (hcap : s.effLen ≤ cfg.chunk) (hm : Memory.wf s.runbuf) (hc : u.cnt ≠ 0#8) :
    u.k.toNat < cfg.runCap ∧ (u.k + 1#cfg.lenBits).toNat = (done ++ [u.run]).length ∧
      Memory.set (Memory.overwrite s.runbuf done) u.k.toNat u.run = Memory.overwrite s.runbuf (done ++ [u.run]) := by
  have hpending : 0 < (u.pending (s.unread u)).length := by
    rw [Scanner.pending_of_open hc]
    exact List.length_pos_iff.mpr (rleFrom_ne_nil _ _ _)
  have hlen := h.length_le
  have hk : u.k.toNat < cfg.chunk := by rw [h.k_eq]; omega
  refine ⟨hk, ?_, ?_⟩
  · rw [cfg.toNat_len_succ hk, h.k_eq, List.length_append, List.length_singleton]
  · rw [h.k_eq, Memory.set_overwrite hm]

/-- A beat while bytes are left, cases (1) to (3) of 40_encoder.md R112: the scan goes on, with one beat less to take. -/
theorem Scans.beat_of_lt (h : Scans s done u) (hcap : s.effLen ≤ cfg.chunk) (hm : Memory.wf s.runbuf)
    (hp : u.pos.toNat < s.effLen) :
    ∃ done' u', beatEncode (s.scanning done u) = .next (s.scanning done' u') ∧ Scans s done' u' ∧
      s.scanBeats u = s.scanBeats u' + 1 := by
  have hlt : u.pos.toNat < cfg.chunk := Nat.lt_of_lt_of_le hp hcap
  have hpos := cfg.toNat_len_succ hlt
  by_cases hc : u.cnt = 0#8
  · refine ⟨done, { u with byte := s.inByte u.pos.toNat, cnt := 1#8, pos := u.pos + 1#cfg.lenBits },
      beatEncode_eq_next.mpr (.inl ⟨h.pos_lt_iff.mpr hp, hlt, .inl ⟨hc, rfl⟩⟩), h.read hp rfl rfl hpos fun rest => ?_⟩
    exact Scanner.pending_of_closed hc _
  by_cases hv : s.inByte u.pos.toNat = u.byte ∧ u.cnt < 255#8
  · refine ⟨done, { u with cnt := u.cnt + 1#8, pos := u.pos + 1#cfg.lenBits },
      beatEncode_eq_next.mpr (.inl ⟨h.pos_lt_iff.mpr hp, hlt, .inr (.inl ⟨hc, hv, rfl⟩)⟩), h.read hp rfl rfl hpos fun rest => ?_⟩
    rw [Scanner.pending_of_open hc, rleFrom_extend rest hv, Scanner.pending_of_open (ne_zero_of_succ hv.2)]
  · obtain ⟨hk, hsucc, hstore⟩ := h.storeRun hcap hm hc
    have hpending : u.pending (s.unread u) = u.run :: rleEncode (s.unread u) := by
      rw [Scanner.pending_of_open hc, State.unread, State.drop_inBytes hp, rleFrom_close _ hv]
      rfl
    refine ⟨done ++ [u.run], { u with k := u.k + 1#cfg.lenBits, cnt := 0#8 },
      beatEncode_eq_next.mpr (.inl ⟨h.pos_lt_iff.mpr hp, hlt, .inr (.inr ⟨hc, hv, hk, ?_⟩)⟩),
      ⟨h.n_eq, h.pos_le, hsucc, ?_⟩, ?_⟩
    · rw [State.scanning, ← hstore]; rfl
    · rw [Scanner.pending_of_closed rfl, List.append_assoc, List.singleton_append, ← h.runs_eq, hpending]
      rfl
    · have hrest : 0 < (rleEncode (s.unread u)).length := by
        rw [State.unread, State.drop_inBytes hp]
        exact List.length_pos_iff.mpr (rleFrom_ne_nil _ _ _)
      show _ + max _ 1 = (s.unread u).length + max (rleEncode (s.unread u)).length 1 + 1
      rw [hpending, List.length_cons]
      omega

/-- The last beat, case (4) of 40_encoder.md R112: it leaves what `ENCODE` leaves, and no beat is left. -/
theorem Scans.beat_of_end (h : Scans s done u) (hcap : s.effLen ≤ cfg.chunk) (hm : Memory.wf s.runbuf)
    (hp : ¬ u.pos.toNat < s.effLen) : beatEncode (s.scanning done u) = .next s.encoded ∧ s.scanBeats u = 1 := by
  have hunread : s.unread u = [] := by
    rw [State.unread, List.drop_eq_nil_iff, State.length_inBytes]
    omega
  have hlen := s.length_encoded_le
  have hruns := h.runs_eq
  rw [hunread] at hruns
  by_cases hc : u.cnt = 0#8
  · rw [Scanner.pending_of_closed hc, rleEncode_nil, List.append_nil] at hruns
    refine ⟨beatEncode_eq_next.mpr (.inr ⟨h.pos_lt_iff.not.mpr hp, .inl ⟨hc, ?_⟩⟩), ?_⟩
    · have hcount : BitVec.ofNat cfg.lenBits done.length = u.k := by rw [← h.k_eq, BitVec.ofNat_toNat, BitVec.setWidth_eq]
      rw [State.encoded, ← hruns, hcount]
      rfl
    · rw [State.scanBeats, Scanner.pending_of_closed hc, hunread]
      rfl
  · rw [Scanner.pending_of_open hc, rleFrom_nil] at hruns
    obtain ⟨hk, hsucc, hstore⟩ := h.storeRun hcap hm hc
    refine ⟨beatEncode_eq_next.mpr (.inr ⟨h.pos_lt_iff.not.mpr hp, .inr ⟨hc, hk, ?_⟩⟩), ?_⟩
    · have hcount : BitVec.ofNat cfg.lenBits (done ++ [u.run]).length = u.k + 1#cfg.lenBits := by
        rw [← hsucc, BitVec.ofNat_toNat, BitVec.setWidth_eq]
      rw [State.encoded, ← hruns, ← Scanner.run, hcount, ← hstore]
      rfl
    · rw [State.scanBeats, Scanner.pending_of_open hc, hunread]
      rfl


/-- Completing the command in the middle writes over the runs of the scanner what they are the beginning of. -/
theorem Scans.encoded_scanning (h : Scans s done u) (hm : Memory.wf s.runbuf) : (s.scanning done u).encoded = s.encoded := by
  have hle : done.length ≤ (rleEncode (s.inBytes s.effLen)).length := by
    rw [← h.runs_eq, List.length_append]
    exact Nat.le_add_right _ _
  exact congrArg (fun m => ({ s.encoded with runbuf := m } : State cfg)) (Memory.overwrite_of_le hm hle)

/-- At issue nothing is written and nothing is read. -/
theorem State.accept_eq_scanning (s : State cfg) :
    s.accept (.running .encode) = s.scanning [] { n := BitVec.ofNat cfg.lenBits s.effLen } := by
  rw [State.scanning, Memory.overwrite_nil]
  rfl

theorem Scans.start (hcap : s.effLen ≤ cfg.chunk) : Scans s [] { n := BitVec.ofNat cfg.lenBits s.effLen } :=
  ⟨cfg.toNat_len hcap, Nat.zero_le _, rfl, rfl⟩

/-- The beats of the scanner count down to what `ENCODE` leaves. -/
theorem countsDown_scanning (hcap : s.effLen ≤ cfg.chunk) (hm : Memory.wf s.runbuf) :
    CountsDown (.next s.encoded) fun k t => ∃ done u, t = s.scanning done u ∧ Scans s done u ∧ s.scanBeats u = k + 1 where
  busy := by rintro k _ ⟨done, u, rfl, -, -⟩; rfl
  complete := by
    rintro k _ ⟨done, u, rfl, h, -⟩
    exact execEncode_eq_next.mpr ⟨hcap, (h.encoded_scanning hm).symm⟩
  next := by
    rintro k _ ⟨done, u, rfl, h, hk⟩
    by_cases hp : u.pos.toNat < s.effLen
    · obtain ⟨done', u', hbeat, h', hk'⟩ := h.beat_of_lt hcap hm hp
      exact ⟨_, hbeat, done', u', rfl, h', by omega⟩
    · have := (h.beat_of_end hcap hm hp).2
      omega
  last := by
    rintro _ ⟨done, u, rfl, h, hk⟩
    by_cases hp : u.pos.toNat < s.effLen
    · obtain ⟨_, u', -, -, hk'⟩ := h.beat_of_lt hcap hm hp
      have : 1 ≤ s.scanBeats u' := Nat.le_add_left_of_le (Nat.le_max_right _ _)
      omega
    · exact (h.beat_of_end hcap hm hp).1

end

end

/-- Settles O24: `n + max(runs, 1)` beats are left at issue, and each beat leaves one less. -/
theorem encodeBeatsReachCommandResult : Obligations.EncodeBeatsReachCommandResult := by
  intro s hl hm
  have hcap : s.effLen ≤ Config.hardware.chunk := State.effLen_le hl
  obtain ⟨k, hk⟩ : ∃ k, s.effLen + max (rleEncode (s.inBytes s.effLen)).length 1 = k + 1 :=
    Nat.exists_eq_succ_of_ne_zero (by omega)
  have hstart : s.scanBeats { n := BitVec.ofNat _ s.effLen } = k + 1 := by
    rw [← hk, State.scanBeats, Scanner.pending_of_closed rfl, State.unread]
    show ((s.inBytes s.effLen).drop 0).length + max (rleEncode ((s.inBytes s.effLen).drop 0)).length 1 = _
    rw [List.drop_zero, State.length_inBytes]
  have hexec : exec .encode s = .next s.encoded := execEncode_eq_next.mpr ⟨hcap, rfl⟩
  rw [hk, hexec]
  exact (countsDown_scanning hcap hm).beats_eq ⟨[], _, s.accept_eq_scanning, .start hcap, hstart⟩

end Sys2Proof.Machine

/-! ## Proofs of the family 40_encoder: what `ENCODE` and `PARSE` leave

SUPPORT for O19, O23 and O36. The runs, their number and the error after a command that reads the chunk are functions of the
bytes of the chunk (40_encoder.md R101, R107); on empty input every command computes the empty list (40_encoder.md R105). -/

namespace Sys2Proof.Machine

section

variable {cfg : Config} {s t : State cfg}

theorem State.rcount_encoded (h : s.effLen ≤ cfg.chunk) :
    s.encoded.rcount.toNat = (rleEncode (s.inBytes s.effLen)).length :=
  cfg.toNat_len (Nat.le_trans s.length_encoded_le h)

theorem State.validRuns_encoded (h : s.effLen ≤ cfg.chunk) : s.encoded.validRuns = rleEncode (s.inBytes s.effLen) :=
  State.validRuns_of_overwrite rfl (State.rcount_encoded h)

theorem State.validRuns_parsed (h : s.effLen ≤ cfg.chunk) {runs : List Run}
    (hp : framesParse (s.inBytes s.effLen) = .ok runs) : (s.parsed runs).validRuns = runs :=
  State.validRuns_of_overwrite rfl (cfg.toNat_len (State.length_parsed_le h hp))

/-- With no runs there are none to read. -/
theorem State.validRuns_of_rcount_zero (h : s.rcount = 0#cfg.lenBits) : s.validRuns = [] := by
  rw [State.validRuns, h]
  rfl

/-- The chunk is told by its length and its bytes. -/
theorem State.chunk_congr (hlen : s.effLen = t.effLen) (hbytes : ∀ k < s.effLen, s.inByte k = t.inByte k) :
    s.inBytes s.effLen = t.inBytes t.effLen := by
  rw [State.inBytes_congr hbytes, hlen]

/-- What the host and the next commands see of the runs and of the error. -/
def SameRunResult (s t : State cfg) : Prop := s.rcount = t.rcount ∧ s.validRuns = t.validRuns ∧ SameError s t

/-- `ENCODE` leaves the same runs on the same chunk. -/
theorem exists_execEncode_sameRunResult (hs : s.effLen ≤ cfg.chunk) (ht : t.effLen ≤ cfg.chunk) (he : SameError s t)
    (hchunk : s.inBytes s.effLen = t.inBytes t.effLen) :
    ∃ s' t', execEncode s = .next s' ∧ execEncode t = .next t' ∧ SameRunResult s' t' := by
  refine ⟨_, _, execEncode_eq_next.mpr ⟨hs, rfl⟩, execEncode_eq_next.mpr ⟨ht, rfl⟩, ?_, ?_, he⟩
  · exact congrArg (fun xs => BitVec.ofNat cfg.lenBits (rleEncode xs).length) hchunk
  · rw [State.validRuns_encoded hs, State.validRuns_encoded ht, hchunk]

/-- `PARSE` leaves the same runs, or the same failure, on the same chunk. -/
theorem exists_execParse_sameRunResult (hs : s.effLen ≤ cfg.chunk) (ht : t.effLen ≤ cfg.chunk) (he : SameError s t)
    (hchunk : s.inBytes s.effLen = t.inBytes t.effLen) :
    ∃ s' t', execParse s = .next s' ∧ execParse t = .next t' ∧ SameRunResult s' t' := by
  cases hp : framesParse (s.inBytes s.effLen) with
  | ok runs =>
    have hpt := hchunk ▸ hp
    refine ⟨_, _, execParse_eq_next.mpr ⟨hs, .inl ⟨runs, hp, rfl⟩⟩, execParse_eq_next.mpr ⟨ht, .inl ⟨runs, hpt, rfl⟩⟩,
      rfl, ?_, he⟩
    rw [State.validRuns_parsed hs hp, State.validRuns_parsed ht hpt]
  | error e =>
    refine ⟨_, _, execParse_eq_next.mpr ⟨hs, .inr ⟨e, hp, rfl⟩⟩, execParse_eq_next.mpr ⟨ht, .inr ⟨e, hchunk ▸ hp, rfl⟩⟩,
      rfl, ?_, ⟨rfl, rfl, rfl⟩⟩
    rw [State.validRuns_of_rcount_zero rfl, State.validRuns_of_rcount_zero rfl]

/-! ### Empty input -/

theorem State.inBytes_of_effLen_zero (h : s.effLen = 0) : s.inBytes s.effLen = [] := by rw [h]; rfl

/-- `ENCODE` of an empty chunk (40_encoder.md R105). -/
theorem execEncode_of_empty (h : s.effLen = 0) : execEncode s = .next { s with rcount := 0#cfg.lenBits }.retire := by
  refine execEncode_eq_next.mpr ⟨by omega, ?_⟩
  rw [State.encoded, State.inBytes_of_effLen_zero h, rleEncode_nil, Memory.overwrite_nil]
  rfl

/-- `DECODE` of no runs (41_decoder.md R135). -/
theorem execDecode_of_empty (h : s.rcount = 0#cfg.lenBits) : execDecode s = .next { s with olen := 0#cfg.olenBits }.retire := by
  have hruns := State.validRuns_of_rcount_zero h
  refine execDecode_eq_next.mpr ⟨by simp [h], by simp [hruns], ?_⟩
  rw [State.decoded, hruns, rleDecode_nil, Memory.overwrite_nil]
  rfl

/-- `SERIALIZE` of no runs (42_serializer.md R154). -/
theorem execSerialize_of_empty (h : s.rcount = 0#cfg.lenBits) :
    execSerialize s = .next { s with olen := 0#cfg.olenBits }.retire := by
  refine execSerialize_eq_next.mpr ⟨by simp [h], ?_⟩
  rw [State.serialized, State.validRuns_of_rcount_zero h, framesSerialize_nil, Memory.overwrite_nil]
  rfl

/-- `PARSE` of an empty chunk (43_parser.md R178). -/
theorem execParse_of_empty (h : s.effLen = 0) : execParse s = .next { s with rcount := 0#cfg.lenBits }.retire := by
  refine execParse_eq_next.mpr ⟨by omega, .inl ⟨[], ?_, ?_⟩⟩
  · rw [State.inBytes_of_effLen_zero h]
    exact framesParseFrom_nil 0
  · rw [State.parsed, Memory.overwrite_nil]
    rfl

end

/-- Settles O19: the state that `ENCODE` leaves differs from the one before it in `RUNBUF`, `RCOUNT` and the units alone. -/
theorem encodeWritesRunsOfChunk : Obligations.EncodeWritesRunsOfChunk := by
  refine ⟨by decide, by decide, fun s hl => ?_⟩
  have hcap : s.effLen ≤ Config.hardware.chunk := State.effLen_le hl
  have hexec : execAt .encode s = .next s.encoded := execEncode_eq_next.mpr ⟨hcap, rfl⟩
  obtain ⟨hinput, hhost, hanswer⟩ := execAt_frame hexec
  have hcount := State.rcount_encoded hcap
  refine ⟨_, hexec, hcount, State.validRuns_encoded hcap, hcount.trans_le s.length_encoded_le, fun k hk => ?_, hinput,
    execAt_out hexec (.inl rfl), execAt_error hexec (by decide), hhost, hanswer, State.retire_unitsIdle _⟩
  rw [hcount] at hk
  exact (Memory.get?_overwrite _ _ k).trans (if_neg (Nat.not_lt.mpr hk))

/-- Settles O23, by the command: each is a function of the chunk, and of the error before it when it raises none. -/
theorem chunkCommandsReadOnlyChunk : Obligations.ChunkCommandsReadOnlyChunk := by
  intro i s t hi hs ht he hlen hbytes
  have hchunk := State.chunk_congr hlen hbytes
  rcases hi with rfl | rfl
  · exact exists_execEncode_sameRunResult (State.effLen_le hs) (State.effLen_le ht) he hchunk
  · exact exists_execParse_sameRunResult (State.effLen_le hs) (State.effLen_le ht) he hchunk

/-- Settles O36, by the command: each writes the empty list. -/
theorem emptyInputGivesEmptyOutput : Obligations.EmptyInputGivesEmptyOutput :=
  ⟨rfl, fun _ => ⟨fun h => ⟨_, execEncode_of_empty h, rfl, rfl⟩, fun h => ⟨_, execDecode_of_empty h, rfl, rfl⟩,
    fun h => ⟨_, execSerialize_of_empty h, rfl, rfl⟩,
    fun h => ⟨_, _, execParse_of_empty h, rfl, rfl, ⟨rfl, rfl, rfl⟩, execDecode_of_empty rfl, rfl⟩⟩⟩

end Sys2Proof.Machine

/-! ## Proofs of the family 41_decoder: what `DECODE` leaves

SUPPORT for O25 and O26. The output of `DECODE` and its length are those of the runs it reads (41_decoder.md R130, R131). -/

namespace Sys2Proof.Machine

section

variable {cfg : Config} {s : State cfg} {rs : List Run}

/-- `DECODE` of runs that fit both buffers completes with their expansion. -/
theorem execDecode_of_validRuns (hruns : s.validRuns = rs) (hcap : rs.length ≤ cfg.runCap) (hsum : runSum rs ≤ cfg.obufCap) :
    execDecode s = .next s.decoded ∧ s.decoded.olen.toNat = runSum rs ∧ s.decoded.validOut = rleDecode rs := by
  subst hruns
  have hlen : s.decoded.olen.toNat = (rleDecode s.validRuns).length := cfg.toNat_olen (by rwa [length_rleDecode])
  rw [State.length_validRuns] at hcap
  exact ⟨execDecode_eq_next.mpr ⟨hcap, hsum, rfl⟩, by rw [hlen, length_rleDecode], State.validOut_of_overwrite rfl hlen⟩

/-- Runs with counts of at least 1 expand to at least one byte each. -/
theorem length_le_runSum (h : ∀ r ∈ rs, r.wf = true) : rs.length ≤ runSum rs := by
  induction rs with
  | nil => exact Nat.le_refl 0
  | cons r rs ih =>
    obtain ⟨hr, hrs⟩ := List.forall_mem_cons.mp h
    have hpos := wf_iff_count_pos.mp hr
    have hle := ih hrs
    rw [List.length_cons, runSum_cons]
    omega

/-- `ENCODE` and then `DECODE` write the bytes of the chunk to `OBUF` (41_decoder.md R137). -/
theorem execDecode_encoded (h : s.effLen ≤ cfg.chunk) :
    execDecode s.encoded = .next s.encoded.decoded ∧ s.encoded.decoded.olen.toNat = s.effLen ∧
      s.encoded.decoded.validOut = s.inBytes s.effLen := by
  have hsum : runSum (rleEncode (s.inBytes s.effLen)) = s.effLen := by rw [runSum_rleEncode, State.length_inBytes]
  have hdecode := execDecode_of_validRuns (State.validRuns_encoded h) (Nat.le_trans s.length_encoded_le h)
    (hsum.trans_le (Nat.le_trans h (Config.chunk_le_obufCap cfg)))
  rwa [hsum, rleDecode_rleEncode] at hdecode

/-- A chunk that parses has two bytes for each run (43_parser.md R172). -/
theorem State.effLen_of_parse (hp : framesParse (s.inBytes s.effLen) = .ok rs) : s.effLen = 2 * rs.length := by
  rw [← length_of_parse hp, State.length_inBytes]

/-- A successful `PARSE` and then `DECODE` write the expansion of the frames to `OBUF` (41_decoder.md R137). -/
theorem execDecode_parsed (h : s.effLen ≤ cfg.chunk) (hp : framesParse (s.inBytes s.effLen) = .ok rs) :
    execDecode (s.parsed rs) = .next (s.parsed rs).decoded ∧ (s.parsed rs).decoded.olen.toNat = runSum rs := by
  obtain ⟨hexec, holen, -⟩ := execDecode_of_validRuns (State.validRuns_parsed h hp) (State.length_parsed_le h hp)
    (runSum_le_obufCap (State.effLen_of_parse hp ▸ h))
  exact ⟨hexec, holen⟩

end

/-- Settles O25: the state that `DECODE` leaves differs from the one before it in `OBUF`, `OLEN` and the units alone. -/
theorem decodeWritesExpansion : Obligations.DecodeWritesExpansion := by
  refine ⟨by decide, by decide, fun s hcap hsum => ?_⟩
  obtain ⟨hexec, holen, hout⟩ := execDecode_of_validRuns rfl (by rwa [State.length_validRuns]) hsum
  have hexec : execAt .decode s = .next s.decoded := hexec
  obtain ⟨hinput, hhost, hanswer⟩ := execAt_frame hexec
  refine ⟨_, hexec, hout.trans List.flatMap_def, holen, fun i hi => ?_, hinput, execAt_runs hexec (.inl rfl),
    execAt_error hexec (by decide), hhost, hanswer, State.retire_unitsIdle _⟩
  rw [holen, ← length_rleDecode] at hi
  exact (Memory.get?_overwrite _ _ i).trans (if_neg (Nat.not_lt.mpr hi))

/-- Settles O26: `DECODE` reads the runs of the chunk, and each run of a parsed frame expands to 1 to 255 bytes. -/
theorem decodeInverseAndSizes : Obligations.DecodeInverseAndSizes := by
  refine ⟨rleDecode_rleEncode, fun s hl => ?_, fun s rs hl hp => ?_⟩
  · have hcap : s.effLen ≤ Config.hardware.chunk := State.effLen_le hl
    exact ⟨_, _, execEncode_eq_next.mpr ⟨hcap, rfl⟩, execDecode_encoded hcap⟩
  · have hcap : s.effLen ≤ Config.hardware.chunk := State.effLen_le hl
    obtain ⟨hexec, holen⟩ := execDecode_parsed hcap hp
    have hlen := State.effLen_of_parse hp
    have hlower := length_le_runSum (framesSerialize_of_parse hp).2
    have hupper := runSum_le rs
    have hle : s.effLen ≤ 512 := hcap
    exact ⟨_, _, execParse_eq_next.mpr ⟨hcap, .inl ⟨rs, hp, rfl⟩⟩, hexec, by omega, by omega, by omega⟩

end Sys2Proof.Machine

/-! ## Proofs of the family 41_decoder: the beats of the run expander

SUPPORT for O27. In mid-command the bytes written so far, the copies of the open run and the runs not yet loaded make up the
expansion of the runs (41_decoder.md R134). Each beat keeps this, and loads one run or writes one byte. -/

namespace Sys2Proof.Machine

section

variable {cfg : Config}

/-! ### The expander in mid-command -/

/-- The index of the first run that is not loaded yet. -/
def Expander.nextIdx (u : Expander cfg) : Nat := u.idx.toNat + if u.rem = 0#8 then 0 else 1

theorem Expander.nextIdx_of_closed {u : Expander cfg} (hr : u.rem = 0#8) : u.nextIdx = u.idx.toNat := by
  rw [Expander.nextIdx, if_pos hr, Nat.add_zero]

theorem Expander.nextIdx_of_open {u : Expander cfg} (hr : u.rem ≠ 0#8) : u.nextIdx = u.idx.toNat + 1 := by
  rw [Expander.nextIdx, if_neg hr]

/-- Emitting a copy loads no run. -/
theorem Expander.nextIdx_emitted {u : Expander cfg} (hr : u.rem ≠ 0#8) (hi : u.idx.toNat < cfg.chunk) :
    u.emitted.nextIdx = u.nextIdx := by
  rw [Expander.nextIdx_of_open hr]
  exact Expander.emitted_next hi

/-- What the expander holds after it loaded a run. -/
def Expander.loaded (u : Expander cfg) (r : Run) : Expander cfg := { u with rem := r.count }

/-- The runs that the expander has not loaded. -/
def State.unloaded (s : State cfg) (u : Expander cfg) : List Run := s.validRuns.drop u.nextIdx

/-- The bytes that the expander has not written. -/
def State.unwritten (s : State cfg) (u : Expander cfg) : List Byte :=
  List.replicate u.rem.toNat (s.runAt u.idx.toNat).byte ++ rleDecode (s.unloaded u)

/-- How many beats the expander still takes before its last: one for each run to load, and one for each byte to write. -/
def State.expandBeats (s : State cfg) (u : Expander cfg) : Nat := (s.unloaded u).length + (s.unwritten u).length

/-- The state in the middle of the `DECODE` that was issued in `s`, with the bytes `done` written. -/
def State.expanding (s : State cfg) (done : List Byte) (u : Expander cfg) : State cfg :=
  { s.accept (.running .decode) with obuf := Memory.overwrite s.obuf done, expander := u }

/-- The expander stands in the runs, and what is written and what is not make up the expansion (41_decoder.md R134). -/
structure Expands (s : State cfg) (done : List Byte) (u : Expander cfg) : Prop where
  next_le : u.nextIdx ≤ s.rcount.toNat
  opos_eq : u.opos.toNat = done.length
  bytes_eq : done ++ s.unwritten u = rleDecode s.validRuns

section

variable {s : State cfg} {done : List Byte} {u : Expander cfg}

theorem State.runAt_mem_validRuns {i : Nat} (hi : i < s.rcount.toNat) : s.runAt i ∈ s.validRuns :=
  List.mem_map_of_mem (List.mem_range.mpr hi)

/-- An open run has a copy to emit. -/
theorem State.unwritten_of_open (hr : u.rem ≠ 0#8) (hi : u.idx.toNat < cfg.chunk) :
    s.unwritten u = (s.runAt u.idx.toNat).byte :: s.unwritten u.emitted := by
  have hrem : u.rem.toNat = u.emitted.rem.toNat + 1 := by
    simp only [Expander.emitted]
    bv_omega
  have hcopies : List.replicate u.emitted.rem.toNat (s.runAt u.emitted.idx.toNat).byte =
      List.replicate u.emitted.rem.toNat (s.runAt u.idx.toNat).byte := by
    by_cases h1 : u.rem = 1#8
    · have h0 : u.emitted.rem.toNat = 0 := by rw [h1] at hrem; exact Nat.succ.inj hrem.symm
      rw [h0]; rfl
    · rw [show u.emitted.idx = u.idx from if_neg h1]
  rw [State.unwritten, State.unwritten, hcopies, State.unloaded, State.unloaded, Expander.nextIdx_emitted hr hi, hrem,
    List.replicate_succ, List.cons_append]

/-- Case (1) of 41_decoder.md R133: a run is loaded. -/
theorem Expands.load (h : Expands s done u) (hcap : s.rcount.toNat ≤ cfg.runCap) (hwf : ∀ r ∈ s.validRuns, r.wf = true)
    (hr : u.rem = 0#8) (hi : u.idx.toNat < s.rcount.toNat) :
    ∃ done' u', beatDecode (s.expanding done u) = .next (s.expanding done' u') ∧ Expands s done' u' ∧
      s.expandBeats u = s.expandBeats u' + 1 := by
  have hcount : (s.runAt u.idx.toNat).count ≠ 0#8 := of_decide_eq_true (hwf _ (State.runAt_mem_validRuns hi))
  have hnext : (u.loaded (s.runAt u.idx.toNat)).nextIdx = u.idx.toNat + 1 := Expander.nextIdx_of_open hcount
  have hruns : s.unloaded u = s.runAt u.idx.toNat :: s.unloaded (u.loaded (s.runAt u.idx.toNat)) := by
    rw [State.unloaded, State.unloaded, hnext, Expander.nextIdx_of_closed hr, State.drop_validRuns hi]
  have hbytes : s.unwritten u = s.unwritten (u.loaded (s.runAt u.idx.toNat)) := by
    rw [State.unwritten, State.unwritten, hruns, hr, rleDecode_cons]
    rfl
  refine ⟨done, u.loaded (s.runAt u.idx.toNat), beatDecode_eq_next.mpr (.inl ⟨hr, hi, Nat.lt_of_lt_of_le hi hcap, rfl⟩),
    ⟨hnext.trans_le hi, h.opos_eq, by rw [← hbytes, h.bytes_eq]⟩, ?_⟩
  rw [State.expandBeats, State.expandBeats, hbytes, hruns, List.length_cons, Nat.add_right_comm]

/-- Case (2) of 41_decoder.md R133: a copy is emitted, inside `OBUF`, after the bytes that are written. -/
theorem Expands.emit (h : Expands s done u) (hcap : s.rcount.toNat ≤ cfg.runCap) (hsum : runSum s.validRuns ≤ cfg.obufCap)
    (hm : Memory.wf s.obuf) (hr : u.rem ≠ 0#8) :
    ∃ done' u', beatDecode (s.expanding done u) = .next (s.expanding done' u') ∧ Expands s done' u' ∧
      s.expandBeats u = s.expandBeats u' + 1 := by
  have hi : u.idx.toNat < cfg.chunk := by
    have := h.next_le
    rw [Expander.nextIdx_of_open hr] at this
    exact Nat.lt_of_lt_of_le this hcap
  have hbytes := State.unwritten_of_open (s := s) hr hi
  have hnext := Expander.nextIdx_emitted hr hi
  have ho : u.opos.toNat < cfg.obufCap := by
    have hlen := congrArg List.length h.bytes_eq
    rw [hbytes, List.length_append, List.length_cons, length_rleDecode, ← h.opos_eq] at hlen
    omega
  have hstore : Memory.set (Memory.overwrite s.obuf done) u.opos.toNat (s.runAt u.idx.toNat).byte =
      Memory.overwrite s.obuf (done ++ [(s.runAt u.idx.toNat).byte]) := by
    rw [h.opos_eq, Memory.set_overwrite hm]
  refine ⟨done ++ [(s.runAt u.idx.toNat).byte], u.emitted,
    beatDecode_eq_next.mpr (.inr (.inl ⟨hr, hi, ho, ?_⟩)), ⟨hnext.trans_le h.next_le, ?_, ?_⟩, ?_⟩
  · rw [State.expanding, ← hstore]; rfl
  · rw [List.length_append, List.length_singleton, ← h.opos_eq]
    exact cfg.toNat_olen_succ ho
  · rw [List.append_assoc, List.singleton_append, ← hbytes, h.bytes_eq]
  · rw [State.expandBeats, State.expandBeats, hbytes, State.unloaded, State.unloaded, hnext, List.length_cons, Nat.add_assoc]

/-- Case (3) of 41_decoder.md R133: the last beat leaves what `DECODE` leaves, and nothing is left to load or write. -/
theorem Expands.finish (h : Expands s done u) (hr : u.rem = 0#8) (hi : ¬ u.idx.toNat < s.rcount.toNat) :
    beatDecode (s.expanding done u) = .next s.decoded ∧ s.expandBeats u = 0 := by
  have hruns : s.unloaded u = [] := by
    rw [State.unloaded, Expander.nextIdx_of_closed hr, List.drop_eq_nil_iff, State.length_validRuns]
    exact Nat.le_of_not_lt hi
  have hbytes : s.unwritten u = [] := by
    rw [State.unwritten, hruns, hr]
    rfl
  have hdone : done = rleDecode s.validRuns := by rw [← h.bytes_eq, hbytes, List.append_nil]
  have hlen : BitVec.ofNat cfg.olenBits done.length = u.opos := by rw [← h.opos_eq, BitVec.ofNat_toNat, BitVec.setWidth_eq]
  refine ⟨beatDecode_eq_next.mpr (.inr (.inr ⟨hr, hi, ?_⟩)), by rw [State.expandBeats, hruns, hbytes]; rfl⟩
  rw [State.decoded, ← hdone, hlen]
  rfl

/-- Completing the command in the middle writes over the bytes of the expander what they are the beginning of. -/
theorem Expands.decoded_expanding (h : Expands s done u) (hm : Memory.wf s.obuf) :
    (s.expanding done u).decoded = s.decoded := by
  have hle : done.length ≤ (rleDecode s.validRuns).length := by
    rw [← h.bytes_eq, List.length_append]
    exact Nat.le_add_right _ _
  exact congrArg (fun m => ({ s.decoded with obuf := m } : State cfg)) (Memory.overwrite_of_le hm hle)

/-- At issue nothing is loaded and nothing is written. -/
theorem State.accept_eq_expanding (s : State cfg) : s.accept (.running .decode) = s.expanding [] {} := by
  rw [State.expanding, Memory.overwrite_nil]
  rfl

/-- Every beat before the last moves the expander on, and with none of them left the next beat is the last. -/
theorem Expands.beat_cases (h : Expands s done u) (hcap : s.rcount.toNat ≤ cfg.runCap)
    (hsum : runSum s.validRuns ≤ cfg.obufCap) (hwf : ∀ r ∈ s.validRuns, r.wf = true) (hm : Memory.wf s.obuf) :
    (∃ done' u', beatDecode (s.expanding done u) = .next (s.expanding done' u') ∧ Expands s done' u' ∧
      s.expandBeats u = s.expandBeats u' + 1) ∨
    (beatDecode (s.expanding done u) = .next s.decoded ∧ s.expandBeats u = 0) := by
  by_cases hr : u.rem = 0#8
  · by_cases hi : u.idx.toNat < s.rcount.toNat
    · exact .inl (h.load hcap hwf hr hi)
    · exact .inr (h.finish hr hi)
  · exact .inl (h.emit hcap hsum hm hr)

theorem Expands.start (s : State cfg) : Expands s [] {} := ⟨Nat.zero_le _, rfl, rfl⟩

/-- The beats of the expander count down to what `DECODE` leaves. -/
theorem countsDown_expanding (hcap : s.rcount.toNat ≤ cfg.runCap) (hsum : runSum s.validRuns ≤ cfg.obufCap)
    (hwf : ∀ r ∈ s.validRuns, r.wf = true) (hm : Memory.wf s.obuf) :
    CountsDown (.next s.decoded) fun k t => ∃ done u, t = s.expanding done u ∧ Expands s done u ∧ s.expandBeats u = k where
  busy := by rintro k _ ⟨done, u, rfl, -, -⟩; rfl
  complete := by
    rintro k _ ⟨done, u, rfl, h, -⟩
    exact execDecode_eq_next.mpr ⟨hcap, hsum, (h.decoded_expanding hm).symm⟩
  next := by
    rintro k _ ⟨done, u, rfl, h, hk⟩
    obtain ⟨done', u', hbeat, h', hk'⟩ | ⟨-, hk'⟩ := h.beat_cases hcap hsum hwf hm
    · exact ⟨_, hbeat, done', u', rfl, h', by omega⟩
    · omega
  last := by
    rintro _ ⟨done, u, rfl, h, hk⟩
    obtain ⟨_, _, -, -, hk'⟩ | ⟨hbeat, -⟩ := h.beat_cases hcap hsum hwf hm
    · omega
    · exact hbeat

end

end

/-- Settles O27: `RCOUNT` runs to load and `sum(counts)` bytes to write are left at issue, and each beat leaves one less. -/
theorem decodeBeatsReachCommandResult : Obligations.DecodeBeatsReachCommandResult := by
  intro s hcap hsum hwf hm
  have hstart : s.expandBeats {} = s.rcount.toNat + runSum s.validRuns := by
    rw [← s.length_validRuns, ← length_rleDecode]
    rfl
  have hexec : exec .decode s = .next s.decoded := execDecode_eq_next.mpr ⟨hcap, hsum, rfl⟩
  rw [hexec]
  exact (countsDown_expanding hcap hsum hwf hm).beats_eq ⟨[], {}, s.accept_eq_expanding, .start s, hstart⟩

end Sys2Proof.Machine

/-! ## Proofs of the family 42_serializer: what `SERIALIZE` leaves

SUPPORT for O28 and O29. The frame of run `k` is its count at `2k` and its byte at `2k+1` (42_serializer.md R151). -/

namespace Sys2Proof.Machine

section

variable {cfg : Config} {s : State cfg}

/-- The count of run `k` stands at `2k` (42_serializer.md R151). -/
theorem getElem?_framesSerialize_count (rs : List Run) (k : Nat) :
    (framesSerialize rs)[2 * k]? = rs[k]?.map Run.count := by
  induction rs generalizing k with
  | nil => rfl
  | cons r rs ih =>
    cases k with
    | zero => rfl
    | succ k => exact ih k

/-- The byte of run `k` stands at `2k+1` (42_serializer.md R151). -/
theorem getElem?_framesSerialize_byte (rs : List Run) (k : Nat) :
    (framesSerialize rs)[2 * k + 1]? = rs[k]?.map Run.byte := by
  induction rs generalizing k with
  | nil => rfl
  | cons r rs ih =>
    cases k with
    | zero => rfl
    | succ k => exact ih k

/-- The bytes that `SERIALIZE` writes. -/
def State.frames (s : State cfg) : List Byte := framesSerialize s.validRuns

theorem State.length_frames (s : State cfg) : s.frames.length = 2 * s.rcount.toNat := by
  rw [State.frames, length_framesSerialize, State.length_validRuns]

theorem State.getElem?_frames_count {k : Nat} (hk : k < s.rcount.toNat) :
    s.frames[2 * k]? = some (s.runAt k).count := by
  rw [State.frames, getElem?_framesSerialize_count, State.validRuns, State.getElem?_runs s hk, Option.map_some]

theorem State.getElem?_frames_byte {k : Nat} (hk : k < s.rcount.toNat) :
    s.frames[2 * k + 1]? = some (s.runAt k).byte := by
  rw [State.frames, getElem?_framesSerialize_byte, State.validRuns, State.getElem?_runs s hk, Option.map_some]

/-- A byte of a result that was written is read where it was written. -/
theorem State.outByte_of_overwrite {m : Memory Byte} {out : List Byte} (hb : s.obuf = Memory.overwrite m out) {i : Nat}
    {v : Byte} (hv : out[i]? = some v) : s.outByte i = v := by
  obtain ⟨hi, -⟩ := List.getElem?_eq_some_iff.mp hv
  exact State.outByte_of_get? (by rw [hb, Memory.get?_overwrite, if_pos hi, hv])

theorem State.olen_serialized (h : s.rcount.toNat ≤ cfg.runCap) : s.serialized.olen.toNat = 2 * s.rcount.toNat :=
  (cfg.toNat_olen (State.length_serialized_le h)).trans s.length_frames

end

/-- Settles O28: the state that `SERIALIZE` leaves differs from the one before it in `OBUF`, `OLEN` and the units alone. -/
theorem serializeWritesFrames : Obligations.SerializeWritesFrames := by
  refine ⟨by decide, by decide, fun s hcap => ?_⟩
  have hexec : execAt .serialize s = .next s.serialized := execSerialize_eq_next.mpr ⟨hcap, rfl⟩
  have holen := State.olen_serialized hcap
  have hout : s.serialized.validOut = s.frames := State.validOut_of_overwrite rfl (holen.trans s.length_frames.symm)
  obtain ⟨hinput, hhost, hanswer⟩ := execAt_frame hexec
  refine ⟨_, hexec, holen, hout.trans List.flatMap_def, fun k hk => ⟨?_, ?_⟩, fun i hi => ?_, hinput,
    execAt_runs hexec (.inr rfl), execAt_error hexec (by decide), hhost, hanswer, State.retire_unitsIdle _⟩
  · exact State.outByte_of_overwrite rfl (State.getElem?_frames_count hk)
  · exact State.outByte_of_overwrite rfl (State.getElem?_frames_byte hk)
  · rw [holen, ← s.length_frames] at hi
    exact (Memory.get?_overwrite _ _ i).trans (if_neg (Nat.not_lt.mpr hi))

/-- Settles O29: a count of at least 1 makes its frame parse, whatever follows it. -/
theorem frameInverseLaw : Obligations.FrameInverseLaw := fun _ hcounts =>
  framesParseFrom_framesSerialize 0 fun r hr => wf_iff_count_pos.mpr (hcounts r hr).1

end Sys2Proof.Machine

/-! ## Proofs of the family 42_serializer: the beats of the frame serializer

SUPPORT for O30. In mid-command the first `2 * SR_IDX + SR_HALF` bytes of the frames are written (42_serializer.md R152). Each
beat before the last writes the next byte. -/

namespace Sys2Proof.Machine

/-- Writing a result entry by entry: the entry at `i` goes after the first `i` entries. -/
theorem Memory.set_overwrite_take {α : Type} {m : Memory α} (hm : Memory.wf m) {vs : List α} {i : Nat} {v : α}
    (hv : vs[i]? = some v) :
    Memory.set (Memory.overwrite m (vs.take i)) i v = Memory.overwrite m (vs.take (i + 1)) := by
  obtain ⟨hi, -⟩ := List.getElem?_eq_some_iff.mp hv
  have hset := Memory.set_overwrite hm (vs.take i) v
  rwa [List.length_take_of_le (Nat.le_of_lt hi), ← Option.toList_some, ← hv, ← List.take_add_one] at hset

section

variable {cfg : Config}

/-! ### The serializer in mid-command -/

/-- How many bytes the serializer has written. -/
def Serializer.written (u : Serializer cfg) : Nat := 2 * u.idx.toNat + u.half.toNat

theorem Serializer.written_of_count {u : Serializer cfg} (h : u.half = false) : u.written = 2 * u.idx.toNat := by
  rw [Serializer.written, h]; rfl

theorem Serializer.written_of_byte {u : Serializer cfg} (h : u.half = true) : u.written = 2 * u.idx.toNat + 1 := by
  rw [Serializer.written, h]; rfl

/-- The state in the middle of the `SERIALIZE` that was issued in `s`. -/
def State.serializing (s : State cfg) (u : Serializer cfg) : State cfg :=
  { s.accept (.running .serialize) with obuf := Memory.overwrite s.obuf (s.frames.take u.written), serializer := u }

section

variable {s : State cfg} {u u' : Serializer cfg}

/-- At issue nothing is written. -/
theorem State.accept_eq_serializing (s : State cfg) : s.accept (.running .serialize) = s.serializing {} := by
  rw [State.serializing, show ({} : Serializer cfg).written = 0 from rfl, List.take_zero, Memory.overwrite_nil]
  rfl

/-- Storing the next byte of the frames moves the serializer on by one byte. -/
theorem State.serializing_store (hm : Memory.wf s.obuf) {v : Byte} (hv : s.frames[u.written]? = some v)
    (hnext : u'.written = u.written + 1) :
    { s.serializing u with obuf := Memory.set (s.serializing u).obuf u.written v, serializer := u' } = s.serializing u' := by
  rw [State.serializing, State.serializing, hnext, ← Memory.set_overwrite_take hm hv]

/-- Cases (1) and (2) of 42_serializer.md R152: while bytes are left, a beat writes the next one, inside `OBUF`. -/
theorem State.serializing_beat_of_lt (hcap : s.rcount.toNat ≤ cfg.runCap) (hm : Memory.wf s.obuf)
    (hu : u.written < 2 * s.rcount.toNat) :
    ∃ u', beatSerialize (s.serializing u) = .next (s.serializing u') ∧ u'.written = u.written + 1 := by
  have hfits : u.written < cfg.obufCap :=
    Nat.lt_of_lt_of_le (s.length_frames ▸ hu) (State.length_serialized_le hcap)
  cases hhalf : u.half with
  | false =>
    have hw := Serializer.written_of_count hhalf
    have hi : u.idx.toNat < s.rcount.toNat := by omega
    have hnext : ({ u with half := true } : Serializer cfg).written = u.written + 1 := by
      rw [hw]; exact Serializer.written_of_byte rfl
    have hstore := State.serializing_store hm (hw ▸ State.getElem?_frames_count hi) hnext
    rw [hw] at hfits hstore
    exact ⟨_, beatSerialize_eq_next.mpr
      (.inl ⟨hi, Nat.lt_of_lt_of_le hi hcap, .inl ⟨hhalf, hfits, hstore.symm⟩⟩), hnext⟩
  | true =>
    have hw := Serializer.written_of_byte hhalf
    have hi : u.idx.toNat < s.rcount.toNat := by omega
    have hnext : ({ idx := u.idx + 1#cfg.lenBits, half := false } : Serializer cfg).written = u.written + 1 := by
      rw [hw, Serializer.written_of_count rfl, cfg.toNat_len_succ (Nat.lt_of_lt_of_le hi hcap)]
      rfl
    have hstore := State.serializing_store hm (hw ▸ State.getElem?_frames_byte hi) hnext
    rw [hw] at hfits hstore
    exact ⟨_, beatSerialize_eq_next.mpr
      (.inl ⟨hi, Nat.lt_of_lt_of_le hi hcap, .inr ⟨hhalf, hfits, hstore.symm⟩⟩), hnext⟩

/-- Case (3) of 42_serializer.md R152: with all bytes written, a beat leaves what `SERIALIZE` leaves. -/
theorem State.serializing_beat_of_end (hu : u.written = 2 * s.rcount.toNat) :
    beatSerialize (s.serializing u) = .next s.serialized := by
  have hi : ¬ u.idx.toNat < s.rcount.toNat := by
    have := u.half.toNat_le
    rw [Serializer.written] at hu
    omega
  refine beatSerialize_eq_next.mpr (.inr ⟨hi, ?_⟩)
  rw [State.serialized, ← State.frames, s.length_frames, State.serializing, hu, List.take_of_length_le s.length_frames.le]
  rfl

/-- Completing the command in the middle writes all bytes over those that are written. -/
theorem State.serialized_serializing (hm : Memory.wf s.obuf) : (s.serializing u).serialized = s.serialized :=
  congrArg (fun m => ({ s.serialized with obuf := m } : State cfg))
    (Memory.overwrite_of_le hm (List.length_take_le' u.written s.frames))

/-- The beats of the serializer count down to what `SERIALIZE` leaves. -/
theorem countsDown_serializing (hcap : s.rcount.toNat ≤ cfg.runCap) (hm : Memory.wf s.obuf) :
    CountsDown (.next s.serialized) fun k t => ∃ u, t = s.serializing u ∧ u.written + k = 2 * s.rcount.toNat where
  busy := by rintro k _ ⟨u, rfl, -⟩; rfl
  complete := by
    rintro k _ ⟨u, rfl, -⟩
    exact execSerialize_eq_next.mpr ⟨hcap, (State.serialized_serializing hm).symm⟩
  next := by
    rintro k _ ⟨u, rfl, hu⟩
    obtain ⟨u', hbeat, hu'⟩ := State.serializing_beat_of_lt hcap hm (u := u) (by omega)
    exact ⟨_, hbeat, u', rfl, by omega⟩
  last := by
    rintro _ ⟨u, rfl, hu⟩
    exact State.serializing_beat_of_end hu

end

end

/-- Settles O30: `2 * RCOUNT` bytes are left to write at issue, each beat writes one, and one more beat completes. -/
theorem serializeBeatsReachCommandResult : Obligations.SerializeBeatsReachCommandResult := by
  intro s hcap hm
  have hexec : exec .serialize s = .next s.serialized := execSerialize_eq_next.mpr ⟨hcap, rfl⟩
  rw [hexec]
  exact (countsDown_serializing hcap hm).beats_eq ⟨{}, s.accept_eq_serializing, Nat.zero_add _⟩

end Sys2Proof.Machine

/-! ## Proofs of the family 43_parser: the beats of the frame deserializer

SUPPORT for O35. In mid-command the runs written so far and what the rest of the chunk parses to, from the frame that is being
read, make up the parse of the chunk (43_parser.md R176). Each beat before the last reads one byte. -/

namespace Sys2Proof.Machine

section

variable {cfg : Config}

/-- A complete frame with a count is one run in front of what the rest parses to. -/
theorem framesParseFrom_frame_eq_map (off : Nat) {c : Byte} (hc : c ≠ 0#8) (b : Byte) (xs : List Byte) :
    framesParseFrom off (c :: b :: xs) = (framesParseFrom (off + 2) xs).map ({ count := c, byte := b } :: ·) := by
  rw [framesParseFrom_frame off hc]
  cases framesParseFrom (off + 2) xs <;> rfl

/-- Putting runs in front of the runs of a parse, one after the other. -/
theorem map_append_map_cons (r : Except FrameError (List Run)) (done : List Run) (x : Run) :
    (r.map (x :: ·)).map (done ++ ·) = r.map (done ++ [x] ++ ·) := by
  cases r with
  | ok runs => exact congrArg Except.ok (List.append_cons done x runs)
  | error e => rfl

section

variable {s : State cfg}

theorem execParse_of_ok (h : s.effLen ≤ cfg.chunk) {runs : List Run} (hp : framesParse (s.inBytes s.effLen) = .ok runs) :
    execParse s = .next (s.parsed runs) :=
  execParse_eq_next.mpr ⟨h, .inl ⟨runs, hp, rfl⟩⟩

theorem execParse_of_error (h : s.effLen ≤ cfg.chunk) {e : FrameError} (hp : framesParse (s.inBytes s.effLen) = .error e) :
    execParse s = .next (s.failParse e.off e.zero) :=
  execParse_eq_next.mpr ⟨h, .inr ⟨e, hp, rfl⟩⟩

end

/-! ### The deserializer in mid-command -/

/-- The position at which the deserializer takes its last beat: the end of the chunk, or one past the count byte of the failing
frame. -/
def State.parseEnd (s : State cfg) : Nat :=
  match framesParse (s.inBytes s.effLen) with
  | .ok _ => s.effLen
  | .error e => e.off + 1

theorem State.parseEnd_of_ok {s : State cfg} {runs : List Run} (hp : framesParse (s.inBytes s.effLen) = .ok runs) :
    s.parseEnd = s.effLen := by
  rw [State.parseEnd, hp]

theorem State.parseEnd_of_error {s : State cfg} {e : FrameError} (hp : framesParse (s.inBytes s.effLen) = .error e) :
    s.parseEnd = e.off + 1 := by
  rw [State.parseEnd, hp]

/-- The bytes of the chunk after the frames of the runs `done`. -/
def State.unparsed (s : State cfg) (done : List Run) : List Byte := (s.inBytes s.effLen).drop (2 * done.length)

/-- The state in the middle of the `PARSE` that was issued in `s`, with the runs `done` written. -/
def State.parsing (s : State cfg) (done : List Run) (u : Deserializer cfg) : State cfg :=
  { s.accept (.running .parse) with runbuf := Memory.overwrite s.runbuf done, deserializer := u }

/-- The run of the frame whose paired byte is read next. -/
def State.frameRun (s : State cfg) (u : Deserializer cfg) : Run := { count := u.cnt, byte := s.inByte u.pos.toNat }

/-- The deserializer stands in the frame after those of the runs that are written, with the count byte held once it is read,
and these runs stand in front of what the rest parses to. -/
structure Parses (s : State cfg) (done : List Run) (u : Deserializer cfg) : Prop where
  n_eq : u.n.toNat = s.effLen
  pos_le : u.pos.toNat ≤ s.effLen
  k_eq : u.k.toNat = done.length
  pos_eq : u.pos.toNat = 2 * done.length + u.half.toNat
  cnt_eq : u.half = true → u.cnt = s.inByte (2 * done.length)
  parse_eq : framesParse (s.inBytes s.effLen) =
    (framesParseFrom (2 * done.length) (s.unparsed done)).map (done ++ ·)

section

variable {s : State cfg} {done : List Run} {u : Deserializer cfg}

theorem Parses.pos_lt_iff (h : Parses s done u) : u.pos < u.n ↔ u.pos.toNat < s.effLen := by
  rw [BitVec.lt_def, h.n_eq]

theorem Parses.pos_of_count (h : Parses s done u) (hh : u.half = false) : u.pos.toNat = 2 * done.length := by
  rw [h.pos_eq, hh]; rfl

theorem Parses.pos_of_pair (h : Parses s done u) (hh : u.half = true) : u.pos.toNat = 2 * done.length + 1 := by
  rw [h.pos_eq, hh]; rfl

/-- In the middle of a frame its held count byte is the first byte that is not parsed. -/
theorem Parses.unparsed_of_pair (h : Parses s done u) (hh : u.half = true) :
    s.unparsed done = u.cnt :: (s.inBytes s.effLen).drop u.pos.toNat := by
  have hpos := h.pos_of_pair hh
  have hle := h.pos_le
  rw [State.unparsed, State.drop_inBytes (by omega), h.cnt_eq hh, hpos]

/-- The deserializer never passes the position of its last beat. -/
theorem Parses.pos_le_parseEnd (h : Parses s done u) : u.pos.toNat ≤ s.parseEnd := by
  cases hp : framesParseFrom (2 * done.length) (s.unparsed done) with
  | ok runs =>
    rw [State.parseEnd_of_ok (by rw [h.parse_eq, hp]; rfl)]
    exact h.pos_le
  | error e =>
    have hoff := (off_of_parse_error hp).1
    have hhalf := u.half.toNat_le
    rw [State.parseEnd_of_error (by rw [h.parse_eq, hp]; rfl), h.pos_eq]
    omega

/-- Case (1) of 43_parser.md R176: the count byte is read and held. -/
theorem Parses.count (h : Parses s done u) (hcap : s.effLen ≤ cfg.chunk) (hp : u.pos.toNat < s.effLen)
    (hh : u.half = false) :
    ∃ done' u', beatParse (s.parsing done u) = .next (s.parsing done' u') ∧ Parses s done' u' ∧
      u'.pos.toNat = u.pos.toNat + 1 := by
  have hlt : u.pos.toNat < cfg.chunk := Nat.lt_of_lt_of_le hp hcap
  have hpos := cfg.toNat_len_succ hlt
  have hcount := h.pos_of_count hh
  refine ⟨done, { u with cnt := s.inByte u.pos.toNat, pos := u.pos + 1#cfg.lenBits, half := true },
    beatParse_eq_next.mpr (.inl ⟨h.pos_lt_iff.mpr hp, hlt, .inl ⟨hh, rfl⟩⟩),
    ⟨h.n_eq, hpos.trans_le hp, h.k_eq, ?_, fun _ => congrArg s.inByte hcount, h.parse_eq⟩, hpos⟩
  rw [hpos, hcount]
  rfl

/-- Case (2) of 43_parser.md R176 with a count that is not 0: the run of the frame is written after those that are. -/
theorem Parses.pair (h : Parses s done u) (hcap : s.effLen ≤ cfg.chunk) (hm : Memory.wf s.runbuf)
    (hp : u.pos.toNat < s.effLen) (hh : u.half = true) (hc : u.cnt ≠ 0#8) :
    ∃ done' u', beatParse (s.parsing done u) = .next (s.parsing done' u') ∧ Parses s done' u' ∧
      u'.pos.toNat = u.pos.toNat + 1 := by
  have hlt : u.pos.toNat < cfg.chunk := Nat.lt_of_lt_of_le hp hcap
  have hpos := cfg.toNat_len_succ hlt
  have hpair := h.pos_of_pair hh
  have hk : u.k.toNat < cfg.chunk := by rw [h.k_eq]; omega
  have hlen : (done ++ [s.frameRun u]).length = done.length + 1 := List.length_append
  have hnext : u.pos.toNat + 1 = 2 * (done ++ [s.frameRun u]).length := by rw [hpair, hlen]; rfl
  have hunparsed : s.unparsed done = u.cnt :: s.inByte u.pos.toNat :: s.unparsed (done ++ [s.frameRun u]) := by
    rw [h.unparsed_of_pair hh, State.drop_inBytes hp, hnext]
    rfl
  refine ⟨done ++ [s.frameRun u],
    { u with k := u.k + 1#cfg.lenBits, pos := u.pos + 1#cfg.lenBits, half := false },
    beatParse_eq_next.mpr (.inl ⟨h.pos_lt_iff.mpr hp, hlt, .inr (.inr ⟨hh, hc, hk, ?_⟩)⟩),
    ⟨h.n_eq, hpos.trans_le hp, ?_, hpos.trans hnext, fun hf => by simp at hf, ?_⟩, hpos⟩
  · rw [State.parsing, ← Memory.set_overwrite hm, ← h.k_eq]; rfl
  · rw [cfg.toNat_len_succ hk, h.k_eq, hlen]
  · rw [h.parse_eq, hunparsed, framesParseFrom_frame_eq_map _ hc, hlen]
    exact map_append_map_cons _ done (s.frameRun u)

/-- When the frame that is being read fails, the beat leaves what `PARSE` leaves. -/
theorem Parses.fail (h : Parses s done u) (hcap : s.effLen ≤ cfg.chunk) (hh : u.half = true) {zero : Bool}
    (hbeat : beatParse (s.parsing done u) = .next (s.failParse (u.pos.toNat - 1) zero))
    (hfail : framesParseFrom (2 * done.length) (s.unparsed done) = .error { off := 2 * done.length, zero := zero }) :
    beatParse (s.parsing done u) = execParse s ∧ u.pos.toNat = s.parseEnd := by
  have hparse : framesParse (s.inBytes s.effLen) = .error { off := 2 * done.length, zero := zero } := by
    rw [h.parse_eq, hfail]; rfl
  rw [hbeat, execParse_of_error hcap hparse, State.parseEnd_of_error hparse, h.pos_of_pair hh]
  exact ⟨rfl, rfl⟩

/-- Case (2) of 43_parser.md R176 with count 0. -/
theorem Parses.zeroCount (h : Parses s done u) (hcap : s.effLen ≤ cfg.chunk) (hp : u.pos.toNat < s.effLen)
    (hh : u.half = true) (hc : u.cnt = 0#8) :
    beatParse (s.parsing done u) = execParse s ∧ u.pos.toNat = s.parseEnd := by
  refine h.fail hcap hh (zero := true)
    (beatParse_eq_next.mpr (.inl ⟨h.pos_lt_iff.mpr hp, Nat.lt_of_lt_of_le hp hcap, .inr (.inl ⟨hh, hc, rfl⟩)⟩)) ?_
  rw [h.unparsed_of_pair hh, State.drop_inBytes hp, hc, framesParseFrom_zero]

/-- Case (3) of 43_parser.md R176 in the middle of a frame. -/
theorem Parses.missingByte (h : Parses s done u) (hcap : s.effLen ≤ cfg.chunk) (hp : ¬ u.pos.toNat < s.effLen)
    (hh : u.half = true) : beatParse (s.parsing done u) = execParse s ∧ u.pos.toNat = s.parseEnd := by
  refine h.fail hcap hh (zero := false)
    (beatParse_eq_next.mpr (.inr ⟨h.pos_lt_iff.not.mpr hp, .inl ⟨hh, rfl⟩⟩)) ?_
  have hend : (s.inBytes s.effLen).drop u.pos.toNat = [] :=
    List.drop_eq_nil_of_le (by rw [State.length_inBytes]; exact Nat.le_of_not_lt hp)
  rw [h.unparsed_of_pair hh, hend, framesParseFrom_singleton]

/-- Case (3) of 43_parser.md R176 after the last frame. -/
theorem Parses.finish (h : Parses s done u) (hcap : s.effLen ≤ cfg.chunk) (hp : ¬ u.pos.toNat < s.effLen)
    (hh : u.half = false) : beatParse (s.parsing done u) = execParse s ∧ u.pos.toNat = s.parseEnd := by
  have hend : s.unparsed done = [] :=
    List.drop_eq_nil_of_le (by rw [State.length_inBytes, ← h.pos_of_count hh]; exact Nat.le_of_not_lt hp)
  have hparse : framesParse (s.inBytes s.effLen) = .ok done := by
    rw [h.parse_eq, hend, framesParseFrom_nil]
    exact congrArg Except.ok (List.append_nil done)
  have hcount : BitVec.ofNat cfg.lenBits done.length = u.k := by rw [← h.k_eq, BitVec.ofNat_toNat, BitVec.setWidth_eq]
  refine ⟨?_, (Nat.le_antisymm h.pos_le (Nat.le_of_not_lt hp)).trans (State.parseEnd_of_ok hparse).symm⟩
  rw [execParse_of_ok hcap hparse, State.parsed, hcount]
  exact beatParse_eq_next.mpr (.inr ⟨h.pos_lt_iff.not.mpr hp, .inr ⟨hh, rfl⟩⟩)

/-- A beat reads the next byte, or it is the last and leaves what `PARSE` leaves. -/
theorem Parses.beat_cases (h : Parses s done u) (hcap : s.effLen ≤ cfg.chunk) (hm : Memory.wf s.runbuf) :
    (∃ done' u', beatParse (s.parsing done u) = .next (s.parsing done' u') ∧ Parses s done' u' ∧
      u'.pos.toNat = u.pos.toNat + 1) ∨
    (beatParse (s.parsing done u) = execParse s ∧ u.pos.toNat = s.parseEnd) := by
  by_cases hp : u.pos.toNat < s.effLen
  · cases hh : u.half with
    | false => exact .inl (h.count hcap hp hh)
    | true =>
      by_cases hc : u.cnt = 0#8
      · exact .inr (h.zeroCount hcap hp hh hc)
      · exact .inl (h.pair hcap hm hp hh hc)
  · cases hh : u.half with
    | false => exact .inr (h.finish hcap hp hh)
    | true => exact .inr (h.missingByte hcap hp hh)

/-- Completing the command in the middle parses the whole chunk; the runs already written are the first of its result, or are
forgotten with a failure. -/
theorem Parses.execParse_parsing (h : Parses s done u) (hcap : s.effLen ≤ cfg.chunk) (hm : Memory.wf s.runbuf) :
    execParse (s.parsing done u) = execParse s := by
  cases hp : framesParseFrom (2 * done.length) (s.unparsed done) with
  | ok runs =>
    have hparse : framesParse (s.inBytes s.effLen) = .ok (done ++ runs) := by rw [h.parse_eq, hp]; rfl
    have hle : done.length ≤ (done ++ runs).length := by
      rw [List.length_append]
      exact Nat.le_add_right _ _
    rw [execParse_of_ok hcap hparse, execParse_of_ok (s := s.parsing done u) hcap hparse]
    exact congrArg (fun m => Host.Outcome.next ({ s.parsed (done ++ runs) with runbuf := m } : State cfg))
      (Memory.overwrite_of_le hm hle)
  | error e =>
    have hparse : framesParse (s.inBytes s.effLen) = .error e := by rw [h.parse_eq, hp]; rfl
    rw [execParse_of_error hcap hparse]
    exact execParse_of_error (s := s.parsing done u) hcap hparse

/-- At issue nothing is written and nothing is read. -/
theorem State.accept_eq_parsing (s : State cfg) :
    s.accept (.running .parse) = s.parsing [] { n := BitVec.ofNat cfg.lenBits s.effLen } := by
  rw [State.parsing, Memory.overwrite_nil]
  rfl

theorem Parses.start (hcap : s.effLen ≤ cfg.chunk) : Parses s [] { n := BitVec.ofNat cfg.lenBits s.effLen } where
  n_eq := cfg.toNat_len hcap
  pos_le := Nat.zero_le _
  k_eq := rfl
  pos_eq := rfl
  cnt_eq hf := by simp at hf
  parse_eq := (congrFun Except.map_id _).symm

/-- The beats of the deserializer count down to what `PARSE` leaves. -/
theorem countsDown_parsing (hcap : s.effLen ≤ cfg.chunk) (hm : Memory.wf s.runbuf) :
    CountsDown (execParse s) fun k t =>
      ∃ done u, t = s.parsing done u ∧ Parses s done u ∧ u.pos.toNat + k = s.parseEnd where
  busy := by rintro k _ ⟨done, u, rfl, -, -⟩; rfl
  complete := by
    rintro k _ ⟨done, u, rfl, h, -⟩
    exact h.execParse_parsing hcap hm
  next := by
    rintro k _ ⟨done, u, rfl, h, hk⟩
    obtain ⟨done', u', hbeat, h', hpos⟩ | ⟨-, hend⟩ := h.beat_cases hcap hm
    · exact ⟨_, hbeat, done', u', rfl, h', by omega⟩
    · omega
  last := by
    rintro _ ⟨done, u, rfl, h, hk⟩
    obtain ⟨_, u', -, h', hpos⟩ | ⟨hbeat, -⟩ := h.beat_cases hcap hm
    · have := h'.pos_le_parseEnd
      omega
    · exact hbeat

end

end

/-- Settles O35: each beat reads one byte, up to the end of the chunk or the byte after the count of the failing frame, and one
more beat completes. -/
theorem parseBeatsReachCommandResult : Obligations.ParseBeatsReachCommandResult := by
  intro s hl hm
  have hcap : s.effLen ≤ Config.hardware.chunk := State.effLen_le hl
  exact ⟨s.parseEnd + 1,
    (countsDown_parsing hcap hm).beats_eq ⟨[], _, s.accept_eq_parsing, .start hcap, Nat.zero_add _⟩⟩

end Sys2Proof.Machine

/-! ## Proofs of the family 43_parser: what `PARSE` leaves

SUPPORT for O31 to O34. A parse fails exactly when there is a first bad frame, with that frame; otherwise run `k` is the pair of
bytes at `2k` and `2k+1` (43_parser.md R171 to R174). -/

namespace Sys2Proof.Machine

/-! ### A parse that fails -/

/-- The frame that `e` tells is the first bad one of the list, by the cause that `e` tells (43_parser.md R173, R174, R177). -/
def FirstBadFrame (xs : List Byte) (e : FrameError) : Prop :=
  e.off % 2 = 0 ∧ e.off < xs.length ∧ (∀ j, j % 2 = 0 → j < e.off → xs[j]? ≠ some 0#8) ∧
    if e.zero then e.off + 1 < xs.length ∧ xs[e.off]? = some 0#8 else e.off + 1 = xs.length

section

variable {c b : Byte} {xs : List Byte} {i : Nat} {zero : Bool} {e : FrameError} {runs : List Run}

theorem not_firstBadFrame_nil : ¬ FirstBadFrame [] e := fun ⟨_, hlt, _⟩ => Nat.not_lt_zero _ hlt

/-- A byte alone is a frame without its paired byte. -/
theorem firstBadFrame_singleton : FirstBadFrame [c] { off := i, zero := zero } ↔ i = 0 ∧ zero = false := by
  constructor
  · rintro ⟨-, hlt, -, hcause⟩
    obtain rfl : i = 0 := Nat.lt_one_iff.mp hlt
    cases zero with
    | false => exact ⟨rfl, rfl⟩
    | true => exact absurd hcause.1 (Nat.lt_irrefl 1)
  · rintro ⟨rfl, rfl⟩
    exact ⟨rfl, Nat.one_pos, fun j _ hj => absurd hj (Nat.not_lt_zero j), rfl⟩

/-- A complete frame at the start is bad exactly when its count is 0. -/
theorem firstBadFrame_cons_cons_zero :
    FirstBadFrame (c :: b :: xs) { off := 0, zero := zero } ↔ c = 0#8 ∧ zero = true := by
  cases zero <;> simp [FirstBadFrame]

/-- A bad frame behind the first one is the first bad one exactly when it is that of the rest, and the first one has a count. -/
theorem firstBadFrame_cons_cons_add_two :
    FirstBadFrame (c :: b :: xs) { off := i + 2, zero := zero } ↔
      c ≠ 0#8 ∧ FirstBadFrame xs { off := i, zero := zero } := by
  have hbefore : (∀ j, j % 2 = 0 → j < i + 2 → (c :: b :: xs)[j]? ≠ some 0#8) ↔
      c ≠ 0#8 ∧ ∀ j, j % 2 = 0 → j < i → xs[j]? ≠ some 0#8 := by
    constructor
    · exact fun h => ⟨fun hc => h 0 rfl (by omega) (congrArg some hc), fun j hj hlt => h (j + 2) (by omega) (by omega)⟩
    · rintro ⟨hc, h⟩ j hj hlt
      match j with
      | 0 => exact fun h0 => hc (Option.some.inj h0)
      | j + 2 => exact h j (by omega) (by omega)
  have hlength (n : Nat) : n + 2 < (c :: b :: xs).length ↔ n < xs.length := Nat.add_lt_add_iff_right
  rw [FirstBadFrame, FirstBadFrame, hbefore, hlength, Nat.add_right_comm i 2 1, hlength]
  cases zero <;> simp [and_assoc, and_left_comm]

/-- Behind a complete frame with a count, a parse fails as that of the rest does. -/
theorem framesParseFrom_frame_eq_error {off : Nat} (hc : c ≠ 0#8) :
    framesParseFrom off (c :: b :: xs) = .error e ↔ framesParseFrom (off + 2) xs = .error e := by
  rw [framesParseFrom_frame_eq_map off hc]
  cases framesParseFrom (off + 2) xs <;> simp [Except.map]

/-- A parse from `off` on fails with the first bad frame, told from `off` on, and with no other. -/
theorem framesParseFrom_eq_error_iff : ∀ (off i : Nat) (xs : List Byte),
    framesParseFrom off xs = .error { off := off + i, zero := zero } ↔ FirstBadFrame xs { off := i, zero := zero }
  | off, i, [] => by simp [framesParseFrom_nil, not_firstBadFrame_nil]
  | off, i, [c] => by simp [framesParseFrom_singleton, firstBadFrame_singleton, eq_comm]
  | off, 0, c :: b :: xs => by
    rw [firstBadFrame_cons_cons_zero]
    by_cases hc : c = 0#8
    · simp [hc, framesParseFrom_zero, eq_comm]
    · refine iff_of_false (fun h => ?_) (fun h => hc h.1)
      rw [framesParseFrom_frame_eq_error hc] at h
      have := (off_of_parse_error h).1
      simp only at this
      omega
  | off, 1, c :: b :: xs => by
    refine iff_of_false (fun h => ?_) (fun ⟨heven, _⟩ => absurd heven Nat.one_ne_zero)
    have := off_even_of_parse_error h
    simp only at this
    omega
  | off, i + 2, c :: b :: xs => by
    rw [firstBadFrame_cons_cons_add_two]
    by_cases hc : c = 0#8
    · simp [hc, framesParseFrom_zero]
    · rw [framesParseFrom_frame_eq_error hc, ← framesParseFrom_eq_error_iff (off + 2) i xs, Nat.add_right_comm off 2 i]
      exact (and_iff_right hc).symm

/-- A parse fails exactly with the first bad frame (43_parser.md R171). -/
theorem framesParse_eq_error : framesParse xs = .error e ↔ FirstBadFrame xs e := by
  have h := framesParseFrom_eq_error_iff (zero := e.zero) 0 e.off xs
  rwa [Nat.zero_add] at h

/-- On an odd length the last frame has no paired byte, and no other is bad when none has count 0 (43_parser.md R173). -/
theorem framesParse_of_odd (hodd : xs.length % 2 = 1) (hcounts : ∀ k, 2 * k + 1 < xs.length → xs[2 * k]? ≠ some 0#8) :
    framesParse xs = .error { off := xs.length - 1, zero := false } := by
  have hpos : 1 ≤ xs.length := by omega
  refine framesParse_eq_error.mpr
    ⟨show (xs.length - 1) % 2 = 0 by omega, Nat.sub_one_lt_of_le hpos (Nat.le_refl _), fun j hj hlt => ?_, Nat.sub_add_cancel hpos⟩
  obtain ⟨k, rfl⟩ := Nat.dvd_of_mod_eq_zero hj
  exact hcounts k (Nat.add_lt_of_lt_sub hlt)

/-- On an even length every frame is complete, so frames with counts parse. -/
theorem exists_framesParse_of_even (heven : xs.length % 2 = 0)
    (hcounts : ∀ k, 2 * k + 1 < xs.length → xs[2 * k]? ≠ some 0#8) : ∃ runs, framesParse xs = .ok runs := by
  cases hp : framesParse xs with
  | ok runs => exact ⟨runs, rfl⟩
  | error e =>
    obtain ⟨hoff, -, -, hcause⟩ := framesParse_eq_error.mp hp
    obtain ⟨k, hk⟩ := Nat.dvd_of_mod_eq_zero hoff
    rw [hk] at hcause
    split at hcause
    · exact absurd hcause.2 (hcounts k hcause.1)
    · omega

/-! ### A parse that succeeds -/

theorem getElem?_count_of_parse (hp : framesParse xs = .ok runs) (k : Nat) : xs[2 * k]? = runs[k]?.map Run.count := by
  rw [← getElem?_framesSerialize_count, (framesSerialize_of_parse hp).1]

theorem getElem?_byte_of_parse (hp : framesParse xs = .ok runs) (k : Nat) : xs[2 * k + 1]? = runs[k]?.map Run.byte := by
  rw [← getElem?_framesSerialize_byte, (framesSerialize_of_parse hp).1]

end

/-! ### What the command leaves -/

section

variable {cfg : Config} {s : State cfg} {runs : List Run} {e : FrameError}

/-- The runs of a chunk that parses are its frames, in order. -/
theorem State.runs_eq_of_parse (hp : framesParse (s.inBytes s.effLen) = .ok runs) :
    runs = (List.range (s.effLen / 2)).map fun k => { count := s.inByte (2 * k), byte := s.inByte (2 * k + 1) } := by
  have hlen := State.effLen_of_parse hp
  refine List.ext_getElem (by simp [hlen]) fun k hk _ => ?_
  have hcount := getElem?_count_of_parse hp k
  have hbyte := getElem?_byte_of_parse hp k
  rw [State.getElem?_inBytes s (by omega), List.getElem?_eq_getElem hk] at hcount hbyte
  rw [List.getElem_map, List.getElem_range, Option.some.inj hcount, Option.some.inj hbyte]

theorem State.rcount_parsed (h : s.effLen ≤ cfg.chunk) (hp : framesParse (s.inBytes s.effLen) = .ok runs) :
    (s.parsed runs).rcount.toNat = runs.length :=
  cfg.toNat_len (State.length_parsed_le h hp)

/-- The offset that a failed `PARSE` reports survives `ERR_OFF` (00_scope.md R13). -/
theorem State.errOff_failParse_of_error (h : s.effLen ≤ cfg.chunk) (hp : framesParse (s.inBytes s.effLen) = .error e) :
    (s.failParse e.off e.zero).errOff.toNat = e.off := by
  have hlt := (framesParse_eq_error.mp hp).2.1
  rw [State.length_inBytes] at hlt
  exact cfg.toNat_off (Nat.lt_of_lt_of_le hlt h)

end

/-- Settles O33: this is the first bad frame written out. -/
theorem parseReportsFirstBadFrame : Obligations.ParseReportsFirstBadFrame := fun _ _ => framesParse_eq_error

/-- Settles O32: the list is the frames of its runs, and each of them has a count. -/
theorem parseSuccessProperties : Obligations.ParseSuccessProperties := by
  intro xs runs hl hp
  obtain ⟨hframes, hwf⟩ := framesSerialize_of_parse hp
  have hlen := length_of_parse hp
  have hruns : runs.length = xs.length / 2 := by omega
  refine ⟨by omega, hruns, hruns.trans_le (Nat.div_le_div_right hl), fun k r hk => ⟨?_, ?_⟩, fun r hr => ⟨?_, ?_⟩,
    hruns ▸ runSum_le runs, hframes⟩
  · rw [getElem?_count_of_parse hp, hk, Option.map_some]
  · rw [getElem?_byte_of_parse hp, hk, Option.map_some]
  · exact wf_iff_count_pos.mp (hwf r hr)
  · exact Nat.le_of_lt_succ r.count.isLt

/-- Settles O34: with no count 0 the only frame that can be bad is the last one of an odd effective length. -/
theorem parseJudgesEffectiveLength : Obligations.ParseJudgesEffectiveLength := by
  intro s hl
  have hcap : s.effLen ≤ Config.hardware.chunk := State.effLen_le hl
  have hlen : (s.inBytes s.effLen).length = s.effLen := State.length_inBytes s _
  have hcounts (h : ∀ k, 2 * k + 1 < s.effLen → s.inByte (2 * k) ≠ 0#8) :
      ∀ k, 2 * k + 1 < (s.inBytes s.effLen).length → (s.inBytes s.effLen)[2 * k]? ≠ some 0#8 := by
    intro k hk
    rw [hlen] at hk
    rw [State.getElem?_inBytes s (by omega)]
    exact fun h0 => h k hk (Option.some.inj h0)
  constructor
  · intro hodd h
    have hp := framesParse_of_odd (hlen.symm ▸ hodd) (hcounts h)
    exact ⟨_, execParse_of_error hcap hp, rfl,
      (State.errOff_failParse_of_error hcap hp).trans (congrArg (· - 1) hlen), rfl⟩
  · intro heven h
    obtain ⟨runs, hp⟩ := exists_framesParse_of_even (hlen.symm ▸ heven) (hcounts h)
    have hruns : runs.length = s.effLen / 2 := by
      have := State.effLen_of_parse hp
      omega
    exact ⟨_, execParse_of_ok hcap hp, ⟨rfl, rfl, rfl⟩, (State.rcount_parsed hcap hp).trans hruns,
      (State.validRuns_parsed hcap hp).trans (State.runs_eq_of_parse hp)⟩

/-- Settles O31, by whether the chunk parses: the state that `PARSE` leaves differs from the one before it in `RUNBUF`, `RCOUNT`,
the error and the units alone. -/
theorem parseWritesRunsOrFails : Obligations.ParseWritesRunsOrFails := by
  refine ⟨by decide, by decide, fun s hl => ?_⟩
  have hcap : s.effLen ≤ Config.hardware.chunk := State.effLen_le hl
  have hframe {t : State} (hexec : execAt .parse s = .next t) :
      SameInput s t ∧ SameOut s t ∧ SameHost s t ∧ SameAnswer s t ∧ UnitsIdle t := by
    obtain ⟨hinput, hhost, hanswer⟩ := execAt_frame hexec
    exact ⟨hinput, execAt_out hexec (.inr rfl), hhost, hanswer, execAt_idle hexec⟩
  rw [← State.effLen]
  cases hp : framesParse (s.inBytes s.effLen) with
  | ok runs =>
    have hcount := State.rcount_parsed hcap hp
    refine ⟨_, execParse_of_ok hcap hp, fun _ h => ?_, fun _ h => (nomatch h), hframe (execParse_of_ok hcap hp)⟩
    cases h
    refine ⟨hcount, State.validRuns_parsed hcap hp, fun k hk => ?_, ⟨rfl, rfl, rfl⟩⟩
    rw [hcount] at hk
    exact (Memory.get?_overwrite _ _ k).trans (if_neg (Nat.not_lt.mpr hk))
  | error e =>
    refine ⟨_, execParse_of_error hcap hp, fun _ h => (nomatch h), fun _ h => ?_, hframe (execParse_of_error hcap hp)⟩
    cases h
    exact ⟨rfl, State.errOff_failParse_of_error hcap hp, rfl, rfl⟩

end Sys2Proof.Machine

/-! ## Proofs of the family 44_stream_drivers: the moves of a driver

SUPPORT for all of the family. One equation per case of a read and of a write (44_stream_drivers.md R200, R205), and the work on a
chunk that does not parse (44_stream_drivers.md R206). -/

namespace Sys2Proof.Machine

section

variable {cfg : Config} {s t u v : State cfg}

theorem SameBlock.refl (s : State cfg) : SameBlock s s :=
  ⟨⟨rfl, rfl, rfl, rfl⟩, ⟨rfl, rfl⟩, ⟨rfl, rfl⟩, ⟨rfl, rfl, rfl⟩, rfl, rfl, rfl, rfl, rfl, rfl⟩

/-! ### Reading -/

/-- What is left of the source is the chunk that the next read returns, and what is left after that read. -/
theorem State.nextChunk_append (s : State cfg) :
    s.nextChunk ++ s.source.drop (s.sourcePos + s.nextChunk.length) = s.source.drop s.sourcePos := by
  rw [← List.drop_drop]
  exact List.prefix_iff_eq_append.mp (List.take_prefix _ _)

theorem State.drop_after_nextChunk (s : State cfg) :
    s.source.drop (s.sourcePos + s.nextChunk.length) = (s.source.drop s.sourcePos).drop cfg.chunk :=
  List.append_cancel_left (s.nextChunk_append.trans (List.take_append_drop cfg.chunk _).symm)

theorem State.length_nextChunk (s : State cfg) :
    s.nextChunk.length = min cfg.chunk (s.source.length - s.sourcePos) := by
  rw [State.nextChunk, List.length_take, List.length_drop]

/-- A read returns no bytes exactly at the end of the data (44_stream_drivers.md R200). -/
theorem State.nextChunk_eq_nil (s : State cfg) : s.nextChunk = [] ↔ s.source.length ≤ s.sourcePos := by
  have := cfg.two_le_chunk
  rw [← List.length_eq_zero_iff, s.length_nextChunk]
  omega

theorem driverRead_of_failure {rest : List Bool} (h : s.readFails = true :: rest) (d : Direction) :
    driverRead d s = .next { s with readFails := rest, driver := .finished .inputStreamError } := by
  rw [driverRead, h]

theorem driverRead_of_success (h : s.readFails.head? ≠ some true) (d : Direction) :
    driverRead d s =
      if s.nextChunk = [] then .next { s with readFails := s.readFails.tail, driver := .finished .ok }
      else .next (s.afterRead d) := by
  unfold driverRead
  split
  case h_1 rest hf => exact absurd (by rw [hf, List.head?_cons]) h
  case h_2 => rfl

theorem exists_driverRead (d : Direction) (s : State cfg) : ∃ t, driverRead d s = .next t := by
  by_cases h : s.readFails.head? = some true
  · obtain ⟨rest, hf⟩ := List.head?_eq_some_iff.mp h
    exact ⟨_, driverRead_of_failure hf d⟩
  · rw [driverRead_of_success h]
    split
    · exact ⟨_, rfl⟩
    · exact ⟨_, rfl⟩

/-! ### Writing -/

/-- The state a write leaves that does not fail. -/
def State.afterWrite (s : State cfg) (d : Direction) : State cfg :=
  { s with writeFails := s.writeFails.tail, sink := s.sink ++ s.validOut, driver := .reading d }

theorem driverWrite_of_failure {k : Nat} {rest : List (Option Nat)} (h : s.writeFails = some k :: rest) (d : Direction) :
    driverWrite d s =
      .next { s with writeFails := rest, sink := s.sink ++ s.validOut.take k, driver := .finished .outputStreamError } := by
  rw [driverWrite, h]

theorem driverWrite_of_success (h : ∀ k, s.writeFails.head? ≠ some (some k)) (d : Direction) :
    driverWrite d s = .next (s.afterWrite d) := by
  unfold driverWrite
  split
  case h_1 k rest hf => exact absurd (by rw [hf, List.head?_cons]) (h k)
  case h_2 => rfl

theorem exists_driverWrite (d : Direction) (s : State cfg) : ∃ t, driverWrite d s = .next t := by
  by_cases h : ∃ k, s.writeFails.head? = some (some k)
  · obtain ⟨k, hk⟩ := h
    obtain ⟨rest, hf⟩ := List.head?_eq_some_iff.mp hk
    exact ⟨_, driverWrite_of_failure hf d⟩
  · exact ⟨_, driverWrite_of_success (not_exists.mp h) d⟩

/-! ### The work on a chunk -/

/-- The command lines of a chunk of `performEncoding`, one after the other (44_stream_drivers.md R202). -/
theorem driverWork_encoding_of_lines {chunk : List Byte} (hload : loadChunk chunk s = .next t)
    (hencode : hostCommand (encode .encode) t = .next u) (hserialize : hostCommand (encode .serialize) u = .next v) :
    driverWork .encoding chunk s = .next (v.withDriver (.writing .encoding)) := by
  rw [driverWork, hload, andThen_next]
  simp only [hencode, hserialize, andThen_next]

/-- A `PARSE` that sets MalformedFrame is the last command line of `performDecoding` (44_stream_drivers.md R206). -/
theorem driverWork_decoding_of_malformed {chunk : List Byte} (hload : loadChunk chunk s = .next t)
    (hparse : hostCommand (encode .parse) t = .next u) (he : u.err = errMalformedFrame) :
    driverWork .decoding chunk s = .next (u.withDriver (.finished .malformedFrame)) := by
  rw [driverWork, hload, andThen_next]
  simp only [hparse, andThen_next, if_pos he]

/-- After a `PARSE` that does not, `DECODE` is what is left (44_stream_drivers.md R203). -/
theorem driverWork_decoding_of_parsed {chunk : List Byte} (hload : loadChunk chunk s = .next t)
    (hparse : hostCommand (encode .parse) t = .next u) (he : u.err ≠ errMalformedFrame) :
    driverWork .decoding chunk s =
      andThen (hostCommand (encode .decode) u) fun v => .next (v.withDriver (.writing .decoding)) := by
  rw [driverWork, hload, andThen_next]
  simp only [hparse, andThen_next, if_neg he]

/-- A chunk that does not parse ends `performDecoding` with what its failed `PARSE` leaves (44_stream_drivers.md R206). -/
theorem driverWork_of_parse_error (hr : Ready s) {chunk : List Byte} (hl : chunk.length ≤ cfg.chunk) {e : FrameError}
    (hp : framesParse chunk = .error e) :
    ∃ t, driverWork .decoding chunk s = .next (t.withDriver (.finished .malformedFrame)) ∧ SameHost s t ∧ SameOut s t ∧
      t.err = errMalformedFrame ∧ t.errOff.toNat = e.off ∧ t.errZero = e.zero := by
  obtain ⟨u, hload, heff, hin, -, hhost⟩ := exists_loadChunk hr.1 hl
  have hcap : u.effLen ≤ cfg.chunk := heff.trans_le hl
  have hpu : framesParse (u.inBytes u.effLen) = .error e := by rw [heff, hin, hp]
  have hparse : hostCommand (encode .parse) u = .next (u.failParse e.off e.zero) :=
    (hr.load hload).hostCommand_eq (execParse_of_error hcap hpu)
  have hout : SameOut s u := by
    obtain ⟨m, rfl, -⟩ := loadChunk_frame hload
    exact ⟨rfl, rfl⟩
  exact ⟨_, driverWork_decoding_of_malformed hload hparse rfl, hhost, hout, rfl,
    State.errOff_failParse_of_error hcap hpu, rfl⟩

end

/-- Settles O51: the entry of an invocation is the reset of the block and the driver in Reading. -/
theorem driverStartsWithReset : Obligations.DriverStartsWithReset := fun s _ _ hd hp =>
  ⟨_, stepAt_of_event hd hp, rfl, rfl, SameBlock.refl s.resetBlock, rfl, rfl, rfl, rfl⟩

/-- Settles O52, by the equations of a read and of a write that do not fail and the command lines of the work. -/
theorem driverIterationSteps : Obligations.DriverIterationSteps := by
  refine fun s d => ⟨fun hd hf => ⟨fun hend => ?_, fun hmore => ?_⟩, fun chunk t hd hload => ?_,
    fun chunk t u hd hload hparse herr => ?_, fun hd hf => ?_⟩
  · exact ⟨_, (stepAt_of_reading hd).trans ((driverRead_of_success hf d).trans (if_pos (s.nextChunk_eq_nil.mpr hend))),
      rfl, rfl, rfl, SameBlock.refl s⟩
  · have hne : s.nextChunk ≠ [] := fun h => Nat.not_le.mpr hmore (s.nextChunk_eq_nil.mp h)
    exact ⟨s.afterRead d, s.nextChunk,
      (stepAt_of_reading hd).trans ((driverRead_of_success hf d).trans (if_neg hne)), rfl, s.length_nextChunk,
      s.nextChunk_append.symm, rfl, rfl, rfl, SameBlock.refl s⟩
  · rw [step_eq_stepAt, stepAt_of_working hd, driverWork, hload]
    rfl
  · exact (stepAt_of_working hd).trans (driverWork_decoding_of_parsed hload hparse herr)
  · exact ⟨_, (stepAt_of_writing hd).trans (driverWrite_of_success hf d), rfl, rfl, rfl, rfl, SameBlock.refl s⟩

/-- Settles O53, by the equations of a read and of a write that fail. -/
theorem streamFailuresEndDriver : Obligations.StreamFailuresEndDriver :=
  ⟨fun s d _ hd hf =>
      ⟨_, (stepAt_of_reading hd).trans (driverRead_of_failure hf d), rfl, SameBlock.refl s, rfl⟩,
    fun s d _ _ hd hf =>
      ⟨_, (stepAt_of_writing hd).trans (driverWrite_of_failure hf d), rfl, SameBlock.refl s, rfl⟩⟩

/-- Settles O54: `LOAD` and a failed `PARSE` change neither the output nor the streams. -/
theorem malformedFrameEndsDecoding : Obligations.MalformedFrameEndsDecoding := by
  intro s chunk e hd hr hl hp
  obtain ⟨t, hwork, ⟨-, -, -, -, hsink, -⟩, hout, herr, hoff, hzero⟩ := driverWork_of_parse_error hr hl hp
  exact ⟨_, (stepAt_of_working hd).trans hwork, rfl, hsink, hout, herr, hoff, hzero⟩

end Sys2Proof.Machine

/-! ## Proofs of the family 44_stream_drivers: the runs of a stream, chunk by chunk

SUPPORT for O57 and O59. The compressed stream is the frames of the runs of the chunks, and taking the first chunk off a stream
takes its runs off the front (44_stream_drivers.md R209). -/

namespace Sys2Proof.Machine

section

variable {cfg : Config} {xs : List Byte}

/-- What holds of the empty stream, and of a stream when it holds of what is left after its first chunk, holds of every stream. -/
theorem chunkInduction (cfg : Config) {P : List Byte → Prop} (nil : P [])
    (chunk : ∀ xs, xs ≠ [] → P (xs.drop cfg.chunk) → P xs) (xs : List Byte) : P xs := by
  induction hn : xs.length using Nat.strong_induction_on generalizing xs with
  | _ n ih =>
    subst hn
    by_cases hne : xs = []
    · exact hne ▸ nil
    · have hshorter : (xs.drop cfg.chunk).length < xs.length := by
        have := cfg.two_le_chunk
        have := List.length_pos_iff.mpr hne
        rw [List.length_drop]
        omega
      exact chunk xs hne (ih _ hshorter _ rfl)

/-- The runs of the chunks of a stream, in order. -/
def streamRuns (cfg : Config) (xs : List Byte) : List Run :=
  (List.range ((xs.length + (cfg.chunk - 1)) / cfg.chunk)).flatMap fun j => rleEncode (chunkAt cfg xs j)

theorem compressed_eq_framesSerialize (cfg : Config) (xs : List Byte) :
    compressed cfg xs = framesSerialize (streamRuns cfg xs) := by
  simp only [compressed, streamRuns, framesSerialize, List.flatMap_assoc]

theorem streamRuns_wf : ∀ r ∈ streamRuns cfg xs, r.wf = true := by
  intro r hr
  obtain ⟨j, -, hj⟩ := List.mem_flatMap.mp hr
  exact rleEncode_counts _ r hj

theorem streamRuns_nil (cfg : Config) : streamRuns cfg [] = [] := by
  have hzero : (0 + (cfg.chunk - 1)) / cfg.chunk = 0 := by
    have := cfg.two_le_chunk
    exact Nat.div_eq_of_lt (by omega)
  rw [streamRuns, List.length_nil, hzero]
  rfl

/-- A stream that is not empty has one chunk more than what is left after its first one. -/
theorem chunks_eq_succ (cfg : Config) (h : xs ≠ []) :
    (xs.length + (cfg.chunk - 1)) / cfg.chunk = ((xs.drop cfg.chunk).length + (cfg.chunk - 1)) / cfg.chunk + 1 := by
  have hpos := List.length_pos_iff.mpr h
  have hchunk := cfg.two_le_chunk
  rw [List.length_drop]
  by_cases hlt : xs.length < cfg.chunk
  · rw [Nat.sub_eq_zero_of_le hlt.le, Nat.zero_add, Nat.div_eq_of_lt (by omega : cfg.chunk - 1 < cfg.chunk)]
    exact Nat.div_eq_of_lt_le (by omega) (by omega)
  · rw [← Nat.add_div_right _ (by omega : 0 < cfg.chunk)]
    congr 1
    omega

theorem chunkAt_succ (cfg : Config) (xs : List Byte) (j : Nat) :
    chunkAt cfg xs (j + 1) = chunkAt cfg (xs.drop cfg.chunk) j := by
  rw [chunkAt, chunkAt, List.drop_drop, Nat.succ_mul, Nat.add_comm]

theorem streamRuns_of_ne_nil (cfg : Config) (h : xs ≠ []) :
    streamRuns cfg xs = rleEncode (xs.take cfg.chunk) ++ streamRuns cfg (xs.drop cfg.chunk) := by
  have hfirst : chunkAt cfg xs 0 = xs.take cfg.chunk := by rw [chunkAt, Nat.zero_mul, List.drop_zero]
  rw [streamRuns, chunks_eq_succ cfg h, List.range_succ_eq_map, List.flatMap_cons, List.flatMap_map, hfirst, streamRuns]
  simp only [chunkAt_succ]

/-- The runs of the chunks expand to the stream (44_stream_drivers.md R211). -/
theorem rleDecode_streamRuns (cfg : Config) (xs : List Byte) : rleDecode (streamRuns cfg xs) = xs := by
  induction xs using chunkInduction cfg with
  | nil => rw [streamRuns_nil, rleDecode_nil]
  | chunk xs hne ih =>
    rw [streamRuns_of_ne_nil cfg hne, rleDecode_append, rleDecode_rleEncode, ih, List.take_append_drop]

end

end Sys2Proof.Machine

/-! ## Proofs of the family 44_stream_drivers: the iterations of performEncoding

SUPPORT for O57 and O59. One iteration of the driver appends the frames of the next chunk to the sink (44_stream_drivers.md
R202), and the iterations are an induction on the chunks that are left of the source. -/

namespace Sys2Proof.Machine

section

variable {cfg : Config} {s t u : State cfg}

/-! ### One iteration of a driver -/

/-- An iteration whose streams do not fail is the read, the work on its chunk, and the write (44_stream_drivers.md R204). -/
theorem run_iteration {d : Direction} (hd : s.driver = .reading d) (hnof : NoStreamFailure s) (hne : s.nextChunk ≠ [])
    (hwork : driverWork d s.nextChunk (s.afterRead d) = .next (u.withDriver (.writing d))) (hhost : SameHost (s.afterRead d) u) :
    (coreAt cfg).run 3 s = .next (u.afterWrite d) ∧ NoStreamFailure (u.afterWrite d) := by
  obtain ⟨-, -, -, -, -, hrf, hwf⟩ := hhost
  have hnofu : NoStreamFailure (u.withDriver (.writing d)) :=
    hnof.mono (by rw [State.withDriver_readFails, hrf]; exact List.tail_subset _)
      (by rw [State.withDriver_writeFails, hwf]; exact List.Subset.refl _)
  have hread : stepAt s = .next (s.afterRead d) := by
    rw [stepAt_of_reading hd, driverRead_of_noFailure hnof, if_neg hne]
  have hwork' : stepAt (s.afterRead d) = .next (u.withDriver (.writing d)) := (stepAt_of_working rfl).trans hwork
  have hwrite : stepAt (u.withDriver (.writing d)) = .next (u.afterWrite d) :=
    (stepAt_of_writing rfl).trans (driverWrite_of_noFailure hnofu d)
  exact ⟨(run_succ_of_next hread 2).trans ((run_succ_of_next hwork' 1).trans ((run_one _).trans hwrite)),
    hnofu.mono (List.Subset.refl _) (List.tail_subset _)⟩

/-! ### The iterations of performEncoding -/

/-- A chunk goes through `ENCODE` and `SERIALIZE` and leaves the frames of its runs in `OBUF` (44_stream_drivers.md R202). -/
theorem driverWork_encoding (hr : Ready s) {chunk : List Byte} (hl : chunk.length ≤ cfg.chunk) :
    ∃ t, driverWork .encoding chunk s = .next (t.withDriver (.writing .encoding)) ∧ Ready t ∧
      t.validOut = framesSerialize (rleEncode chunk) ∧ SameHost s t := by
  obtain ⟨u, hload, heff, hin, -, hhost⟩ := exists_loadChunk hr.1 hl
  have hu : Ready u := hr.load hload
  have hcap : u.effLen ≤ cfg.chunk := heff.trans_le hl
  have hencode : execAt .encode u = .next u.encoded := execEncode_eq_next.mpr ⟨hcap, rfl⟩
  have hruns : u.encoded.validRuns = rleEncode chunk := by rw [State.validRuns_encoded hcap, heff, hin]
  have hv : Ready u.encoded := ⟨rfl, hu.2⟩
  have hrcount : u.encoded.rcount.toNat ≤ cfg.runCap :=
    (State.rcount_encoded hcap).trans_le (Nat.le_trans u.length_encoded_le hcap)
  have hserialize : execAt .serialize u.encoded = .next u.encoded.serialized :=
    execSerialize_eq_next.mpr ⟨hrcount, rfl⟩
  refine ⟨u.encoded.serialized,
    driverWork_encoding_of_lines hload (hu.hostCommand_eq hencode) (hv.hostCommand_eq hserialize), ⟨rfl, hu.2⟩, ?_, hhost⟩
  rw [State.validOut_of_overwrite rfl ((State.olen_serialized hrcount).trans u.encoded.length_frames.symm), State.frames, hruns]

/-- `performEncoding` is about to read, and `xs` is what is left of the source. -/
structure EncodingFrom (s : State cfg) (xs : List Byte) : Prop where
  driver : s.driver = .reading .encoding
  ready : Ready s
  noFailure : NoStreamFailure s
  remaining : s.source.drop s.sourcePos = xs

variable {xs : List Byte}

theorem EncodingFrom.nextChunk_eq (h : EncodingFrom s xs) : s.nextChunk = xs.take cfg.chunk := by
  rw [State.nextChunk, h.remaining]

/-- The last read returns no bytes and ends the invocation (44_stream_drivers.md R202). -/
theorem EncodingFrom.finish (h : EncodingFrom s []) :
    stepAt s = .next { s with readFails := s.readFails.tail, driver := .finished .ok } := by
  rw [stepAt_of_reading h.driver, driverRead_of_noFailure h.noFailure, h.nextChunk_eq, List.take_nil, if_pos rfl]

/-- One iteration appends the frames of the next chunk. -/
theorem EncodingFrom.iteration (h : EncodingFrom s xs) (hne : xs ≠ []) :
    ∃ t, (coreAt cfg).run 3 s = .next t ∧ EncodingFrom t (xs.drop cfg.chunk) ∧ t.program = s.program ∧
      t.sink = s.sink ++ framesSerialize (rleEncode (xs.take cfg.chunk)) := by
  have hnil : s.nextChunk ≠ [] := by
    have := cfg.two_le_chunk
    rw [h.nextChunk_eq, ne_eq, List.take_eq_nil_iff, not_or]
    exact ⟨by omega, hne⟩
  obtain ⟨u, hwork, hu, hout, hhost⟩ :=
    driverWork_encoding (s := s.afterRead .encoding) h.ready s.length_nextChunk_le
  obtain ⟨hrun, hnof⟩ := run_iteration h.driver h.noFailure hnil hwork hhost
  obtain ⟨hprog, -, hsrc, hpos, hsink, -⟩ := hhost
  refine ⟨u.afterWrite .encoding, hrun, ⟨rfl, hu, hnof, ?_⟩, hprog, ?_⟩
  · show u.source.drop u.sourcePos = _
    rw [hsrc, hpos, ← h.remaining]
    exact s.drop_after_nextChunk
  · show u.sink ++ u.validOut = _
    rw [hsink, hout, h.nextChunk_eq]
    rfl

/-- The whole run of an invocation, from its first read on. -/
theorem EncodingFrom.exists_run (h : EncodingFrom s xs) :
    ∃ k t, (coreAt cfg).run k s = .next t ∧ t.driver = .finished .ok ∧ t.program = s.program ∧ t.err = errNone ∧
      t.sink = s.sink ++ compressed cfg xs := by
  induction xs using chunkInduction cfg generalizing s with
  | nil =>
    refine ⟨1, _, (run_one s).trans h.finish, rfl, rfl, h.ready.2, ?_⟩
    rw [compressed_eq_framesSerialize, streamRuns_nil, framesSerialize_nil, List.append_nil]
  | chunk xs hne ih =>
    obtain ⟨u, hrun, hu, hprog, hsink⟩ := h.iteration hne
    obtain ⟨k, t, hrun', hd, hp, he, hs⟩ := ih hu
    refine ⟨3 + k, t, (run_add_of_next hrun k).trans hrun', hd, hp.trans hprog, he, ?_⟩
    rw [hs, hsink, List.append_assoc, compressed_eq_framesSerialize, compressed_eq_framesSerialize,
      streamRuns_of_ne_nil cfg hne, framesSerialize_append]

/-- An invocation of `performEncoding`, from the entry of the program to its return (44_stream_drivers.md R209). -/
theorem exists_run_performEncoding {rest : List (Event cfg)} (hd : s.driver.running = false)
    (hp : s.program = .perform .encoding :: rest) (hpos : s.sourcePos = 0) (hnof : NoStreamFailure s) :
    ∃ k t, (coreAt cfg).run k s = .next t ∧ t.driver = .finished .ok ∧ t.program = rest ∧ t.err = errNone ∧
      t.sink = s.sink ++ compressed cfg s.source := by
  have hstart : stepAt s = .next ((s.withProgram rest).resetBlock.withDriver (.reading .encoding)) :=
    stepAt_of_event hd hp
  have hfrom : EncodingFrom ((s.withProgram rest).resetBlock.withDriver (.reading .encoding)) s.source :=
    ⟨rfl, ⟨rfl, rfl⟩, hnof, by simp [hpos]⟩
  obtain ⟨k, t, hrun, htd, htp, hte, hts⟩ := hfrom.exists_run
  exact ⟨k + 1, t, (run_succ_of_next hstart k).trans hrun, htd, htp, hte, hts⟩

end

/-- Settles O57, by induction on the chunks that are left of the source: each iteration appends the frames of the next one. -/
theorem encodingDriverOutput : Obligations.EncodingDriverOutput := by
  refine ⟨core_eq_coreAt, fun cfg s rest hd hp hpos hnof => ⟨?_, exists_run_performEncoding hd hp hpos hnof⟩⟩
  rw [compressed_eq_framesSerialize, length_framesSerialize, Nat.mul_mod_right]

/-- Settles O59: the sink of the encoding holds the frames of the runs of the chunks, and these expand to the source. -/
theorem streamRoundTrip : Obligations.StreamRoundTrip := by
  constructor
  · exact fun b => ⟨rleEncode b, framesParseFrom_framesSerialize 0 (rleEncode_counts b), rleDecode_rleEncode b⟩
  · intro cfg s rest hd hp hpos hsink hnof
    obtain ⟨k, t, hrun, htd, -, -, hts⟩ := exists_run_performEncoding hd hp hpos hnof
    rw [hsink, List.nil_append, compressed_eq_framesSerialize] at hts
    refine ⟨k, t, hrun, htd, fun s' rest' hd' hp' hpos' hnof' hsrc => ?_⟩
    obtain ⟨k', t', hrun', htd', -, hts'⟩ :=
      wholeFramesDecode cfg s' rest' (streamRuns cfg s.source) hd' hp' hpos' hnof' streamRuns_wf (hsrc.trans hts)
    rw [rleDecode_streamRuns] at hts'
    exact ⟨k', t', hrun', htd', hts'⟩

end Sys2Proof.Machine

/-! ## Proofs of the family 44_stream_drivers: the state machine of a driver, and its return

SUPPORT for O55, O56 and O60. No move of the block and no host operation touches the driver or its streams, and the work on a
chunk only the driver; so every move of a running driver brings it nearer to a terminal state (44_stream_drivers.md R204,
R215). -/

namespace Sys2Proof.Machine

section

variable {cfg : Config} {s t : State cfg}

/-! ### What a step leaves of the driver and of its streams -/

theorem SameHost.refl (s : State cfg) : SameHost s s := ⟨rfl, rfl, rfl, rfl, rfl, rfl, rfl⟩

theorem SameHost.trans {u : State cfg} (h : SameHost s t) (h' : SameHost t u) : SameHost s u := by
  obtain ⟨h1, h2, h3, h4, h5, h6, h7⟩ := h
  obtain ⟨h1', h2', h3', h4', h5', h6', h7'⟩ := h'
  exact ⟨h1'.trans h1, h2'.trans h2, h3'.trans h3, h4'.trans h4, h5'.trans h5, h6'.trans h6, h7'.trans h7⟩

theorem hostIssue_sameHost {w : Byte} (h : hostIssue w s = .next t) : SameHost s t := by
  obtain ⟨-, ⟨-, rfl⟩ | ⟨-, rfl⟩⟩ := hostIssue_eq_next.mp h <;> exact .refl _

theorem blockComplete_sameHost (h : blockComplete s = .next t) : SameHost s t := by
  rcases blockComplete_eq_next.mp h with ⟨-, rfl⟩ | ⟨-, h⟩
  · exact .refl t
  · obtain ⟨-, hsame, -⟩ := completeCommand_frame h
    exact hsame

theorem hostCommand_sameHost {w : Byte} (h : hostCommand w s = .next t) : SameHost s t := by
  obtain ⟨u, hi, hc⟩ := andThen_eq_next.mp ((hostCommand_eq_andThen w s).symm.trans h)
  exact (hostIssue_sameHost hi).trans (blockComplete_sameHost hc)

theorem hostOp_sameHost {op : HostOp cfg} (h : hostOp op s = .next t) : SameHost s t := by
  rcases hostOp_cases h with
    ⟨-, _, _, rfl⟩ | ⟨-, rfl⟩ | ⟨_, _, -, -, -, rfl⟩ | ⟨_, -, -, -, rfl⟩ | ⟨_, -, -, rfl⟩ | ⟨w, -, h⟩
  · exact .refl s
  · exact .refl s
  · exact .refl s
  · exact .refl s
  · exact .refl s
  · exact hostIssue_sameHost h

theorem loadChunk_sameHost {bytes : List Byte} (h : loadChunk bytes s = .next t) : SameHost s t := by
  obtain ⟨m, rfl, -⟩ := loadChunk_frame h
  exact .refl s

/-- An entry of the program is an invocation, or leaves the driver and the sink. -/
theorem runEvent_cases {e : Event cfg} (h : runEvent e s = .next t) :
    (∃ d, e = .perform d ∧ t = s.resetBlock.withDriver (.reading d)) ∨ (t.driver = s.driver ∧ t.sink = s.sink) := by
  have hsame {u : State cfg} (hu : SameHost s u) : u.driver = s.driver ∧ u.sink = s.sink := by
    obtain ⟨-, hd, -, -, hs, -⟩ := hu
    exact ⟨hd, hs⟩
  cases e with
  | host op => exact .inr (hsame (hostOp_sameHost h))
  | command w => exact .inr (hsame (hostCommand_sameHost h))
  | wait =>
    simp only [runEvent] at h
    split at h
    · obtain ⟨-, ⟨-, hd, -, -, hs, -⟩, -⟩ := completeCommand_frame h
      exact .inr ⟨hd, hs⟩
    · exact .inr (hsame (hostOp_sameHost (op := .readStatus) h))
  | load bytes => exact .inr (hsame (loadChunk_sameHost h))
  | compress => cases h; exact .inr ⟨rfl, rfl⟩
  | decompress => cases h; exact .inr ⟨rfl, rfl⟩
  | perform d => cases h; exact .inl ⟨d, rfl, rfl⟩
  | beat => exact .inr (hsame (blockBeat_sameHost h))
  | complete => exact .inr (hsame (blockComplete_sameHost h))

/-- The work on a chunk moves the driver and changes nothing else of the host. -/
theorem driverWork_sameHost {d : Direction} {chunk : List Byte} (h : driverWork d chunk s = .next t) :
    ∃ u, SameHost s u ∧
      (t = u.withDriver (.writing d) ∨ (d = .decoding ∧ t = u.withDriver (.finished .malformedFrame))) := by
  obtain ⟨u, hl, ⟨rfl, v, w, hv, hw, rfl⟩ | ⟨rfl, v, hv, ⟨-, rfl⟩ | ⟨-, w, hw, rfl⟩⟩⟩ := driverWork_cases h
  · exact ⟨w, ((loadChunk_sameHost hl).trans (hostCommand_sameHost hv)).trans (hostCommand_sameHost hw), .inl rfl⟩
  · exact ⟨v, (loadChunk_sameHost hl).trans (hostCommand_sameHost hv), .inr ⟨rfl, rfl⟩⟩
  · exact ⟨w, ((loadChunk_sameHost hl).trans (hostCommand_sameHost hv)).trans (hostCommand_sameHost hw), .inl rfl⟩

/-- A driver that has returned stays so until it is invoked again. -/
theorem driver_of_finished (h : stepAt s = .next t) {r : DriverResult} (hd : s.driver = .finished r) :
    t.driver = .finished r ∨ ∃ d rest, s.program = .perform d :: rest ∧ t.driver = .reading d := by
  rcases stepAt_cases h with ⟨hrun, -⟩ | ⟨-, ⟨-, h⟩ | ⟨e, rest, hp, h⟩⟩
  · rw [hd] at hrun
    exact absurd hrun Bool.false_ne_true
  · exact .inl ((blockComplete_driver h).trans hd)
  · obtain ⟨d, rfl, rfl⟩ | ⟨hdriver, -⟩ := runEvent_cases h
    · exact .inr ⟨d, rest, hp, rfl⟩
    · exact .inl (hdriver.trans hd)

/-- Every step leaves the sink and what it appends to it (44_stream_drivers.md R207). -/
theorem exists_sink_append (h : stepAt s = .next t) : ∃ more, t.sink = s.sink ++ more := by
  have hsame (hs : t.sink = s.sink) : ∃ more, t.sink = s.sink ++ more := ⟨[], by rw [hs, List.append_nil]⟩
  rcases stepAt_cases h with ⟨-, ⟨d, -, h⟩ | ⟨d, chunk, -, h⟩ | ⟨d, -, h⟩⟩ | ⟨-, ⟨-, h⟩ | ⟨e, rest, -, h⟩⟩
  · obtain ⟨f, rfl | ⟨-, rfl⟩ | ⟨-, rfl⟩⟩ := driverRead_cases h <;> exact hsame rfl
  · obtain ⟨u, ⟨-, -, -, -, hs, -⟩, rfl | ⟨-, rfl⟩⟩ := driverWork_sameHost h <;> exact hsame hs
  · obtain ⟨f, k, rfl | rfl⟩ := driverWrite_cases h <;> exact ⟨_, rfl⟩
  · obtain ⟨-, -, -, -, hs, -⟩ := blockComplete_sameHost h
    exact hsame hs
  · obtain ⟨d, -, rfl⟩ | ⟨-, hs⟩ := runEvent_cases h
    · exact hsame rfl
    · exact hsame hs

/-! ### A driver returns -/

/-- A bound on the moves a driver makes before it returns: three for each byte that is left of the source, those of the present
iteration that are still to come, and the last read. -/
def State.movesLeft (s : State cfg) : Nat :=
  match s.driver with
  | .inactive => 0
  | .reading _ => 3 * (s.source.length - s.sourcePos) + 1
  | .working _ _ => 3 * (s.source.length - s.sourcePos) + 3
  | .writing _ => 3 * (s.source.length - s.sourcePos) + 2
  | .finished _ => 0

theorem State.movesLeft_of_reading {d : Direction} (h : s.driver = .reading d) :
    s.movesLeft = 3 * (s.source.length - s.sourcePos) + 1 := by rw [State.movesLeft, h]

theorem State.movesLeft_of_working {d : Direction} {chunk : List Byte} (h : s.driver = .working d chunk) :
    s.movesLeft = 3 * (s.source.length - s.sourcePos) + 3 := by rw [State.movesLeft, h]

theorem State.movesLeft_of_writing {d : Direction} (h : s.driver = .writing d) :
    s.movesLeft = 3 * (s.source.length - s.sourcePos) + 2 := by rw [State.movesLeft, h]

theorem State.movesLeft_of_finished {r : DriverResult} (h : s.driver = .finished r) : s.movesLeft = 0 := by
  rw [State.movesLeft, h]

/-- A chunk that is read is taken off what is left of the source. -/
theorem State.movesLeft_afterRead (hne : s.nextChunk ≠ []) (d : Direction) :
    (s.afterRead d).movesLeft ≤ 3 * (s.source.length - s.sourcePos) := by
  have hpos := List.length_pos_iff.mpr hne
  have hmin := s.length_nextChunk
  have hleft : (s.afterRead d).movesLeft = 3 * (s.source.length - (s.sourcePos + s.nextChunk.length)) + 3 :=
    State.movesLeft_of_working (s := s.afterRead d) rfl
  omega

/-- A move of a running driver is one of the moves it had left, and does not make it inactive. -/
theorem movesLeft_lt_of_running (hd : s.driver.running = true) (h : stepAt s = .next t) :
    t.movesLeft < s.movesLeft ∧ t.driver ≠ .inactive := by
  rcases stepAt_cases h with ⟨-, ⟨d, hs, h⟩ | ⟨d, chunk, hs, h⟩ | ⟨d, hs, h⟩⟩ | ⟨hstop, -⟩
  · rw [State.movesLeft_of_reading hs]
    obtain ⟨f, rfl | ⟨-, rfl⟩ | ⟨hne, rfl⟩⟩ := driverRead_cases h
    · exact ⟨Nat.succ_pos _, nofun⟩
    · exact ⟨Nat.succ_pos _, nofun⟩
    · exact ⟨Nat.lt_succ_of_le (State.movesLeft_afterRead hne d), nofun⟩
  · rw [State.movesLeft_of_working hs]
    obtain ⟨u, ⟨-, -, hsrc, hpos, -⟩, rfl | ⟨-, rfl⟩⟩ := driverWork_sameHost h
    · rw [State.movesLeft_of_writing rfl, State.withDriver_source, State.withDriver_sourcePos, hsrc, hpos]
      exact ⟨Nat.lt_succ_self _, nofun⟩
    · exact ⟨Nat.succ_pos _, nofun⟩
  · rw [State.movesLeft_of_writing hs]
    obtain ⟨f, k, rfl | rfl⟩ := driverWrite_cases h
    · exact ⟨Nat.succ_pos _, nofun⟩
    · exact ⟨Nat.lt_succ_self _, nofun⟩
  · exact absurd hd (by simp [hstop])

/-- A command line of a ready block completes. -/
theorem BlockLegal.exists_hostCommand (h : BlockLegal s) (hr : Ready s) (w : Byte) : ∃ t, hostCommand w s = .next t := by
  obtain ⟨t, ht⟩ := (h.accept hr.1 hr.2 (activityOf_ne_idle w)).exists_blockComplete
  exact ⟨t, by rw [hostCommand_eq_andThen, hr.hostIssue_eq, andThen_next, ht]⟩

/-- The work on a chunk that fits `IBUF` ends in a state (20_memory.md R68). -/
theorem BlockLegal.exists_driverWork (h : BlockLegal s) (hr : Ready s) (d : Direction) {chunk : List Byte}
    (hl : chunk.length ≤ cfg.chunk) : ∃ t, driverWork d chunk s = .next t := by
  obtain ⟨u, hload, -⟩ := exists_loadChunk hr.1 hl
  have hu : BlockLegal u := blockLegal_keptByMoves.load h hload
  have hru : Ready u := hr.load hload
  cases d with
  | encoding =>
    obtain ⟨v, hv⟩ := hu.exists_hostCommand hru (encode .encode)
    have hrv : Ready v := hru.command hv (by simp)
    obtain ⟨w, hw⟩ := (blockLegal_keptByMoves.command hu hv).exists_hostCommand hrv (encode .serialize)
    exact ⟨_, driverWork_encoding_of_lines hload hv hw⟩
  | decoding =>
    obtain ⟨v, hv⟩ := hu.exists_hostCommand hru (encode .parse)
    by_cases he : v.err = errMalformedFrame
    · exact ⟨_, driverWork_decoding_of_malformed hload hv he⟩
    · have hrv : Ready v := hru.command hv fun _ => he
      obtain ⟨w, hw⟩ := (blockLegal_keptByMoves.command hu hv).exists_hostCommand hrv (encode .decode)
      exact ⟨_, by rw [driverWork_decoding_of_parsed hload hv he, hw, andThen_next]⟩

/-- A move of a running driver meets no model fault. -/
theorem Inv.exists_stepAt_of_running (hi : Inv s) (hd : s.driver.running = true) : ∃ t, stepAt s = .next t := by
  obtain ⟨hblock, hdriver⟩ := inv_iff.mp hi
  cases hs : s.driver with
  | inactive => rw [hs] at hd; exact absurd hd Bool.false_ne_true
  | reading d => rw [stepAt_of_reading hs]; exact exists_driverRead d s
  | working d chunk =>
    rw [stepAt_of_working hs]
    exact hblock.exists_driverWork (hdriver.ready hd) d (hdriver.chunk_le d chunk hs)
  | writing d => rw [stepAt_of_writing hs]; exact exists_driverWrite d s
  | finished r => rw [hs] at hd; exact absurd hd Bool.false_ne_true

theorem Driver.exists_eq_finished {d : Driver} (hrun : d.running = false) (hne : d ≠ .inactive) : ∃ r, d = .finished r := by
  cases d with
  | inactive => exact absurd rfl hne
  | finished r => exact ⟨r, rfl⟩
  | reading _ | working _ _ | writing _ => cases hrun

/-- A driver that has been invoked makes no more moves than it has left, and has then returned. -/
theorem Inv.exists_run_finished (hi : Inv s) (hd : s.driver ≠ .inactive) :
    ∃ k t r, (coreAt cfg).run k s = .next t ∧ t.driver = .finished r := by
  induction hn : s.movesLeft using Nat.strong_induction_on generalizing s with
  | _ n ih =>
    subst hn
    cases hrun : s.driver.running with
    | false =>
      obtain ⟨r, hr⟩ := Driver.exists_eq_finished hrun hd
      exact ⟨0, s, r, run_zero s, hr⟩
    | true =>
      obtain ⟨u, hstep⟩ := hi.exists_stepAt_of_running hrun
      obtain ⟨hlt, hu⟩ := movesLeft_lt_of_running hrun hstep
      obtain ⟨k, t, r, hrunk, ht⟩ := ih u.movesLeft hlt (hi.step hstep) hu rfl
      exact ⟨k + 1, t, r, (run_succ_of_next hstep k).trans hrunk, ht⟩

end

/-- Settles O55, by the state the driver is in: each of its moves is that of one state of the machine. -/
theorem driverStateMachine : Obligations.DriverStateMachine := by
  refine fun s t h => ⟨fun r hd => driver_of_finished h hd, fun d hd => ?_, fun d chunk hd => ?_, fun d hd => ?_⟩
  · obtain ⟨f, rfl | ⟨-, rfl⟩ | ⟨hne, rfl⟩⟩ := driverRead_cases ((stepAt_of_reading hd).symm.trans h)
    · exact .inr (.inr rfl)
    · exact .inr (.inl rfl)
    · exact .inl ⟨s.nextChunk, hne, rfl⟩
  · obtain ⟨u, -, rfl | ⟨rfl, rfl⟩⟩ := driverWork_sameHost ((stepAt_of_working hd).symm.trans h)
    · exact .inl rfl
    · exact .inr ⟨rfl, rfl⟩
  · obtain ⟨f, k, rfl | rfl⟩ := driverWrite_cases ((stepAt_of_writing hd).symm.trans h)
    · exact .inr rfl
    · exact .inl rfl

/-- Settles O56: only a write touches the sink, and it appends. -/
theorem sinkOnlyGrows : Obligations.SinkOnlyGrows := fun _ _ h => exists_sink_append h

/-- Settles O60, by induction on the moves that the driver has left: the invariant makes each of them end in a state. -/
theorem driverReturns : Obligations.DriverReturns := fun s hi hd =>
  hi.exists_run_finished fun h => by simp [h, Driver.running] at hd

end Sys2Proof.Machine

/-! ## Proofs of the family 60_exceptions: an error stays, an obeying host is safe, an idle block rests

SUPPORT for O11, O44 and O50. Every command line of a block that is in error is ignored, so only a reset changes what the block
shows (60_exceptions.md R233); and every move of a host that keeps its protocol ends in a state, since a move faults only where
its own check fails (60_exceptions.md R230, R238). -/

namespace Sys2Proof.Machine

section

variable {cfg : Config} {s t : State cfg}

/-! ### A block with `BUSY = 0` -/

theorem blockBeat_of_not_busy (hb : s.busy = false) : blockBeat s = .next s := if_neg (by simp [hb])

theorem blockComplete_of_not_busy (hb : s.busy = false) : blockComplete s = .next s := if_neg (by simp [hb])

theorem blockComplete_of_busy (hb : s.busy = true) : blockComplete s = completeCommand s := if_pos hb

theorem runEvent_wait_of_not_busy (hb : s.busy = false) : runEvent .wait s = .next (hostReadStatus s) :=
  if_neg (by simp [hb])

/-! ### A block in error -/

/-- An error is set and no command is in flight, so the block ignores every command (10_state.md R44). -/
def InError (s : State cfg) : Prop := s.busy = false ∧ s.err ≠ errNone

/-- The error, the runs and the output are as they were. -/
def SameResults (s t : State cfg) : Prop := SameError s t ∧ SameRuns s t ∧ SameOut s t

theorem SameResults.refl (s : State cfg) : SameResults s s := ⟨⟨rfl, rfl, rfl⟩, ⟨rfl, rfl⟩, ⟨rfl, rfl⟩⟩

theorem StatusLegal.inError (h : StatusLegal s) (he : s.err ≠ errNone) : InError s :=
  ⟨Bool.eq_false_iff.mpr fun hb => he (h.busy_err hb), he⟩

theorem InError.hostIssue_eq (h : InError s) (w : Byte) : hostIssue w s = .next s := hostIssue_of_error h.1 h.2 w

theorem InError.hostCommand_eq (h : InError s) (w : Byte) : hostCommand w s = .next s :=
  hostCommand_eq_next.mpr ⟨h.1, .inl ⟨h.2, rfl⟩⟩

theorem InError.eq_of_hostCommand (h : InError s) {w : Byte} (hc : hostCommand w s = .next t) : t = s :=
  Host.Outcome.next.inj (hc.symm.trans (h.hostCommand_eq w))

/-- A host operation that is no reset writes the input or answers (60_exceptions.md R233). -/
theorem InError.hostOp_sameResults (h : InError s) {op : HostOp cfg} (hop : op ≠ .reset)
    (ht : hostOp op s = .next t) : SameResults s t := by
  rcases hostOp_cases ht with
    ⟨-, _, _, rfl⟩ | ⟨hr, -⟩ | ⟨_, _, -, -, -, rfl⟩ | ⟨_, -, -, -, rfl⟩ | ⟨_, -, -, rfl⟩ | ⟨w, -, hw⟩
  · exact .refl s
  · exact absurd hr hop
  · exact .refl s
  · exact .refl s
  · exact .refl s
  · cases (h.hostIssue_eq w).symm.trans hw
    exact .refl s

/-- A `LOAD` writes the input alone. -/
theorem InError.of_loadChunk (h : InError s) {bytes : List Byte} (ht : loadChunk bytes s = .next t) :
    InError t ∧ SameResults s t := by
  obtain ⟨m, rfl, -⟩ := loadChunk_frame ht
  exact ⟨h, .refl s⟩

/-- An entry of the program is a reset, alone or at the start of an invocation, or keeps the results. -/
theorem InError.runEvent_cases (h : InError s) {e : Event cfg} (ht : runEvent e s = .next t) :
    SameResults s t ∨ e = .host .reset ∨ ∃ d, e = .perform d := by
  cases e with
  | host op =>
    by_cases hop : op = .reset
    · exact .inr (.inl (congrArg _ hop))
    · exact .inl (h.hostOp_sameResults hop ht)
  | command w =>
    cases h.eq_of_hostCommand ht
    exact .inl (.refl s)
  | wait => exact .inl (h.hostOp_sameResults (op := .readStatus) nofun ((runEvent_wait_of_not_busy h.1).symm.trans ht))
  | load bytes => exact .inl (h.of_loadChunk ht).2
  | compress => cases ht; exact .inl (.refl s)
  | decompress => cases ht; exact .inl (.refl s)
  | perform d => exact .inr (.inr ⟨d, rfl⟩)
  | beat =>
    cases (blockBeat_of_not_busy h.1).symm.trans ht
    exact .inl (.refl s)
  | complete =>
    cases (blockComplete_of_not_busy h.1).symm.trans ht
    exact .inl (.refl s)

/-- The command lines of a chunk are all ignored. -/
theorem InError.driverWork_sameResults (h : InError s) {d : Direction} {chunk : List Byte}
    (ht : driverWork d chunk s = .next t) : SameResults s t := by
  obtain ⟨u, hload, ⟨-, v, w, hv, hw, rfl⟩ | ⟨-, v, hv, ⟨-, rfl⟩ | ⟨-, w, hw, rfl⟩⟩⟩ := driverWork_cases ht
  all_goals
    obtain ⟨hu, hsame⟩ := h.of_loadChunk hload
    obtain rfl := hu.eq_of_hostCommand hv
  · obtain rfl := hu.eq_of_hostCommand hw
    exact hsame
  · exact hsame
  · obtain rfl := hu.eq_of_hostCommand hw
    exact hsame

/-- What a step can do to a block in error: it keeps the results, or is a reset of the host (60_exceptions.md R233,
44_stream_drivers.md R212). -/
theorem InError.stepAt_cases (h : InError s) (ht : stepAt s = .next t) :
    SameResults s t ∨
      (s.driver.running = false ∧ ∃ rest, s.program = .host .reset :: rest ∨ ∃ d, s.program = .perform d :: rest) := by
  rcases Machine.stepAt_cases ht with
    ⟨-, ⟨d, -, hr⟩ | ⟨d, chunk, -, hw⟩ | ⟨d, -, hw⟩⟩ | ⟨hstop, ⟨-, hc⟩ | ⟨e, rest, hp, he⟩⟩
  · obtain ⟨f, rfl | ⟨-, rfl⟩ | ⟨-, rfl⟩⟩ := driverRead_cases hr <;> exact .inl (.refl s)
  · exact .inl (h.driverWork_sameResults hw)
  · obtain ⟨f, k, rfl | rfl⟩ := driverWrite_cases hw <;> exact .inl (.refl s)
  · cases (blockComplete_of_not_busy h.1).symm.trans hc
    exact .inl (.refl s)
  · obtain hsame | rfl | ⟨d, rfl⟩ := InError.runEvent_cases (s := s.withProgram rest) h he
    · exact .inl hsame
    · exact .inr ⟨hstop, rest, .inl hp⟩
    · exact .inr ⟨hstop, rest, .inr ⟨d, hp⟩⟩

/-! ### A host that keeps its protocol -/

/-- An entry that is forbidden while `BUSY = 1` comes with `BUSY = 0`. -/
theorem not_busy_of_not_allowed {e : Event cfg} (hallowed : s.busy = true → e.allowedWhileBusy = true)
    (he : e.allowedWhileBusy = false) : s.busy = false :=
  Bool.eq_false_iff.mpr fun hb => by simp [hallowed hb] at he

theorem exists_hostIssue_of_not_busy (hb : s.busy = false) (w : Byte) : ∃ t, hostIssue w s = .next t := by
  by_cases he : s.err = errNone
  · exact ⟨_, Ready.hostIssue_eq ⟨hb, he⟩ w⟩
  · exact ⟨s, hostIssue_of_error hb he w⟩

/-- A command line without a command in flight is ignored or completes. -/
theorem BlockLegal.exists_hostCommand_of_not_busy (h : BlockLegal s) (hb : s.busy = false) (w : Byte) :
    ∃ t, hostCommand w s = .next t := by
  by_cases he : s.err = errNone
  · exact h.exists_hostCommand ⟨hb, he⟩ w
  · exact ⟨s, InError.hostCommand_eq ⟨hb, he⟩ w⟩

/-- A host operation inside its bounds that is allowed now ends in a state (10_state.md R41 to R47). -/
theorem exists_hostOp {op : HostOp cfg} (hwf : op.wf = true)
    (hallowed : s.busy = true → (Event.host op).allowedWhileBusy = true) : ∃ t, hostOp op s = .next t := by
  cases op with
  | reset => exact ⟨_, rfl⟩
  | writeIn i v =>
    exact ⟨_, hostWriteIn_eq_next.mpr ⟨not_busy_of_not_allowed hallowed rfl, of_decide_eq_true hwf, rfl⟩⟩
  | setLen len =>
    exact ⟨_, hostSetLen_eq_next.mpr ⟨not_busy_of_not_allowed hallowed rfl, of_decide_eq_true hwf, rfl⟩⟩
  | setN n => exact ⟨_, hostSetN_eq_next.mpr ⟨not_busy_of_not_allowed hallowed rfl, rfl⟩⟩
  | issue w => exact exists_hostIssue_of_not_busy (not_busy_of_not_allowed hallowed rfl) w
  | readStatus | readIn _ | readRun _ | readOut _ | readLen | readN | readRCount | readOLen => exact ⟨_, rfl⟩

/-- An entry of the program inside its bounds that is allowed now ends in a state (60_exceptions.md R238). -/
theorem BlockLegal.exists_runEvent (h : BlockLegal s) {e : Event cfg} (hwf : e.wf = true)
    (hallowed : s.busy = true → e.allowedWhileBusy = true) : ∃ t, runEvent e s = .next t := by
  cases e with
  | host op => exact exists_hostOp hwf hallowed
  | command w => exact h.exists_hostCommand_of_not_busy (not_busy_of_not_allowed hallowed rfl) w
  | wait =>
    cases hb : s.busy with
    | true =>
      obtain ⟨t, ht⟩ := (blockLegal_keptByMoves.withProgram h (.wait :: s.program)).exists_completeCommand
      exact ⟨t, (if_pos hb).trans ht⟩
    | false => exact ⟨_, runEvent_wait_of_not_busy hb⟩
  | load bytes =>
    obtain ⟨t, ht, -⟩ := exists_loadChunk (not_busy_of_not_allowed hallowed rfl) (of_decide_eq_true hwf)
    exact ⟨t, ht⟩
  | compress | decompress | perform _ => exact ⟨_, rfl⟩
  | beat => exact h.exists_blockBeat
  | complete => exact h.exists_blockComplete

/-- A step from a legal state meets no model fault when the host keeps its protocol, whatever the configuration. -/
theorem Inv.exists_stepAt_of_hostObeys (hi : Inv s) (ho : HostObeys s) : ∃ t, stepAt s = .next t := by
  obtain ⟨hblock, -⟩ := inv_iff.mp hi
  cases hd : s.driver.running with
  | true => exact hi.exists_stepAt_of_running hd
  | false =>
    cases hp : s.program with
    | nil => rw [stepAt_of_nil hd hp]; exact hblock.exists_blockComplete
    | cons e rest =>
      obtain ⟨hwf, hallowed⟩ := ho hd e rest hp
      rw [stepAt_of_event hd hp]
      exact (blockLegal_keptByMoves.withProgram hblock rest).exists_runEvent hwf hallowed

end

/-- Settles O11: a block in error ignores its command lines, and the only other moves that write a result are resets. -/
theorem errorStaysUntilReset : Obligations.ErrorStaysUntilReset := fun _ hs he =>
  have h := hs.inError he
  ⟨fun w => ⟨h.hostIssue_eq w, h.hostCommand_eq w⟩, rfl, rfl, rfl, fun _ ht => h.stepAt_cases ht⟩

/-- Settles O44: a running driver keeps the protocol by the invariant, and the host by hypothesis. -/
theorem obeyingHostMeetsNoFault : Obligations.ObeyingHostMeetsNoFault := fun _ hi ho => hi.exists_stepAt_of_hostObeys ho

/-- Settles O50: with nothing in the program a step is the completion, which does nothing with `BUSY = 0`. -/
theorem idleBlockKeepsItsState : Obligations.IdleBlockKeepsItsState := fun _ hd hp =>
  ⟨fun hb => (stepAt_of_nil hd hp).trans (blockComplete_of_not_busy hb),
    fun hb => (stepAt_of_nil hd hp).trans (blockComplete_of_busy hb)⟩

end Sys2Proof.Machine

/-! ## Proofs of the family 70_reset_and_hazards: commands on the reset state, and the writes of a chunk in any order

SUPPORT for O3 and O46. A command that has nothing to read, on a block at rest that holds no result, changes nothing
(70_reset_and_hazards.md R262); and the three host writes of a chunk set fields of their own (R263). -/

namespace Sys2Proof.Machine

section

variable {cfg : Config} {s : State cfg}

/-! ### Commands that have nothing to read -/

/-- A block at rest is as a completion leaves it. -/
theorem UnitsIdle.retire_eq (h : UnitsIdle s) : s.retire = s := by
  obtain ⟨hb, ha, hsc, hex, hse, hde⟩ := h
  rw [State.retire, ← hsc, ← hex, ← hse, ← hde, ← ha, ← hb]

/-- Whatever the buffers hold: the hypotheses speak of registers alone (70_reset_and_hazards.md R262). -/
theorem UnitsIdle.execAt_of_empty (h : UnitsIdle s) (hlen : s.effLen = 0) (hr : s.rcount = 0#cfg.lenBits)
    (ho : s.olen = 0#cfg.olenBits) (i : Instr) : execAt i s = .next s := by
  have hruns : ({ s with rcount := 0#cfg.lenBits } : State cfg).retire = s := by rw [← hr]; exact h.retire_eq
  have hout : ({ s with olen := 0#cfg.olenBits } : State cfg).retire = s := by rw [← ho]; exact h.retire_eq
  cases i with
  | encode => exact (execEncode_of_empty hlen).trans (congrArg _ hruns)
  | decode => exact (execDecode_of_empty hr).trans (congrArg _ hout)
  | serialize => exact (execSerialize_of_empty hr).trans (congrArg _ hout)
  | parse => exact (execParse_of_empty hlen).trans (congrArg _ hruns)

/-! ### Host writes in either order -/

/-- Two operations commute on a state where both orders end in the same state. -/
theorem andThen_comm_of_next {f g : State cfg → Result cfg} {t u v : State cfg} (hf : f s = .next t) (hg : g s = .next u)
    (hgt : g t = .next v) (hfu : f u = .next v) : andThen (f s) g = andThen (g s) f := by
  rw [hf, hg, andThen_next, andThen_next, hgt, hfu]

end

/-- Settles O3: after a reset there is nothing to read, the results are empty and the units are idle, whatever the buffers
hold. -/
theorem commandsOnResetState : Obligations.CommandsOnResetState := by
  intro i s
  have hexec : ∀ (a c : List Host.Cell) (b : List (Nat × Run)),
      execAt i { s.resetBlock with ibuf := a, runbuf := b, obuf := c } =
        .next { s.resetBlock with ibuf := a, runbuf := b, obuf := c } := fun _ _ _ =>
    UnitsIdle.execAt_of_empty ⟨rfl, rfl, rfl, rfl, rfl, rfl⟩ rfl rfl rfl i
  have hready : Ready s.resetBlock := ⟨rfl, rfl⟩
  exact ⟨hready.hostCommand_eq (hexec [] [] []), (exec_eq_execAt i _).trans (hexec [] [] []), rfl, rfl, rfl,
    fun a c b => (exec_eq_execAt i _).trans (hexec a c b)⟩

/-- Settles O46: each of the three writes sets one field and reads none that another one sets. -/
theorem loadWritesInAnyOrder : Obligations.LoadWritesInAnyOrder := by
  intro cfg i len v n s hi hlen hb
  have hwrite (t : State cfg) (ht : t.busy = false) :
      hostOp (.writeIn i v) t = .next { t with ibuf := Memory.set t.ibuf i v } := hostWriteIn_eq_next.mpr ⟨ht, hi, rfl⟩
  have hsetLen (t : State cfg) (ht : t.busy = false) :
      hostOp (.setLen len) t = .next { t with ilen := BitVec.ofNat cfg.lenBits len } :=
    hostSetLen_eq_next.mpr ⟨ht, hlen, rfl⟩
  have hsetN (t : State cfg) (ht : t.busy = false) : hostOp (.setN n) t = .next { t with narg := n } :=
    hostSetN_eq_next.mpr ⟨ht, rfl⟩
  exact ⟨andThen_comm_of_next (hwrite s hb) (hsetLen s hb) (hsetLen _ hb) (hwrite _ hb),
    andThen_comm_of_next (hwrite s hb) (hsetN s hb) (hsetN _ hb) (hwrite _ hb),
    andThen_comm_of_next (hsetLen s hb) (hsetN s hb) (hsetN _ hb) (hsetLen _ hb),
    ⟨_, andThen_eq_next.mpr ⟨_, hwrite s hb, hsetLen _ hb⟩⟩⟩

end Sys2Proof.Machine
